-- ==== Sys2Proof/Word.lean ====
section
/-! DEFINITION. The words of the machine: a command word or bus word (R17), a byte, an aperture offset (R17, R83). -/

namespace Sys2Proof

/-- A 32-bit command word or bus data word (R17, R110). -/
abbrev Word := BitVec 32

/-- One byte of an octet (R34). -/
abbrev Byte := BitVec 8

/-- A byte offset into the host aperture of 2^20 bytes (R17, R83). -/
abbrev Offset := BitVec 20

end Sys2Proof
end

