-- ==== Sys2Proof/Syntax.lean ====
section
/-! DEFINITION. The commands of PMX, one constructor per row of spec/opcode_table.json (R117). -/

namespace Sys2Proof

/-- The field width family (R10). -/
inductive Width where
  | w2048
  | w4096
  | w8192
  deriving DecidableEq, Repr

/-- The number of bits of a width (R10). -/
def Width.bits : Width → Nat
  | .w2048 => 2048
  | .w4096 => 4096
  | .w8192 => 8192

/-- The byte length of a width (R12). -/
def Width.bytes : Width → Nat
  | .w2048 => 256
  | .w4096 => 512
  | .w8192 => 1024

/-- Index of a wide register b0..b15 (R13, R113). -/
abbrev BReg := Fin 16

/-- Index of an octet o0..o15 (R14, R113). -/
abbrev OReg := Fin 16

/-- Flag S of PL.KEYGEN (R115): the private-key scheme. -/
inductive Scheme where
  | plain
  | crt
  deriving DecidableEq, Repr

/-- FIELD of PL.KEYRD (R115): the public-key field read. -/
inductive PkField where
  | n
  | g
  | n2
  deriving DecidableEq, Repr

/-- The commands (R117). An operand a flag switches off is `none`: the remainder of LD.DIV (flag RM), the supplied
primes of PL.KEYGEN (flag M), the supplied randomness and the emitted randomness of PL.ENC (flags RS, EM). -/
inductive Instr where
  | octZero (d : OReg)
  | octCopy (d a : OReg)
  | octAppend (d a : OReg)
  | octPad (d : OReg) (len : BitVec 16)
  | octTail (d a : OReg) (len : BitVec 16)
  | octCteq (a b : OReg)
  | bnZero (d : BReg) (w : Width)
  | bnOne (d : BReg) (w : Width)
  | bnCopy (d a : BReg) (w : Width)
  | bnAdd (d a b : BReg) (w : Width)
  | bnSub (d a b : BReg) (w : Width)
  | bnNorm (d a : BReg) (w : Width)
  | bnCmp (a b : BReg) (w : Width)
  | bnShlw (d a : BReg) (w : Width)
  | bnShrw (d a : BReg) (w : Width)
  | bnMul (d a b : BReg) (w : Width)
  | bnSqr (d a : BReg) (w : Width)
  | bnMod (d a b : BReg) (w : Width)
  | bnPow (d a b c : BReg) (w : Width)
  | bnInv (d a b : BReg) (w : Width)
  | bnInv2m (d a : BReg) (w : Width)
  | bnRand (d a : BReg) (w : Width)
  | bnPrime (a : BReg) (w : Width)
  | bnLoad (d : BReg) (a : OReg) (w : Width)
  | bnStore (d : OReg) (a : BReg) (w : Width)
  | wpPromote (d a : BReg) (w : Width)
  | wpTrunc (d a : BReg) (w : Width)
  | ldDiv (d a b : BReg) (rem : Option BReg) (w : Width)
  | plKeygen (scheme : Scheme) (primes : Option (BReg × BReg))
  | plPkload (a : BReg)
  | plKeyrd (d : BReg) (field : PkField)
  | plSkkill
  | plEnc (d a : BReg) (r emit : Option BReg)
  | plDec (d a : BReg)
  | plAdd (d a b : BReg)
  | plMul (d a b : BReg)
  | rnSeed (a : OReg)
  | rnKill
  deriving DecidableEq, Repr

end Sys2Proof
end

