-- ==== Sys2Proof/WellFormed.lean ====
section
/-! DEFINITION. Which terms of Instr are commands of the opcode map: the width checks of R120 (every other
restriction of R117 to R121 holds by construction of Instr). -/

namespace Sys2Proof

/-- A width a command admits (the ws column of R117): BN.MUL, BN.SQR and BN.MOD have no 8192-bit form, WP.PROMOTE no
2048-bit target, WP.TRUNC no 8192-bit target (R120). -/
def Instr.wf : Instr → Bool
  | .bnMul _ _ _ w => w != .w8192
  | .bnSqr _ _ w => w != .w8192
  | .bnMod _ _ _ w => w != .w8192
  | .wpPromote _ _ w => w != .w2048
  | .wpTrunc _ _ w => w != .w8192
  | .octZero _ => true
  | .octCopy _ _ => true
  | .octAppend _ _ => true
  | .octPad _ _ => true
  | .octTail _ _ _ => true
  | .octCteq _ _ => true
  | .bnZero _ _ => true
  | .bnOne _ _ => true
  | .bnCopy _ _ _ => true
  | .bnAdd _ _ _ _ => true
  | .bnSub _ _ _ _ => true
  | .bnNorm _ _ _ => true
  | .bnCmp _ _ _ => true
  | .bnShlw _ _ _ => true
  | .bnShrw _ _ _ => true
  | .bnPow _ _ _ _ _ => true
  | .bnInv _ _ _ _ => true
  | .bnInv2m _ _ _ => true
  | .bnRand _ _ _ => true
  | .bnPrime _ _ => true
  | .bnLoad _ _ _ => true
  | .bnStore _ _ _ => true
  | .ldDiv _ _ _ _ _ => true
  | .plKeygen _ _ => true
  | .plPkload _ => true
  | .plKeyrd _ _ => true
  | .plSkkill => true
  | .plEnc _ _ _ _ => true
  | .plDec _ _ => true
  | .plAdd _ _ _ => true
  | .plMul _ _ _ => true
  | .rnSeed _ => true
  | .rnKill => true

end Sys2Proof
end

