-- ==== Sys2Proof/Decode.lean ====
section
/-! DEFINITION. The command decoder (R110 to R122) and the encoder (R126), both from the opcode map of R117. -/

namespace Sys2Proof

/-! ## Fields of a command word (R111, R112) -/

/-- Bits 31:24, the opcode (R110). -/
def Word.op (w : Word) : BitVec 8 := w.extractLsb' 24 8
/-- Bits 23:20, index d. -/
def Word.fieldD (w : Word) : BitVec 4 := w.extractLsb' 20 4
/-- Bits 19:16, index a. -/
def Word.fieldA (w : Word) : BitVec 4 := w.extractLsb' 16 4
/-- Bits 15:12, index b. -/
def Word.fieldB (w : Word) : BitVec 4 := w.extractLsb' 12 4
/-- Bits 11:8, index c. -/
def Word.fieldC (w : Word) : BitVec 4 := w.extractLsb' 8 4
/-- Bits 7:6, the width code. -/
def Word.fieldWs (w : Word) : BitVec 2 := w.extractLsb' 6 2
/-- Bits 5:0, the command flags. -/
def Word.fieldF (w : Word) : BitVec 6 := w.extractLsb' 0 6
/-- Bits 15:0 of format I, the unsigned length (R112, R116). -/
def Word.fieldImm (w : Word) : BitVec 16 := w.extractLsb' 0 16

/-- The 2-bit code of a width (R10). -/
def Width.code : Width → BitVec 2
  | .w2048 => 0b00#2
  | .w4096 => 0b01#2
  | .w8192 => 0b10#2

/-- The width a code names; 11 is reserved (R10, R114). -/
def Width.ofCode (c : BitVec 2) : Option Width :=
  if c = 0b00#2 then some .w2048
  else if c = 0b01#2 then some .w4096
  else if c = 0b10#2 then some .w8192
  else none

/-! ## The opcode map (R117) -/

/-- Why a word is no command: every one faults ILLEGAL_CMD (R118 to R121). -/
inductive Illegal where
  /-- The opcode is not in the map (R118). -/
  | reservedOpcode
  /-- A field that must be 0 is not, by the map or because its flag is 0 (R119). -/
  | mustBeZero
  /-- The width code is reserved or not among the command's (R120). -/
  | illegalWidth
  /-- A flag bit the command does not define is set (R121). -/
  | undefinedFlag
  /-- PL.KEYRD with FIELD above 2 (R121). -/
  | illegalField
  deriving DecidableEq, Repr

/-- A column entry of the opcode map for d, a, b or c (R117). -/
inductive Column where
  /-- A wide register index. -/
  | R
  /-- An octet index. -/
  | O
  /-- Must be 0. -/
  | zero
  /-- A wide register index if this flag bit is 1, else must be 0. -/
  | flagged (bit : Nat)
  deriving DecidableEq, Repr

/-- The two command formats (R111, R112). -/
inductive Format where
  | R
  | I
  deriving DecidableEq, Repr

/-- The operand fields of a command that passed the decode check (R122). -/
structure Fields where
  d : Fin 16
  a : Fin 16
  b : Fin 16
  c : Fin 16
  w : Width
  f : BitVec 6
  imm : BitVec 16
  deriving DecidableEq, Repr

/-- A flag bit of the f field (R115). -/
def Fields.flag (x : Fields) (k : Nat) : Bool := x.f.getLsbD k

/-- One row of the opcode map: opcode, format, columns d, a, b, c, admitted widths, defined flag bits, and the command. -/
structure Row where
  op : BitVec 8
  fmt : Format
  d : Column
  a : Column
  b : Column
  c : Column
  widths : List Width
  flags : BitVec 6
  command : Fields → Instr

/-- The ws column entry 00 of a command that takes no width (R114). -/
def noWidth : List Width := [.w2048]
/-- The ws column entry `any`. -/
def anyWidth : List Width := [.w2048, .w4096, .w8192]

/-- The scheme flag S is bit 0 (R115). -/
def schemeOf (x : Fields) : Scheme := if x.flag 0 then .crt else .plain

/-- FIELD of PL.KEYRD (R115): 0 n, 1 g, 2 n2; above 2 is rejected before (R121). -/
def pkFieldOf (x : Fields) : PkField := if x.f = 0#6 then .n else if x.f = 1#6 then .g else .n2

/-- The opcode map, row by row as R117 lists it. -/
def opcodeMap : List Row := [
  ⟨0x01, .R, .O, .zero, .zero, .zero, noWidth, 0, fun x => .octZero x.d⟩,
  ⟨0x02, .R, .O, .O, .zero, .zero, noWidth, 0, fun x => .octCopy x.d x.a⟩,
  ⟨0x03, .R, .O, .O, .zero, .zero, noWidth, 0, fun x => .octAppend x.d x.a⟩,
  ⟨0x04, .I, .O, .zero, .zero, .zero, noWidth, 0, fun x => .octPad x.d x.imm⟩,
  ⟨0x05, .I, .O, .O, .zero, .zero, noWidth, 0, fun x => .octTail x.d x.a x.imm⟩,
  ⟨0x06, .R, .zero, .O, .O, .zero, noWidth, 0, fun x => .octCteq x.a x.b⟩,
  ⟨0x10, .R, .R, .zero, .zero, .zero, anyWidth, 0, fun x => .bnZero x.d x.w⟩,
  ⟨0x11, .R, .R, .zero, .zero, .zero, anyWidth, 0, fun x => .bnOne x.d x.w⟩,
  ⟨0x12, .R, .R, .R, .zero, .zero, anyWidth, 0, fun x => .bnCopy x.d x.a x.w⟩,
  ⟨0x13, .R, .R, .R, .R, .zero, anyWidth, 0, fun x => .bnAdd x.d x.a x.b x.w⟩,
  ⟨0x14, .R, .R, .R, .R, .zero, anyWidth, 0, fun x => .bnSub x.d x.a x.b x.w⟩,
  ⟨0x15, .R, .R, .R, .zero, .zero, anyWidth, 0, fun x => .bnNorm x.d x.a x.w⟩,
  ⟨0x16, .R, .zero, .R, .R, .zero, anyWidth, 0, fun x => .bnCmp x.a x.b x.w⟩,
  ⟨0x17, .R, .R, .R, .zero, .zero, anyWidth, 0, fun x => .bnShlw x.d x.a x.w⟩,
  ⟨0x18, .R, .R, .R, .zero, .zero, anyWidth, 0, fun x => .bnShrw x.d x.a x.w⟩,
  ⟨0x19, .R, .R, .R, .R, .zero, [.w2048, .w4096], 0, fun x => .bnMul x.d x.a x.b x.w⟩,
  ⟨0x1A, .R, .R, .R, .zero, .zero, [.w2048, .w4096], 0, fun x => .bnSqr x.d x.a x.w⟩,
  ⟨0x1B, .R, .R, .R, .R, .zero, [.w2048, .w4096], 0, fun x => .bnMod x.d x.a x.b x.w⟩,
  ⟨0x1C, .R, .R, .R, .R, .R, anyWidth, 0, fun x => .bnPow x.d x.a x.b x.c x.w⟩,
  ⟨0x1D, .R, .R, .R, .R, .zero, anyWidth, 0, fun x => .bnInv x.d x.a x.b x.w⟩,
  ⟨0x1E, .R, .R, .R, .zero, .zero, anyWidth, 0, fun x => .bnInv2m x.d x.a x.w⟩,
  ⟨0x1F, .R, .R, .R, .zero, .zero, anyWidth, 0, fun x => .bnRand x.d x.a x.w⟩,
  ⟨0x20, .R, .zero, .R, .zero, .zero, anyWidth, 0, fun x => .bnPrime x.a x.w⟩,
  ⟨0x21, .R, .R, .O, .zero, .zero, anyWidth, 0, fun x => .bnLoad x.d x.a x.w⟩,
  ⟨0x22, .R, .O, .R, .zero, .zero, anyWidth, 0, fun x => .bnStore x.d x.a x.w⟩,
  ⟨0x30, .R, .R, .R, .zero, .zero, [.w4096, .w8192], 0, fun x => .wpPromote x.d x.a x.w⟩,
  ⟨0x31, .R, .R, .R, .zero, .zero, [.w2048, .w4096], 0, fun x => .wpTrunc x.d x.a x.w⟩,
  ⟨0x38, .R, .R, .R, .R, .flagged 0, anyWidth, 0b000001,
    fun x => .ldDiv x.d x.a x.b (if x.flag 0 then some x.c else none) x.w⟩,
  ⟨0x40, .R, .zero, .flagged 1, .flagged 1, .zero, noWidth, 0b000011,
    fun x => .plKeygen (schemeOf x) (if x.flag 1 then some (x.a, x.b) else none)⟩,
  ⟨0x41, .R, .zero, .R, .zero, .zero, noWidth, 0, fun x => .plPkload x.a⟩,
  ⟨0x42, .R, .R, .zero, .zero, .zero, noWidth, 0b111111, fun x => .plKeyrd x.d (pkFieldOf x)⟩,
  ⟨0x43, .R, .zero, .zero, .zero, .zero, noWidth, 0, fun _ => .plSkkill⟩,
  ⟨0x48, .R, .R, .R, .flagged 0, .flagged 1, noWidth, 0b000011,
    fun x => .plEnc x.d x.a (if x.flag 0 then some x.b else none) (if x.flag 1 then some x.c else none)⟩,
  ⟨0x49, .R, .R, .R, .zero, .zero, noWidth, 0, fun x => .plDec x.d x.a⟩,
  ⟨0x4A, .R, .R, .R, .R, .zero, noWidth, 0, fun x => .plAdd x.d x.a x.b⟩,
  ⟨0x4B, .R, .R, .R, .R, .zero, noWidth, 0, fun x => .plMul x.d x.a x.b⟩,
  ⟨0x50, .R, .zero, .O, .zero, .zero, noWidth, 0, fun x => .rnSeed x.a⟩,
  ⟨0x51, .R, .zero, .zero, .zero, .zero, noWidth, 0, fun _ => .rnKill⟩]

/-- The row of an opcode, if the map has one (R118). -/
def rowOf (op : BitVec 8) : Option Row := opcodeMap.find? (fun r => r.op == op)

/-! ## The decode check (R122) -/

/-- Whether a column admits a field value under flags f (R119). -/
def Column.admits (k : Column) (f : BitVec 6) (x : BitVec 4) : Bool :=
  match k with
  | .R => true
  | .O => true
  | .zero => x == 0
  | .flagged bit => f.getLsbD bit || x == 0

/-- The check of a format I command: its unused index must be 0 (R119). -/
def Row.checkI (r : Row) (w : Word) : Except Illegal Fields :=
  if !(r.a.admits 0 (Word.fieldA w)) then .error .mustBeZero
  else .ok ⟨(Word.fieldD w).toFin, (Word.fieldA w).toFin, 0, 0, .w2048, 0, Word.fieldImm w⟩

/-- The check of a format R command, in the order of R122: flags, FIELD, index fields, width. -/
def Row.checkR (r : Row) (w : Word) : Except Illegal Fields :=
  if Word.fieldF w &&& ~~~r.flags != 0 then .error .undefinedFlag
  else if r.op == 0x42 && (2#6).ult (Word.fieldF w) then .error .illegalField
  else if !(r.d.admits (Word.fieldF w) (Word.fieldD w) && r.a.admits (Word.fieldF w) (Word.fieldA w)
      && r.b.admits (Word.fieldF w) (Word.fieldB w) && r.c.admits (Word.fieldF w) (Word.fieldC w)) then
    .error .mustBeZero
  else
    match Width.ofCode (Word.fieldWs w) with
    | none => .error .illegalWidth
    | some width =>
      if r.widths.contains width then
        .ok ⟨(Word.fieldD w).toFin, (Word.fieldA w).toFin, (Word.fieldB w).toFin, (Word.fieldC w).toFin,
          width, Word.fieldF w, 0⟩
      else .error .illegalWidth

/-- The decode check by the row's format. -/
def Row.check (r : Row) (w : Word) : Except Illegal Fields :=
  match r.fmt with
  | .I => r.checkI w
  | .R => r.checkR w

/-- Decode (R122): the command a word names, or why it is illegal. Total: every word has one of the two (R280). -/
def decode (w : Word) : Except Illegal Instr :=
  match rowOf (Word.op w) with
  | none => .error .reservedOpcode
  | some r =>
    match r.check w with
    | .error e => .error e
    | .ok x => .ok (r.command x)

/-! ## The encoder (R126) -/

/-- EncR of R126: op, d, a, b, c, ws, f from bit 31 down to bit 0. -/
def encR (op : BitVec 8) (d a b c : Fin 16) (ws : BitVec 2) (f : BitVec 6) : Word :=
  op ++ BitVec.ofFin (w := 4) d ++ BitVec.ofFin (w := 4) a ++ BitVec.ofFin (w := 4) b ++ BitVec.ofFin (w := 4) c ++ ws ++ f

/-- EncI of R126: op, d, a, imm16. -/
def encI (op : BitVec 8) (d a : Fin 16) (imm : BitVec 16) : Word :=
  op ++ BitVec.ofFin (w := 4) d ++ BitVec.ofFin (w := 4) a ++ imm

/-- OPC of R126: the opcode of a command. -/
def Instr.opcode : Instr → BitVec 8
  | .octZero _ => 0x01
  | .octCopy _ _ => 0x02
  | .octAppend _ _ => 0x03
  | .octPad _ _ => 0x04
  | .octTail _ _ _ => 0x05
  | .octCteq _ _ => 0x06
  | .bnZero _ _ => 0x10
  | .bnOne _ _ => 0x11
  | .bnCopy _ _ _ => 0x12
  | .bnAdd _ _ _ _ => 0x13
  | .bnSub _ _ _ _ => 0x14
  | .bnNorm _ _ _ => 0x15
  | .bnCmp _ _ _ => 0x16
  | .bnShlw _ _ _ => 0x17
  | .bnShrw _ _ _ => 0x18
  | .bnMul _ _ _ _ => 0x19
  | .bnSqr _ _ _ => 0x1A
  | .bnMod _ _ _ _ => 0x1B
  | .bnPow _ _ _ _ _ => 0x1C
  | .bnInv _ _ _ _ => 0x1D
  | .bnInv2m _ _ _ => 0x1E
  | .bnRand _ _ _ => 0x1F
  | .bnPrime _ _ => 0x20
  | .bnLoad _ _ _ => 0x21
  | .bnStore _ _ _ => 0x22
  | .wpPromote _ _ _ => 0x30
  | .wpTrunc _ _ _ => 0x31
  | .ldDiv _ _ _ _ _ => 0x38
  | .plKeygen _ _ => 0x40
  | .plPkload _ => 0x41
  | .plKeyrd _ _ => 0x42
  | .plSkkill => 0x43
  | .plEnc _ _ _ _ => 0x48
  | .plDec _ _ => 0x49
  | .plAdd _ _ _ => 0x4A
  | .plMul _ _ _ => 0x4B
  | .rnSeed _ => 0x50
  | .rnKill => 0x51

/-- The index a switched-off operand field encodes as (R119, R124: 0). -/
def optIndex : Option (Fin 16) → Fin 16
  | none => 0
  | some i => i

/-- Flag S of PL.KEYGEN (R115). -/
def Scheme.flag : Scheme → BitVec 6
  | .plain => 0b000000
  | .crt => 0b000001

/-- FIELD of PL.KEYRD (R115). -/
def PkField.code : PkField → BitVec 6
  | .n => 0
  | .g => 1
  | .n2 => 2

/-- The flag bit at position `bit` when the operand it switches is present (R115). -/
def presence (bit : BitVec 6) : Option (Fin 16) → BitVec 6
  | none => 0
  | some _ => bit

/-- The command word of a command (R126 over R117). -/
def encode (i : Instr) : Word :=
  match i with
  | .octZero d => encR i.opcode d 0 0 0 0 0
  | .octCopy d a => encR i.opcode d a 0 0 0 0
  | .octAppend d a => encR i.opcode d a 0 0 0 0
  | .octPad d len => encI i.opcode d 0 len
  | .octTail d a len => encI i.opcode d a len
  | .octCteq a b => encR i.opcode 0 a b 0 0 0
  | .bnZero d w => encR i.opcode d 0 0 0 w.code 0
  | .bnOne d w => encR i.opcode d 0 0 0 w.code 0
  | .bnCopy d a w => encR i.opcode d a 0 0 w.code 0
  | .bnAdd d a b w => encR i.opcode d a b 0 w.code 0
  | .bnSub d a b w => encR i.opcode d a b 0 w.code 0
  | .bnNorm d a w => encR i.opcode d a 0 0 w.code 0
  | .bnCmp a b w => encR i.opcode 0 a b 0 w.code 0
  | .bnShlw d a w => encR i.opcode d a 0 0 w.code 0
  | .bnShrw d a w => encR i.opcode d a 0 0 w.code 0
  | .bnMul d a b w => encR i.opcode d a b 0 w.code 0
  | .bnSqr d a w => encR i.opcode d a 0 0 w.code 0
  | .bnMod d a b w => encR i.opcode d a b 0 w.code 0
  | .bnPow d a b c w => encR i.opcode d a b c w.code 0
  | .bnInv d a b w => encR i.opcode d a b 0 w.code 0
  | .bnInv2m d a w => encR i.opcode d a 0 0 w.code 0
  | .bnRand d a w => encR i.opcode d a 0 0 w.code 0
  | .bnPrime a w => encR i.opcode 0 a 0 0 w.code 0
  | .bnLoad d a w => encR i.opcode d a 0 0 w.code 0
  | .bnStore d a w => encR i.opcode d a 0 0 w.code 0
  | .wpPromote d a w => encR i.opcode d a 0 0 w.code 0
  | .wpTrunc d a w => encR i.opcode d a 0 0 w.code 0
  | .ldDiv d a b rem w => encR i.opcode d a b (optIndex rem) w.code (presence 0b000001 rem)
  | .plKeygen s none => encR i.opcode 0 0 0 0 0 s.flag
  | .plKeygen s (some (a, b)) => encR i.opcode 0 a b 0 0 (s.flag ||| 0b000010)
  | .plPkload a => encR i.opcode 0 a 0 0 0 0
  | .plKeyrd d field => encR i.opcode d 0 0 0 0 field.code
  | .plSkkill => encR i.opcode 0 0 0 0 0 0
  | .plEnc d a r emit =>
    encR i.opcode d a (optIndex r) (optIndex emit) 0 (presence 0b000001 r ||| presence 0b000010 emit)
  | .plDec d a => encR i.opcode d a 0 0 0 0
  | .plAdd d a b => encR i.opcode d a b 0 0 0
  | .plMul d a b => encR i.opcode d a b 0 0 0
  | .rnSeed a => encR i.opcode 0 a 0 0 0 0
  | .rnKill => encR i.opcode 0 0 0 0 0 0

/-- The command the decoder reads from an opcode-table word: the low `nbits` bits of `w`, the bits above them 0.
A command is one 32-bit word (R110), so it has no byte layout of its own: it is the value written to CMD (R43). -/
def decodeTableWord (nbits w : Nat) : Option Instr :=
  match decode (BitVec.ofNat 32 (w % 2 ^ nbits)) with
  | .ok i => some i
  | .error _ => none

end Sys2Proof
end

