-- ==== Sys2Proof/Config.lean ====
section
/-! DEFINITION. What an implementation fixes (R11, R14 to R16), and the values the spec leaves free (R15, R18). -/

namespace Sys2Proof

/-- The capacity of an octet, OCT_CAP(i): 1 to 4096 bytes (R14). -/
abbrev Capacity := { n : Nat // 1 ≤ n ∧ n ≤ 4096 }

/-- PRIME_SEARCH_MAX: at least 1 (R16). -/
abbrev SearchMax := { n : Nat // 1 ≤ n }

/-- BNI_WORD_BITS: a positive divisor of 2048 (R15). -/
abbrev WordBits := { n : Nat // 0 < n ∧ n ∣ 2048 }

/-- The parameters of the block, fixed for its life (R14, R15, R16). They are constants that no step changes; State holds
them so that a statement about every state speaks of every parameter value. DESIGN CHOICE, log 1. -/
structure Params where
  octCap : Vector Capacity 16
  primeSearchMax : SearchMax
  bniWordBits : WordBits
  deriving DecidableEq, Repr

/-- OPEN (R15): BNI_WORD_BITS is 2 to this exponent; the positive divisors of 2048 are exactly these 12 powers. Log 2. -/
opaque Config.bniWordExp : Fin 12

/-- OPEN (R18 (a)): the raw answer of the n-th draw, if it is a `random-in-range` at this width and bound. Log 3. -/
opaque Config.drawRand : Nat → Width → Nat → Nat

/-- OPEN (R18 (b)): the answer of the n-th draw, if it is an `is-probably-prime` of this value at this width. Log 3. -/
opaque Config.drawPrime : Nat → Width → Nat → Bool

/-- OPEN (R18 (c)): the answer of the n-th draw, if it is whether the RNG reports failure. Log 3. -/
opaque Config.drawRngFail : Nat → Bool

/-- Every exponent gives a positive divisor of 2048. -/
theorem bniWordBits_valid (e : Fin 12) : 0 < 2 ^ e.val ∧ 2 ^ e.val ∣ 2048 :=
  ⟨Nat.pow_pos (by decide), (show (2048 : Nat) = 2 ^ 11 by decide) ▸ Nat.pow_dvd_pow 2 (by omega)⟩

/-- The default parameters: every OCT_CAP(i) 1024 (R14), PRIME_SEARCH_MAX 65536 (R16), BNI_WORD_BITS OPEN (R15). -/
def Params.default : Params where
  octCap := Vector.replicate 16 ⟨1024, by decide⟩
  primeSearchMax := ⟨65536, by decide⟩
  bniWordBits := ⟨2 ^ Config.bniWordExp.val, bniWordBits_valid Config.bniWordExp⟩

/-- HW: the bit length of each prime (R11). -/
def primeBits : Nat := 1024

end Sys2Proof
end

