-- ==== Sys2Proof/Machine/State.lean ====
section
/-! DEFINITION. The state of PMX as plain data (10_state.md, 70 R321), its reset value, and why a step could stop. -/

namespace Sys2Proof.Machine

/-- The fault codes of R281, `none` included. -/
inductive FaultCode where
  | none
  | illegalCmd
  | regUnwritten
  | widthMismatch
  | denorm
  | divZero
  | noInverse
  | evenModulus
  | boundZero
  | octCapacity
  | octRange
  | rngUnseeded
  | rngFail
  | primeSearchExhausted
  | noPubkey
  | noPrivkey
  | ptRange
  | ctRange
  | rRange
  | keyInvalid
  | ctInvalid
  | regConflict
  deriving DecidableEq, Repr

/-- The record of a wide register (R30): `UNWRITTEN`, or a tag with a canonical non-negative value (norm = 1), or a tag with
the exact integer a BN.ADD or BN.SUB left (norm = 0). -/
inductive WideReg where
  | unwritten
  | normal (tag : Width) (val : Nat)
  | denormal (tag : Width) (val : Int)
  deriving DecidableEq, Repr

/-- The public key register set PK (R36). -/
structure PubKey where
  valid : Bool
  n : Nat
  g : Nat
  n2 : Nat
  deriving DecidableEq, Repr

/-- SK.kind (R39). -/
inductive KeyKind where
  | none
  | plain
  | crt
  deriving DecidableEq, Repr

/-- The private key register set SK (R39). Fields of another kind than `kind` hold 0. -/
structure PrivKey where
  kind : KeyKind
  n : Nat
  g : Nat
  l : Nat
  m : Nat
  n2 : Nat
  p : Nat
  q : Nat
  lp : Nat
  lq : Nat
  p2 : Nat
  q2 : Nat
  mp : Nat
  mq : Nat
  invp : Nat
  invq : Nat
  invpq : Nat
  deriving DecidableEq, Repr

/-- STATUS.CMP (R44, R52). -/
inductive CmpResult where
  | none
  | less
  | equal
  | greater
  deriving DecidableEq, Repr

/-- The stored fields of STATUS (R44). BUSY is not stored: it is the presence of a pending command (R57). -/
structure Status where
  done : Bool
  fault : Bool
  cmp : CmpResult
  eq : Bool
  prime : Bool
  berr : Bool
  fcode : FaultCode
  deriving DecidableEq, Repr

/-- CTRL.CAPPOL, the octet capacity policy (R47). -/
inductive CapPolicy where
  | fault
  | truncate
  deriving DecidableEq, Repr

/-- The engine's scratch storage (R56): the marshaler's strings S and T, the divider's remainder, quotient, shifted divisor and
digit, key generation's candidate, primes, λ and μ, and decryption's and encryption's partial values. Log 9. -/
structure Scratch where
  marshalS : List Byte
  marshalT : List Byte
  divR : Nat
  divQ : Nat
  divS : Nat
  divT : Nat
  candidate : Nat
  p : Nat
  q : Nat
  lam : Nat
  mu : Nat
  partials : List Nat
  deriving DecidableEq, Repr

/-- Every scratch location 0 (R56). -/
def Scratch.cleared : Scratch where
  marshalS := []
  marshalT := []
  divR := 0
  divQ := 0
  divS := 0
  divT := 0
  candidate := 0
  p := 0
  q := 0
  lam := 0
  mu := 0
  partials := []

/-- A call the engine makes at the RNG port that is no draw (R270, R272). -/
inductive RngCall where
  | seed (bytes : List Byte)
  | destroy
  deriving DecidableEq, Repr

/-- The external random source as the engine sees it (R18, R58): three oracles, each a finite table of answers and, beyond the
table, an opaque constant of Config; how many draws were made; the seed and destroy calls made. An answer is named by the
number of its draw; a verdict also by the width and the value asked of. The tables never change. Logs 3, 4, 5. -/
structure RngPort where
  /-- Answers of DrawRngFail. -/
  failAnswers : List (Nat × Bool)
  /-- Raw answers of DrawRand. -/
  randAnswers : List (Nat × Nat)
  /-- Answers of DrawPrime. -/
  primeAnswers : List ((Nat × Width × Nat) × Bool)
  /-- The number of draws made, and of the next draw. -/
  drawn : Nat
  /-- The seed and destroy calls made, oldest first. -/
  calls : List RngCall
  deriving DecidableEq, Repr

/-- A host access on the bus (R23, R85): a read or write of 8 or 32 bits at an aperture offset. -/
inductive HostAccess where
  | read8 (off : Offset)
  | read32 (off : Offset)
  | write8 (off : Offset) (v : Byte)
  | write32 (off : Offset) (v : Word)
  deriving DecidableEq, Repr

/-- What happens at the block's pins in one step: the host issues an access, the platform asserts reset (R320), or nothing
arrives and the block goes on. The model's own (log 6). -/
inductive Input where
  | issue (a : HostAccess)
  | reset
  | quiet
  deriving DecidableEq, Repr

/-- The data a host read returns. -/
inductive Reply where
  | byte (v : Byte)
  | word (v : Word)
  deriving DecidableEq, Repr

/-- The octet bytes: (aperture offset, byte) pairs in canonical form, see `Memory.wf` (Machine/Ops.lean). Log 17. -/
abbrev Memory := List Host.Cell

/-- The state of the machine: the block's state of 10_state.md section 9, its constant parameters, the external RNG, and the
host agent (the model's own `inputs`, `port`, `replies`, log 6). -/
structure State where
  /-- The parameters, constant (R14 to R16). -/
  params : Params
  /-- b0..b15 (R30). -/
  regs : Vector WideReg 16
  /-- `o[i].len` (R34). -/
  octLen : Vector Nat 16
  /-- `o[i].byte[k]` at its aperture offset (R34, R84). -/
  mem : Memory
  /-- PK (R36). -/
  pk : PubKey
  /-- SK (R39). -/
  sk : PrivKey
  /-- RNGS (R42). -/
  rngs : Bool
  /-- The pending command word, if a command is in flight (R43, R57). -/
  cmd : Option Word
  /-- STATUS but for BUSY (R44). -/
  status : Status
  /-- FAULTCMD (R46). -/
  faultCmd : Word
  /-- CTRL.CAPPOL (R47). -/
  cappol : CapPolicy
  /-- The engine's scratch (R56). -/
  scratch : Scratch
  /-- The external random source (R58). -/
  rng : RngPort
  /-- The host's and the platform's future, in order (log 6). -/
  inputs : List Input
  /-- Host accesses issued and not yet effective, oldest first (R81). -/
  port : List HostAccess
  /-- The data of completed host reads, oldest first. -/
  replies : List Reply
  deriving DecidableEq, Repr

/-- PK at reset (R38). -/
def PubKey.reset : PubKey where
  valid := false
  n := 0
  g := 0
  n2 := 0

/-- SK with kind NONE and every field 0 (R41). -/
def PrivKey.reset : PrivKey where
  kind := .none
  n := 0
  g := 0
  l := 0
  m := 0
  n2 := 0
  p := 0
  q := 0
  lp := 0
  lq := 0
  p2 := 0
  q2 := 0
  mp := 0
  mq := 0
  invp := 0
  invq := 0
  invpq := 0

/-- STATUS at reset, every field 0 (R45). -/
def Status.reset : Status where
  done := false
  fault := false
  cmp := .none
  eq := false
  prime := false
  berr := false
  fcode := .none

/-- The RNG port of a machine just reset: the source's state is OPEN (R58), so no answer is fixed. DESIGN CHOICE, logs 4, 5. -/
def RngPort.reset : RngPort where
  failAnswers := []
  randAnswers := []
  primeAnswers := []
  drawn := 0
  calls := []

/-- The machine right after reset (R321), with the default parameters (R14, R16) and nothing issued by the host (log 6). -/
def State.reset : State where
  params := Params.default
  regs := Vector.replicate 16 .unwritten
  octLen := Vector.replicate 16 0
  mem := []
  pk := PubKey.reset
  sk := PrivKey.reset
  rngs := false
  cmd := .none
  status := Status.reset
  faultCmd := 0
  cappol := .fault
  scratch := Scratch.cleared
  rng := RngPort.reset
  inputs := []
  port := []
  replies := []

/-- The reasons this machine stops with a fault: there are none. A fault of PMX is an event the block goes on from (R284), and
no command hangs (R82, R280); log 16. -/
inductive Fault where
  deriving DecidableEq, Repr

/-- The reasons a step is refused. No arm of `exec` uses it (log 16). -/
inductive Refusal where
  /-- Raised by an arm of `exec` for an instruction that has no meaning yet; safe, since it stops. No arm raises it. -/
  | notModelled (mnemonic : String)
  deriving DecidableEq, Repr

/-- What a step answers on this machine. -/
abbrev Out := Host.Outcome State Fault Refusal

end Sys2Proof.Machine
end

