-- ==== Sys2Proof/Machine/Ops.lean ====
section
/-! DEFINITION. The named operations over octet memory, octets, wide registers and the RNG port; fault entry, completion and
fault clearing (R284, R286, R288). -/

namespace Sys2Proof.Machine

/-! ## Octet memory -/

/-- What a byte that nothing has written reads as: 0, the reset value of every octet byte (R35). -/
def unlistedByte : Byte := 0

/-- The byte at an aperture offset (R88). -/
def Memory.read (m : Memory) (a : Nat) : Byte :=
  match m with
  | [] => unlistedByte
  | c :: rest => if c.1 = a then c.2 else Memory.read rest a

/-- The canonical cells of a byte string laid at `a`: a byte equal to what an unlisted address reads as is not listed. -/
def Memory.cells (a : Nat) (bytes : List Byte) : Memory :=
  match bytes with
  | [] => []
  | v :: rest => if v = unlistedByte then Memory.cells (a + 1) rest else (a, v) :: Memory.cells (a + 1) rest

/-- `bytes` written at `a, a+1, ...`; every other byte stays. -/
def Memory.write (m : Memory) (a : Nat) (bytes : List Byte) : Memory :=
  m.filter (fun c => c.1 < a) ++ Memory.cells a bytes ++ m.filter (fun c => a + bytes.length ≤ c.1)

/-- The one canonical form: addresses strictly rising, and no cell equal to what an unlisted address reads as. -/
abbrev Memory.wf (m : Memory) : Prop :=
  m.Pairwise (fun c d => c.1 < d.1) ∧ ∀ c ∈ m, c.2 ≠ unlistedByte

/-! ## Octets (R34, R143) -/

/-- The aperture offset of `o[i].byte[k]` (R84). -/
def octAddr (i : OReg) (k : Nat) : Nat := 0x10000 + 0x1000 * i.val + k

/-- `OCT_CAP(i)` (R14). -/
def octCap (s : State) (i : OReg) : Nat := (s.params.octCap[i]).val

/-- `o[i].byte[k]` (R34). -/
def octByte (s : State) (i : OReg) (k : Nat) : Byte := Memory.read s.mem (octAddr i k)

/-- `o[i].str`, the bytes 0 .. len-1 (R23, R34). -/
def octStr (s : State) (i : OReg) : List Byte := (List.range s.octLen[i]).map (octByte s i)

/-- The bytes written from position `pos` and the length set, with no capacity policy. -/
def putOctet (s : State) (i : OReg) (pos : Nat) (bytes : List Byte) (len : Nat) : State :=
  { s with mem := Memory.write s.mem (octAddr i pos) bytes, octLen := s.octLen.set i len }

/-- OctStore (R143): the string written from `pos` and the length made `pos + |s|`, under CTRL.CAPPOL. -/
def octStore (s : State) (i : OReg) (pos : Nat) (bytes : List Byte) : Except FaultCode State :=
  if pos + bytes.length ≤ octCap s i then
    .ok (putOctet s i pos bytes (pos + bytes.length))
  else
    match s.cappol with
    | .fault => .error .octCapacity
    | .truncate => .ok (putOctet s i pos (bytes.take (octCap s i - pos)) (octCap s i))

/-! ## Wide registers (R23, R30) -/

/-- `b[i]` (R30). -/
def reg (s : State) (i : BReg) : WideReg := s.regs[i]

/-- `b[i] <- r` (R23). -/
def setReg (s : State) (i : BReg) (r : WideReg) : State := { s with regs := s.regs.set i r }

/-- The value of a record as an integer (R30); an unwritten register has none, and no command reads it (R282). -/
def WideReg.val (r : WideReg) : Int :=
  match r with
  | .unwritten => 0
  | .normal _ v => v
  | .denormal _ v => v

/-- The value of a normalized record (R30); no command that calls it reads another (R282). -/
def WideReg.nat (r : WideReg) : Nat :=
  match r with
  | .unwritten => 0
  | .normal _ v => v
  | .denormal _ _ => 0

/-- The tag of a written record (R30). -/
def WideReg.tag (r : WideReg) : Option Width :=
  match r with
  | .unwritten => none
  | .normal t _ => some t
  | .denormal t _ => some t

/-- The norm flag of a record (R30); an unwritten register has norm 0 (R50). -/
def WideReg.norm (r : WideReg) : Bool :=
  match r with
  | .unwritten => false
  | .normal _ _ => true
  | .denormal _ _ => false

/-! ## Fault entry, completion, clearing (R284, R286, R288) -/

/-- Fault entry (R284): FAULT, FCODE and FAULTCMD written, DONE and BUSY cleared, scratch zeroed; nothing else changes. `s` is
the state before the command, but for the draws it made (R285). With no command in flight FAULTCMD keeps its value (log 10). -/
def raise (code : FaultCode) (s : State) : State :=
  { s with
    status := { s.status with fault := true, fcode := code, done := false }
    faultCmd := s.cmd.getD s.faultCmd
    cmd := none
    scratch := Scratch.cleared }

/-- Completion (R286): DONE set, BUSY cleared, scratch zeroed. -/
def complete (s : State) : State :=
  { s with
    status := { s.status with done := true }
    cmd := none
    scratch := Scratch.cleared }

/-- Clearing a fault, the "trap return" (R288): FAULT and FCODE cleared, nothing else changes. -/
def clearFault (s : State) : State :=
  { s with status := { s.status with fault := false, fcode := .none } }

/-- The end of a command that draws nothing: its writes are committed, or it faults and they are discarded (R24, R284, R286). -/
def commit (s : State) (body : Except FaultCode State) : Out :=
  match body with
  | .ok t => .next (complete t)
  | .error code => .next (raise code s)

/-- The end of a command that may draw: as `commit`, and the draws it made stay made either way (R285). -/
def commitDrawn (s : State) (body : Except FaultCode State × RngPort) : Out :=
  match body.1 with
  | .ok t => .next (complete { t with rng := body.2 })
  | .error code => .next (raise code { s with rng := body.2 })

/-- A fault unless the condition holds. -/
def require (cond : Bool) (code : FaultCode) : Except FaultCode Unit :=
  if cond then .ok () else .error code

/-! ## The RNG port (R18, R273, R274) -/

/-- What DrawRngFail answers at the n-th draw (R18 (c), R273): whether the RNG reports failure. -/
def RngPort.failAt (r : RngPort) (n : Nat) : Bool := (r.failAnswers.lookup n).getD (Config.drawRngFail n)

/-- What DrawRand answers at the n-th draw (R18 (a), R177): an integer in [0, bound), for a bound of at least 1. -/
def RngPort.randAt (r : RngPort) (n : Nat) (w : Width) (bound : Nat) : Nat :=
  (r.randAnswers.lookup n).getD (Config.drawRand n w bound) % bound

/-- What DrawPrime answers at the n-th draw (R18 (b), R178): the verdict on `v` at width `w`. -/
def RngPort.primeAt (r : RngPort) (n : Nat) (w : Width) (v : Nat) : Bool :=
  (r.primeAnswers.lookup (n, w, v)).getD (Config.drawPrime n w v)

/-- The port after one draw. -/
def RngPort.advance (r : RngPort) : RngPort := { r with drawn := r.drawn + 1 }

/-- One DrawRngFail draw. -/
def drawRngFail (r : RngPort) : Bool × RngPort := (r.failAt r.drawn, r.advance)

/-- One DrawPrime draw. -/
def drawPrime (r : RngPort) (w : Width) (v : Nat) : Bool × RngPort := (r.primeAt r.drawn w v, r.advance)

/-- One DrawRand draw. -/
def drawRand (r : RngPort) (w : Width) (bound : Nat) : Nat × RngPort := (r.randAt r.drawn w bound, r.advance)

/-- A seed or destroy call at the port (R270, R272). -/
def RngPort.call (r : RngPort) (c : RngCall) : RngPort := { r with calls := r.calls ++ [c] }

/-! ## Command acceptance and reset (R43, R320) -/

/-- Acceptance of a command word (R43): latched, BUSY set, DONE cleared. -/
def accept (w : Word) (s : State) : State :=
  { s with cmd := some w, status := { s.status with done := false } }

/-- The platform's reset (R320, R321): every piece of state at its reset value, the command in flight and the stalled host
accesses dropped. The parameters (R321), the external RNG (R58), and the host's own past and future stay (log 13). -/
def platformReset (s : State) : State :=
  { State.reset with params := s.params, rng := s.rng, inputs := s.inputs, replies := s.replies }

end Sys2Proof.Machine
end

