-- ==== Sys2Proof/Machine/Operands.lean ====
section
/-! DEFINITION. Operands: the operand check (R282), octet strings as numbers (R22, R89), widths (R171). -/

namespace Sys2Proof.Machine

/-- One entry of `Check` (R282): the register, the tag it must have, and whether it must be normalized. -/
structure Operand where
  reg : BReg
  width : Width
  normalized : Bool
  deriving DecidableEq, Repr

/-- The entry (x, W, 1). -/
def normalAt (x : BReg) (w : Width) : Operand := ⟨x, w, true⟩

/-- The entry (x, W, *). -/
def anyAt (x : BReg) (w : Width) : Operand := ⟨x, w, false⟩

/-- Check (R282), by category: every entry written, then every tag, then every normalization. -/
def check (s : State) (es : List Operand) : Except FaultCode Unit :=
  if es.any (fun e => (reg s e.reg).tag == none) then .error .regUnwritten
  else if es.any (fun e => (reg s e.reg).tag != some e.width) then .error .widthMismatch
  else if es.any (fun e => e.normalized && !(reg s e.reg).norm) then .error .denorm
  else .ok ()

/-- `b[i].val` of a register that need not be normalized. -/
def regVal (s : State) (i : BReg) : Int := (reg s i).val

/-- `b[i].val` of a register checked to be normalized. -/
def regNat (s : State) (i : BReg) : Nat := (reg s i).nat

/-- BE (R22): the big-endian value of a byte string. -/
def bigEndian (bytes : List Byte) : Nat := bytes.foldl (fun acc b => acc * 256 + b.toNat) 0

/-- `be` (R22): the n-byte big-endian string of `v` (of `v mod 256^n`, where `v` is too large for n bytes). -/
def toBigEndian (n v : Nat) : List Byte :=
  match n with
  | 0 => []
  | k + 1 => BitVec.ofNat 8 (v / 256 ^ k) :: toBigEndian k v

/-- The double width of a product (R171). The family has no double of 8192 (C4); BN.MUL and BN.SQR reject it first (R120). -/
def doubleWidth (w : Width) : Width :=
  match w with
  | .w2048 => .w4096
  | .w4096 => .w8192
  | .w8192 => .w8192

/-- The zero bytes `zeros(k)` (R22). -/
def zeroBytes (k : Nat) : List Byte := List.replicate k 0

end Sys2Proof.Machine
end

