-- ==== Sys2Proof/Machine/Flags.lean ====
section
/-! DEFINITION. STATUS results and the register words the host reads: CMP, EQ, PRIME (R52 to R54), STATUS (R44), KEYSTAT (R48),
OCTLEN (R49), REGINFO (R50), OCTCAP (R51), CTRL (R47), the fault codes (R281). -/

namespace Sys2Proof.Machine

/-- The FCODE of a fault code (R281). -/
def FaultCode.toByte (c : FaultCode) : Byte :=
  match c with
  | .none => 0x00
  | .illegalCmd => 0x01
  | .regUnwritten => 0x02
  | .widthMismatch => 0x03
  | .denorm => 0x04
  | .divZero => 0x05
  | .noInverse => 0x06
  | .evenModulus => 0x07
  | .boundZero => 0x08
  | .octCapacity => 0x09
  | .octRange => 0x0A
  | .rngUnseeded => 0x0B
  | .rngFail => 0x0C
  | .primeSearchExhausted => 0x0D
  | .noPubkey => 0x0E
  | .noPrivkey => 0x0F
  | .ptRange => 0x10
  | .ctRange => 0x11
  | .rRange => 0x12
  | .keyInvalid => 0x13
  | .ctInvalid => 0x14
  | .regConflict => 0x15

/-- The code of STATUS.CMP (R44). -/
def CmpResult.code (c : CmpResult) : BitVec 2 :=
  match c with
  | .none => 0b00
  | .less => 0b01
  | .equal => 0b10
  | .greater => 0b11

/-- BN.CMP's result (R168). -/
def compareNat (a b : Nat) : CmpResult :=
  if a < b then .less else if a = b then .equal else .greater

/-- The accumulator of OCT.CTEQ (R145): the OR of the XOR differences over the full length. -/
def xorAccumulate (acc : Byte) (xs ys : List Byte) : Byte :=
  match xs, ys with
  | x :: xs', y :: ys' => xorAccumulate (acc ||| (x ^^^ y)) xs' ys'
  | _, _ => acc

/-- OCT.CTEQ's result (R145): unequal lengths at once, else whether the accumulator is 0. -/
def constantTimeEqual (xs ys : List Byte) : Bool :=
  if xs.length = ys.length then xorAccumulate 0 xs ys == 0 else false

/-- STATUS.CMP written (R52). -/
def setCmp (s : State) (c : CmpResult) : State := { s with status := { s.status with cmp := c } }

/-- STATUS.EQ written (R53). -/
def setEq (s : State) (b : Bool) : State := { s with status := { s.status with eq := b } }

/-- STATUS.PRIME written (R54). -/
def setPrime (s : State) (b : Bool) : State := { s with status := { s.status with prime := b } }

/-- STATUS.BERR set (R87, R290). -/
def setBerr (s : State) : State := { s with status := { s.status with berr := true } }

/-- STATUS.BUSY: a command is in flight (R44, R57). -/
def busy (s : State) : Bool := s.cmd.isSome

/-- The STATUS word (R44): reserved 31:16, FCODE 15:8, BERR 7, PRIME 6, EQ 5, CMP 4:3, FAULT 2, DONE 1, BUSY 0. -/
def statusWord (s : State) : Word :=
  0#16 ++ s.status.fcode.toByte ++ BitVec.ofBool s.status.berr ++ BitVec.ofBool s.status.prime ++ BitVec.ofBool s.status.eq
    ++ s.status.cmp.code ++ BitVec.ofBool s.status.fault ++ BitVec.ofBool s.status.done ++ BitVec.ofBool (busy s)

/-- The CTRL word (R47): CAPPOL in bit 0. -/
def ctrlWord (s : State) : Word :=
  match s.cappol with
  | .fault => 0
  | .truncate => 1

/-- The SKK code of a private-key kind (R48). -/
def KeyKind.code (k : KeyKind) : BitVec 2 :=
  match k with
  | .none => 0b00
  | .plain => 0b01
  | .crt => 0b10

/-- The KEYSTAT word (R48): RNGS 3, SKK 2:1, PKV 0. -/
def keystatWord (s : State) : Word :=
  0#28 ++ BitVec.ofBool s.rngs ++ s.sk.kind.code ++ BitVec.ofBool s.pk.valid

/-- The OCTLEN[i] word (R49). -/
def octLenWord (s : State) (i : OReg) : Word := 0#19 ++ BitVec.ofNat 13 s.octLen[i]

/-- The OCTCAP[i] word (R51). -/
def octCapWord (s : State) (i : OReg) : Word := 0#19 ++ BitVec.ofNat 13 (octCap s i)

/-- The 2-bit width code of a tag in REGINFO (R10, R50). -/
def tagCode (w : Width) : BitVec 2 :=
  match w with
  | .w2048 => 0b00
  | .w4096 => 0b01
  | .w8192 => 0b10

/-- The REGINFO[i] word (R50): N 3, WC 2:1, V 0. -/
def regInfoWord (s : State) (i : BReg) : Word :=
  match (reg s i).tag with
  | none => 0
  | some t => 0#28 ++ BitVec.ofBool (reg s i).norm ++ tagCode t ++ 1#1

end Sys2Proof.Machine
end

