-- ==== Sys2Proof/Machine/Bus.lean ====
section
/-! DEFINITION. The host bus: the aperture map and host accesses (20_memory.md, R43 to R51). -/

namespace Sys2Proof.Machine

/-- What an aperture offset names (R84). `data i k` is byte k of window i, whether or not k is below the capacity. -/
inductive Target where
  | cmd
  | status
  | faultCmd
  | ctrl
  | keystat
  | octLen (i : OReg)
  | regInfo (i : BReg)
  | octCap (i : OReg)
  | data (i : OReg) (k : Nat)
  | unmapped
  deriving DecidableEq, Repr

/-- The aperture map (R84). An offset inside a register but not at its first byte names nothing (R85). -/
def target (off : Nat) : Target :=
  if off = 0x00000 then .cmd
  else if off = 0x00004 then .status
  else if off = 0x00008 then .faultCmd
  else if off = 0x0000C then .ctrl
  else if off = 0x00010 then .keystat
  else if 0x00100 ≤ off ∧ off < 0x00140 ∧ off % 4 = 0 then .octLen (Fin.ofNat 16 ((off - 0x00100) / 4))
  else if 0x00200 ≤ off ∧ off < 0x00240 ∧ off % 4 = 0 then .regInfo (Fin.ofNat 16 ((off - 0x00200) / 4))
  else if 0x00300 ≤ off ∧ off < 0x00340 ∧ off % 4 = 0 then .octCap (Fin.ofNat 16 ((off - 0x00300) / 4))
  else if 0x10000 ≤ off ∧ off < 0x20000 then .data (Fin.ofNat 16 ((off - 0x10000) / 0x1000)) (off % 0x1000)
  else .unmapped

/-- A 32-bit access to window byte k of octet i is admitted: aligned, all four bytes below the capacity (R85). -/
def wordAdmitted (s : State) (i : OReg) (k : Nat) : Bool := k % 4 == 0 && k + 4 ≤ octCap s i

/-- The bus word of window bytes k to k+3, little-endian lanes (R86). -/
def laneWord (s : State) (i : OReg) (k : Nat) : Word :=
  octByte s i (k + 3) ++ octByte s i (k + 2) ++ octByte s i (k + 1) ++ octByte s i k

/-- The bytes of a bus word, lane 0 first (R86). -/
def laneBytes (v : Word) : List Byte :=
  [v.extractLsb' 0 8, v.extractLsb' 8 8, v.extractLsb' 16 8, v.extractLsb' 24 8]

/-- What a 32-bit read returns, or none where it is refused (R84, R85, R87). -/
def readWord (s : State) (off : Nat) : Option Word :=
  match target off with
  | .cmd => some 0
  | .status => some (statusWord s)
  | .faultCmd => some s.faultCmd
  | .ctrl => some (ctrlWord s)
  | .keystat => some (keystatWord s)
  | .octLen i => some (octLenWord s i)
  | .regInfo i => some (regInfoWord s i)
  | .octCap i => some (octCapWord s i)
  | .data i k => if wordAdmitted s i k then some (laneWord s i k) else none
  | .unmapped => none

/-- What an 8-bit read returns, or none where it is refused: only a window byte admits one (R85, R88). -/
def readByte (s : State) (off : Nat) : Option Byte :=
  match target off with
  | .data i k => if k < octCap s i then some (octByte s i k) else none
  | _ => none

/-- A write to STATUS (R44): bit 2 clears FAULT and FCODE (R288), bit 7 clears BERR; no other bit has an effect. -/
def writeStatus (v : Word) (s : State) : State :=
  let s1 := if v.getLsbD 2 then clearFault s else s
  if v.getLsbD 7 then { s1 with status := { s1.status with berr := false } } else s1

/-- A 32-bit write, or none where it is refused (R43, R47, R49, R84, R85, R87, R88). -/
def writeWord (v : Word) (s : State) (off : Nat) : Option State :=
  match target off with
  | .cmd => if s.status.fault then none else some (accept v s)
  | .status => some (writeStatus v s)
  | .ctrl => some { s with cappol := if v.getLsbD 0 then .truncate else .fault }
  | .octLen i =>
    if (v.extractLsb' 0 13).toNat ≤ octCap s i then
      some { s with octLen := s.octLen.set i (v.extractLsb' 0 13).toNat }
    else none
  | .data i k =>
    if wordAdmitted s i k then some { s with mem := Memory.write s.mem (octAddr i k) (laneBytes v) } else none
  | .faultCmd => none
  | .keystat => none
  | .regInfo _ => none
  | .octCap _ => none
  | .unmapped => none

/-- An 8-bit write, or none where it is refused (R85, R88). -/
def writeByte (v : Byte) (s : State) (off : Nat) : Option State :=
  match target off with
  | .data i k => if k < octCap s i then some { s with mem := Memory.write s.mem (octAddr i k) [v] } else none
  | _ => none

/-- The data of a completed read handed to the host. -/
def reply (r : Reply) (s : State) : State := { s with replies := s.replies ++ [r] }

/-- A host access taking effect, performed or refused: a refused read returns 0, a refused write changes nothing else, and
either sets BERR (R87). -/
def hostAccess (a : HostAccess) (s : State) : State :=
  match a with
  | .read8 off =>
    match readByte s off.toNat with
    | some v => reply (.byte v) s
    | none => setBerr (reply (.byte 0) s)
  | .read32 off =>
    match readWord s off.toNat with
    | some v => reply (.word v) s
    | none => setBerr (reply (.word 0) s)
  | .write8 off v => (writeByte v s off.toNat).getD (setBerr s)
  | .write32 off v => (writeWord v s off.toNat).getD (setBerr s)

/-- Whether an access can take effect now: always when idle, and a read of STATUS also while a command is pending (R81). -/
def accessEnabled (s : State) (a : HostAccess) : Bool := !busy s || a == .read32 0x00004

/-- The host issues an access: it takes effect at once if it can and none waits before it, else it stalls (R81, R94). -/
def hostIssue (a : HostAccess) (s : State) : State :=
  if s.port.isEmpty && accessEnabled s a then hostAccess a s else { s with port := s.port ++ [a] }

end Sys2Proof.Machine
end

