-- ==== Sys2Proof/Machine/Bni.lean ====
section
/-! DEFINITION. The exact functions behind the commands: the BNI's modular exponentiation and inverses (R21, R160), the
marshaler's Promote and Trunc (R210, R212, R214), the divider (R221). -/

namespace Sys2Proof.Machine

/-! ## Modular exponentiation (BNI pow) -/

/-- Square and multiply from the least significant exponent bit, at most `fuel` bits. -/
def powModLoop (fuel base e m acc : Nat) : Nat :=
  match fuel with
  | 0 => acc
  | k + 1 =>
    if e = 0 then acc
    else powModLoop k (base * base % m) (e / 2) m (if e % 2 = 1 then acc * base % m else acc)

/-- `b^e mod m` (R21, R174), with `b^0 mod m = 1 mod m`. Laws/Bni.lean proves it equal to the formula. -/
def powMod (b e m : Nat) : Nat := powModLoop (e.log2 + 1) (b % m) e m (1 % m)

/-! ## Inverses (BNI inverse-mod, inverse-mod-power-of-two) -/

/-- Extended Euclid: from remainders r0, r1 and the coefficients s0, s1 of `a` in them, the gcd and its coefficient. -/
def euclidLoop (fuel r0 r1 : Nat) (s0 s1 : Int) : Nat × Int :=
  match fuel with
  | 0 => (r0, s0)
  | k + 1 => if r1 = 0 then (r0, s0) else euclidLoop k r1 (r0 % r1) s1 (s0 - (r0 / r1 : Nat) * s1)

/-- `inv(a, m)` (R21, R175): the x in [0, m) with `a·x mod m = 1 mod m`, when gcd(a, m) = 1. Laws/Bni.lean proves it so. -/
def modInv (a m : Nat) : Nat := ((euclidLoop m (a % m) m 1 0).2 % (m : Int)).toNat

/-! ## The width-promotion marshaler (R210, R212, R214) -/

/-- `Promote(v, W1, W2)`: serialize at W1, left-pad with zero bytes to W2, parse (R210). -/
def promote (v : Nat) (w1 w2 : Width) : Nat :=
  bigEndian (zeroBytes (w2.bytes - w1.bytes) ++ toBigEndian w1.bytes v)

/-- `Trunc(v, W2, W1)`: serialize at W2, keep the last W1/8 bytes, parse (R212). -/
def trunc (v : Nat) (w2 w1 : Width) : Nat :=
  bigEndian ((toBigEndian w2.bytes v).drop (w2.bytes - w1.bytes))

/-! ## The long-division unit (R221) -/

/-- Step 3 of DivCore: double the shifted divisor S and the digit T while S is at most R. -/
def shiftUp (fuel r s t : Nat) : Nat × Nat :=
  match fuel with
  | 0 => (s, t)
  | k + 1 => if s ≤ r then shiftUp k r (2 * s) (2 * t) else (s, t)

/-- Steps 2 to 6 of DivCore on remainder r and quotient q: subtract the aligned divisor, add the digit, until r < d. -/
def divLoop (fuel d r q : Nat) : Nat × Nat :=
  match fuel with
  | 0 => (q, r)
  | k + 1 =>
    if d ≤ r then
      divLoop k d (r - (shiftUp (r + 1) r d 1).1 / 2) (q + (shiftUp (r + 1) r d 1).2 / 2)
    else (q, r)

/-- DivCore (R221): quotient and remainder by shift and subtract. The loops are bounded by the dividend, which for a divisor of
at least 1 they never reach (R222); widths do not enter, since S and T fit their guard bit (R223, log 20). -/
def divCore (n d : Nat) : Nat × Nat :=
  if n < d then (0, n) else divLoop (n + 1) d n 0

end Sys2Proof.Machine
end

