-- ==== Sys2Proof/Machine/Divider.lean ====
section
/-! DEFINITION. The long-division unit's command (44_ldiv.md). -/

namespace Sys2Proof.Machine

/-- LD.DIV (R220): the quotient to d and, with RM = 1, the remainder to `rem`. -/
def execLdDiv (d a b : BReg) (rem : Option BReg) (w : Width) (s : State) : Out :=
  commit s (do
    require (rem != some d) .regConflict
    check s [normalAt a w, normalAt b w]
    require (regNat s b != 0) .divZero
    let qr := divCore (regNat s a) (regNat s b)
    match rem with
    | none => pure (setReg s d (.normal w qr.1))
    | some c => pure (setReg (setReg s d (.normal w qr.1)) c (.normal w qr.2)))

end Sys2Proof.Machine
end

