-- ==== Sys2Proof/Machine/Field.lean ====
section
/-! DEFINITION. The bignum interface and field commands (42_bni.md). -/

namespace Sys2Proof.Machine

/-- BN.ZERO (R162). -/
def execBnZero (d : BReg) (w : Width) (s : State) : Out :=
  commit s (.ok (setReg s d (.normal w 0)))

/-- BN.ONE (R163). -/
def execBnOne (d : BReg) (w : Width) (s : State) : Out :=
  commit s (.ok (setReg s d (.normal w 1)))

/-- BN.COPY (R164): the whole record, denormal or not. -/
def execBnCopy (d a : BReg) (w : Width) (s : State) : Out :=
  commit s (do
    check s [anyAt a w]
    pure (setReg s d (reg s a)))

/-- BN.ADD (R165): the exact sum, denormal. -/
def execBnAdd (d a b : BReg) (w : Width) (s : State) : Out :=
  commit s (do
    check s [normalAt a w, normalAt b w]
    pure (setReg s d (.denormal w (regVal s a + regVal s b))))

/-- BN.SUB (R166): the exact difference, denormal. -/
def execBnSub (d a b : BReg) (w : Width) (s : State) : Out :=
  commit s (do
    check s [normalAt a w, normalAt b w]
    pure (setReg s d (.denormal w (regVal s a - regVal s b))))

/-- BN.NORM (R167): the value modulo 2^W. -/
def execBnNorm (d a : BReg) (w : Width) (s : State) : Out :=
  commit s (do
    check s [anyAt a w]
    pure (setReg s d (.normal w (regVal s a % (2 ^ w.bits : Nat)).toNat)))

/-- BN.CMP (R168). -/
def execBnCmp (a b : BReg) (w : Width) (s : State) : Out :=
  commit s (do
    check s [normalAt a w, normalAt b w]
    pure (setCmp s (compareNat (regNat s a) (regNat s b))))

/-- BN.SHLW (R169): left by one BNI word, within the width. -/
def execBnShlw (d a : BReg) (w : Width) (s : State) : Out :=
  commit s (do
    check s [normalAt a w]
    pure (setReg s d (.normal w (regNat s a * 2 ^ s.params.bniWordBits.val % 2 ^ w.bits))))

/-- BN.SHRW (R170): right by one BNI word. -/
def execBnShrw (d a : BReg) (w : Width) (s : State) : Out :=
  commit s (do
    check s [normalAt a w]
    pure (setReg s d (.normal w (regNat s a / 2 ^ s.params.bniWordBits.val))))

/-- BN.MUL (R171): the product at the double width; no 8192-bit form (R120). -/
def execBnMul (d a b : BReg) (w : Width) (s : State) : Out :=
  commit s (do
    require (w != .w8192) .illegalCmd
    check s [normalAt a w, normalAt b w]
    pure (setReg s d (.normal (doubleWidth w) (regNat s a * regNat s b))))

/-- BN.SQR (R172): the square at the double width; no 8192-bit form (R120). -/
def execBnSqr (d a : BReg) (w : Width) (s : State) : Out :=
  commit s (do
    require (w != .w8192) .illegalCmd
    check s [normalAt a w]
    pure (setReg s d (.normal (doubleWidth w) (regNat s a * regNat s a))))

/-- BN.MOD (R173): a double-width dividend modulo a single-width modulus; no 8192-bit form (R120). -/
def execBnMod (d a b : BReg) (w : Width) (s : State) : Out :=
  commit s (do
    require (w != .w8192) .illegalCmd
    check s [normalAt a (doubleWidth w), normalAt b w]
    require (regNat s b != 0) .divZero
    pure (setReg s d (.normal w (regNat s a % regNat s b))))

/-- BN.POW (R174): a to the b modulo an odd c. -/
def execBnPow (d a b c : BReg) (w : Width) (s : State) : Out :=
  commit s (do
    check s [normalAt a w, normalAt b w, normalAt c w]
    require (regNat s c != 0) .divZero
    require (regNat s c % 2 != 0) .evenModulus
    pure (setReg s d (.normal w (powMod (regNat s a) (regNat s b) (regNat s c)))))

/-- BN.INV (R175): the inverse of a modulo b. -/
def execBnInv (d a b : BReg) (w : Width) (s : State) : Out :=
  commit s (do
    check s [normalAt a w, normalAt b w]
    require (regNat s b != 0) .divZero
    require (Nat.gcd (regNat s a) (regNat s b) == 1) .noInverse
    pure (setReg s d (.normal w (modInv (regNat s a) (regNat s b)))))

/-- BN.INV2M (R176): the inverse of an odd a modulo 2^W. -/
def execBnInv2m (d a : BReg) (w : Width) (s : State) : Out :=
  commit s (do
    check s [normalAt a w]
    require (regNat s a % 2 != 0) .noInverse
    pure (setReg s d (.normal w (modInv (regNat s a) (2 ^ w.bits)))))

/-- BN.RAND (R177): a draw in [0, a). -/
def execBnRand (d a : BReg) (w : Width) (s : State) : Out :=
  commitDrawn s (
    match (do
      check s [normalAt a w]
      require s.rngs .rngUnseeded
      require (regNat s a != 0) .boundZero) with
    | .error code => (.error code, s.rng)
    | .ok _ =>
      if (drawRngFail s.rng).1 then (.error .rngFail, (drawRngFail s.rng).2)
      else
        let draw := drawRand (drawRngFail s.rng).2 w (regNat s a)
        (.ok (setReg s d (.normal w draw.1)), draw.2))

/-- BN.PRIME (R178): the oracle's verdict on a. -/
def execBnPrime (a : BReg) (w : Width) (s : State) : Out :=
  commitDrawn s (
    match (do
      check s [normalAt a w]
      require s.rngs .rngUnseeded) with
    | .error code => (.error code, s.rng)
    | .ok _ =>
      if (drawRngFail s.rng).1 then (.error .rngFail, (drawRngFail s.rng).2)
      else
        let draw := drawPrime (drawRngFail s.rng).2 w (regNat s a)
        (.ok (setPrime s draw.1), draw.2))

/-- BN.LOAD (R179): a wide register from an octet of at most W/8 bytes. -/
def execBnLoad (d : BReg) (a : OReg) (w : Width) (s : State) : Out :=
  commit s (do
    require (s.octLen[a] ≤ w.bytes) .octRange
    pure (setReg s d (.normal w (bigEndian (octStr s a)))))

/-- BN.STORE (R180): an octet from a wide register, always W/8 bytes, under the capacity policy. -/
def execBnStore (d : OReg) (a : BReg) (w : Width) (s : State) : Out :=
  commit s (do
    check s [normalAt a w]
    octStore s d 0 (toBigEndian w.bytes (regNat s a)))

end Sys2Proof.Machine
end

