-- ==== Sys2Proof/Machine/Marshal.lean ====
section
/-! DEFINITION. The width-promotion field marshaler's commands (43_marshal.md). -/

namespace Sys2Proof.Machine

/-- The marshaler's own operand check (R210, R212): written, the tag on the right side of the target width, normalized. It
answers the tag. -/
def checkMarshal (s : State) (a : BReg) (direction : Width → Bool) : Except FaultCode Width :=
  match (reg s a).tag with
  | none => .error .regUnwritten
  | some t =>
    if direction t then
      if (reg s a).norm then .ok t else .error .denorm
    else .error .widthMismatch

/-- WP.PROMOTE (R210) to target width w; no 2048-bit target (R120). -/
def execWpPromote (d a : BReg) (w : Width) (s : State) : Out :=
  commit s (do
    require (w != .w2048) .illegalCmd
    let w1 ← checkMarshal s a (fun t => t.bits < w.bits)
    pure (setReg s d (.normal w (promote (regNat s a) w1 w))))

/-- WP.TRUNC (R212) to target width w; no 8192-bit target (R120). -/
def execWpTrunc (d a : BReg) (w : Width) (s : State) : Out :=
  commit s (do
    require (w != .w8192) .illegalCmd
    let w2 ← checkMarshal s a (fun t => w.bits < t.bits)
    pure (setReg s d (.normal w (trunc (regNat s a) w2 w))))

end Sys2Proof.Machine
end

