-- ==== Sys2Proof/Machine/Octet.lean ====
section
/-! DEFINITION. The octet buffer commands (41_octet.md). -/

namespace Sys2Proof.Machine

/-- OCT.ZERO (R140): every byte of the whole capacity 0, length 0. -/
def execOctZero (d : OReg) (s : State) : Out :=
  commit s (.ok (putOctet s d 0 (zeroBytes (octCap s d)) 0))

/-- OCT.COPY (R141). -/
def execOctCopy (d a : OReg) (s : State) : Out :=
  commit s (octStore s d 0 (octStr s a))

/-- OCT.APPEND (R142). -/
def execOctAppend (d a : OReg) (s : State) : Out :=
  commit s (octStore s d s.octLen[d] (octStr s a))

/-- OCT.PAD (R144): left-pad with zero bytes to `len`, under either capacity policy (C5). -/
def execOctPad (d : OReg) (len : BitVec 16) (s : State) : Out :=
  commit s (do
    require (s.octLen[d] ≤ len.toNat && len.toNat ≤ octCap s d) .octRange
    pure (putOctet s d 0 (zeroBytes (len.toNat - s.octLen[d]) ++ octStr s d) len.toNat))

/-- OCT.TAIL (R146): the last `len` bytes of the source. -/
def execOctTail (d a : OReg) (len : BitVec 16) (s : State) : Out :=
  commit s (do
    require (len.toNat ≤ s.octLen[a]) .octRange
    octStore s d 0 ((octStr s a).drop (s.octLen[a] - len.toNat)))

/-- OCT.CTEQ (R145). -/
def execOctCteq (a b : OReg) (s : State) : Out :=
  commit s (.ok (setEq s (constantTimeEqual (octStr s a) (octStr s b))))

end Sys2Proof.Machine
end

