-- ==== Sys2Proof/Machine/Paillier.lean ====
section
/-! DEFINITION. The Paillier commands (45_paillier.md). -/

namespace Sys2Proof.Machine

/-! ## Keys (R230 to R234) -/

/-- PlainPK (R233). -/
def plainPk (n : Nat) : PubKey where
  valid := true
  n := n
  g := n + 1
  n2 := n * n

/-- PlainSK (R233). -/
def plainSk (n lam mu : Nat) : PrivKey :=
  { PrivKey.reset with kind := .plain, n := n, g := n + 1, l := lam, m := mu, n2 := n * n }

/-- `(-x) mod m` (R21) for m at least 1. -/
def negMod (x m : Nat) : Nat := (-(x : Int) % (m : Int)).toNat

/-- CrtSK (R234). -/
def crtSk (p q : Nat) : PrivKey :=
  { PrivKey.reset with
    kind := .crt, p := p, q := q, lp := p - 1, lq := q - 1, p2 := p * p, q2 := q * q
    mp := negMod (modInv q p) p
    mq := negMod (modInv p q) q
    invp := modInv p (2 ^ 2048)
    invq := modInv q (2 ^ 2048)
    invpq := modInv p q }

/-- `bitlen` (R21). -/
def bitLen (v : Nat) : Nat := if v = 0 then 0 else v.log2 + 1

/-- SuppliedCheck (R232). -/
def suppliedCheck (p q : Nat) : Except FaultCode Unit := do
  require (bitLen p == primeBits && bitLen q == primeBits) .keyInvalid
  require (p % 2 != 0 && q % 2 != 0) .keyInvalid
  require (p != q) .keyInvalid

/-- The candidate loop of PrimeSearch (R231): at most `tries` candidates from c, in steps of 4, below 2^1024. -/
def primeSearchLoop (tries c : Nat) (r : RngPort) : Except FaultCode Nat × RngPort :=
  match tries with
  | 0 => (.error .primeSearchExhausted, r)
  | k + 1 =>
    if 2 ^ primeBits ≤ c then (.error .primeSearchExhausted, r)
    else if (drawRngFail r).1 then (.error .rngFail, (drawRngFail r).2)
    else
      let verdict := drawPrime (drawRngFail r).2 .w2048 c
      if verdict.1 then (.ok c, verdict.2) else primeSearchLoop k (c + 4) verdict.2

/-- The first candidate of PrimeSearch from a draw x (R231): top bit set, then raised to 3 modulo 4. -/
def firstCandidate (x : Nat) : Nat :=
  let c := x + 2 ^ (primeBits - 1)
  c + (3 - c % 4) % 4

/-- PrimeSearch (R231). -/
def primeSearch (limit : Nat) (r : RngPort) : Except FaultCode Nat × RngPort :=
  if (drawRngFail r).1 then (.error .rngFail, (drawRngFail r).2)
  else
    let draw := drawRand (drawRngFail r).2 .w2048 (2 ^ (primeBits - 1))
    primeSearchLoop limit (firstCandidate draw.1) draw.2

/-- The keys of PL.KEYGEN from its primes (R230, R233, R234), or KEY_INVALID. -/
def keysFromPrimes (scheme : Scheme) (p q : Nat) : Except FaultCode (PubKey × PrivKey) := do
  require (Nat.gcd ((p - 1) * (q - 1)) (p * q) == 1) .keyInvalid
  match scheme with
  | .plain =>
    pure (plainPk (p * q), plainSk (p * q) ((p - 1) * (q - 1)) (modInv ((p - 1) * (q - 1)) (p * q)))
  | .crt =>
    require (Nat.gcd p q == 1) .keyInvalid
    pure (plainPk (p * q), crtSk p q)

/-- PK and SK written together (R230). -/
def setKeys (s : State) (keys : PubKey × PrivKey) : State := { s with pk := keys.1, sk := keys.2 }

/-- The end of PL.KEYGEN on given primes. -/
def keygenFrom (scheme : Scheme) (p q : Nat) (s : State) : Except FaultCode State := do
  let keys ← keysFromPrimes scheme p q
  pure (setKeys s keys)

/-- The two prime searches of PL.KEYGEN with M = 0 (R230): p first, then q, then p = q rejected. -/
def drawPrimes (limit : Nat) (r : RngPort) : Except FaultCode (Nat × Nat) × RngPort :=
  match primeSearch limit r with
  | (.error code, r1) => (.error code, r1)
  | (.ok p, r1) =>
    match primeSearch limit r1 with
    | (.error code, r2) => (.error code, r2)
    | (.ok q, r2) => if p = q then (.error .keyInvalid, r2) else (.ok (p, q), r2)

/-- PL.KEYGEN (R230). -/
def execPlKeygen (scheme : Scheme) (primes : Option (BReg × BReg)) (s : State) : Out :=
  match primes with
  | some (a, b) =>
    commit s (do
      check s [normalAt a .w2048, normalAt b .w2048]
      suppliedCheck (regNat s a) (regNat s b)
      keygenFrom scheme (regNat s a) (regNat s b) s)
  | none =>
    commitDrawn s (
      if s.rngs then
        match drawPrimes s.params.primeSearchMax.val s.rng with
        | (.error code, r) => (.error code, r)
        | (.ok pq, r) => (keygenFrom scheme pq.1 pq.2 s, r)
      else (.error .rngUnseeded, s.rng))

/-! ## Key management (R238, R239, R241) -/

/-- PL.PKLOAD (R238). -/
def execPlPkload (a : BReg) (s : State) : Out :=
  commit s (do
    check s [normalAt a .w2048]
    require (3 ≤ regNat s a && regNat s a % 2 != 0) .keyInvalid
    pure { s with pk := plainPk (regNat s a) })

/-- The public-key field FIELD names (R239). -/
def pkField (k : PubKey) (field : PkField) : Nat :=
  match field with
  | .n => k.n
  | .g => k.g
  | .n2 => k.n2

/-- PL.KEYRD (R239). -/
def execPlKeyrd (d : BReg) (field : PkField) (s : State) : Out :=
  commit s (do
    require s.pk.valid .noPubkey
    pure (setReg s d (.normal .w4096 (pkField s.pk field))))

/-- PL.SKKILL (R241): SK.kind NONE, every SK field 0. -/
def execPlSkkill (s : State) : Out :=
  commit s (.ok { s with sk := PrivKey.reset })

/-! ## Encryption (R242) -/

/-- The ciphertext of m under randomness r (R242): (1 + m·n mod n²)·(r^n mod n²) mod n². -/
def encryptValue (n n2 m r : Nat) : Nat :=
  ((1 + m * n % n2) % n2) * powMod r n n2 % n2

/-- The operand entries of PL.ENC: the plaintext, and r where it is supplied (R242). -/
def encOperands (a : BReg) (r : Option BReg) : List Operand :=
  match r with
  | none => [normalAt a .w2048]
  | some b => [normalAt a .w2048, normalAt b .w2048]

/-- PL.ENC's writes: the ciphertext to d and, with EM = 1, r to `emit` (R242). -/
def encWrites (s : State) (d : BReg) (emit : Option BReg) (ct r : Nat) : State :=
  match emit with
  | none => setReg s d (.normal .w4096 ct)
  | some c => setReg (setReg s d (.normal .w4096 ct)) c (.normal .w2048 r)

/-- PL.ENC (R242). -/
def execPlEnc (d a : BReg) (r emit : Option BReg) (s : State) : Out :=
  commitDrawn s (
    match (do
      require (emit != some d) .regConflict
      check s (encOperands a r)
      require s.pk.valid .noPubkey
      require (r.isSome || s.rngs) .rngUnseeded
      require (regNat s a < s.pk.n) .ptRange) with
    | .error code => (.error code, s.rng)
    | .ok _ =>
      match r with
      | some b =>
        if regNat s b < s.pk.n then
          (.ok (encWrites s d emit (encryptValue s.pk.n s.pk.n2 (regNat s a) (regNat s b)) (regNat s b)), s.rng)
        else (.error .rRange, s.rng)
      | none =>
        if (drawRngFail s.rng).1 then (.error .rngFail, (drawRngFail s.rng).2)
        else
          let draw := drawRand (drawRngFail s.rng).2 .w2048 s.pk.n
          (.ok (encWrites s d emit (encryptValue s.pk.n s.pk.n2 (regNat s a) draw.1) draw.1), draw.2))

/-! ## Decryption (R244 to R246) -/

/-- DecPlain (R245). -/
def decPlain (k : PrivKey) (c : Nat) : Except FaultCode Nat :=
  let x := powMod c k.l k.n2
  if x = 0 then .error .ctInvalid
  else .ok ((divCore (x - 1) k.n).1 * k.m % k.n)

/-- One prime's half of DecCrt (R246), for P, P², λP, P⁻¹ mod 2^2048, μP. -/
def decHalf (p p2 lp invp mup c : Nat) : Except FaultCode Nat :=
  let x := powMod (c % p2) lp p2
  if x = 0 then .error .ctInvalid
  else .ok (trunc ((x - 1) * invp) .w4096 .w2048 * mup % p)

/-- The Garner combination of DecCrt (R246): mp + p·(((mq - mp)·invpq) mod q). -/
def garner (p q invpq mp mq : Nat) : Nat :=
  mp + p * ((((mq : Int) - (mp : Int)) * (invpq : Int)) % (q : Int)).toNat

/-- DecCrt (R246), p first. -/
def decCrt (k : PrivKey) (c : Nat) : Except FaultCode Nat := do
  let mp ← decHalf k.p k.p2 k.lp k.invp k.mp c
  let mq ← decHalf k.q k.q2 k.lq k.invq k.mq c
  pure (garner k.p k.q k.invpq mp mq)

/-- N2 of PL.DEC (R244): the square of the private key's modulus. -/
def skModulusSquared (k : PrivKey) : Nat :=
  match k.kind with
  | .crt => k.p2 * k.q2
  | .plain => k.n2
  | .none => k.n2

/-- Decryption by the private key's variant (R244); with no key, NO_PRIVKEY. -/
def decryptValue (k : PrivKey) (c : Nat) : Except FaultCode Nat :=
  match k.kind with
  | .none => .error .noPrivkey
  | .plain => decPlain k c
  | .crt => decCrt k c

/-- PL.DEC (R244). -/
def execPlDec (d a : BReg) (s : State) : Out :=
  commit s (do
    check s [normalAt a .w4096]
    require (s.sk.kind != .none) .noPrivkey
    require (regNat s a < skModulusSquared s.sk) .ctRange
    let m ← decryptValue s.sk (regNat s a)
    pure (setReg s d (.normal .w2048 (trunc m .w4096 .w2048))))

/-! ## Homomorphic operations (R248, R249) -/

/-- PL.ADD (R248). -/
def execPlAdd (d a b : BReg) (s : State) : Out :=
  commit s (do
    check s [normalAt a .w4096, normalAt b .w4096]
    require s.pk.valid .noPubkey
    require (regNat s a < s.pk.n2 && regNat s b < s.pk.n2) .ctRange
    pure (setReg s d (.normal .w4096 (regNat s a * regNat s b % s.pk.n2))))

/-- PL.MUL (R249). -/
def execPlMul (d a b : BReg) (s : State) : Out :=
  commit s (do
    check s [normalAt a .w4096, normalAt b .w2048]
    require s.pk.valid .noPubkey
    require (regNat s a < s.pk.n2) .ctRange
    require (regNat s b < s.pk.n) .ptRange
    pure (setReg s d (.normal .w4096 (powMod (regNat s a) (promote (regNat s b) .w2048 .w4096) s.pk.n2))))

end Sys2Proof.Machine
end

