-- ==== Sys2Proof/Machine/Rng.lean ====
section
/-! DEFINITION. The RNG port commands (46_rng.md). -/

namespace Sys2Proof.Machine

/-- RN.SEED (R270): the octet's string sent to the external source, RNGS set; the octet stays (R271). -/
def execRnSeed (a : OReg) (s : State) : Out :=
  commit s (do
    require (s.octLen[a] != 0) .octRange
    pure { s with rng := s.rng.call (.seed (octStr s a)), rngs := true })

/-- RN.KILL (R272): the external source destroyed, RNGS cleared. -/
def execRnKill (s : State) : Out :=
  commit s (.ok { s with rng := s.rng.call .destroy, rngs := false })

end Sys2Proof.Machine
end

