-- ==== Sys2Proof/Machine/Dispatch.lean ====
section
/-! DEFINITION. The engine's dispatch: one arm per command, one call of its meaning. -/

namespace Sys2Proof.Machine

def exec (i : Instr) (s : State) : Host.Outcome State Fault Refusal :=
  match i with
  | .octZero d => Sys2Proof.Machine.execOctZero d s
  | .octCopy d a => Sys2Proof.Machine.execOctCopy d a s
  | .octAppend d a => Sys2Proof.Machine.execOctAppend d a s
  | .octPad d len => Sys2Proof.Machine.execOctPad d len s
  | .octTail d a len => Sys2Proof.Machine.execOctTail d a len s
  | .octCteq a b => Sys2Proof.Machine.execOctCteq a b s
  | .bnZero d w => Sys2Proof.Machine.execBnZero d w s
  | .bnOne d w => Sys2Proof.Machine.execBnOne d w s
  | .bnCopy d a w => Sys2Proof.Machine.execBnCopy d a w s
  | .bnAdd d a b w => Sys2Proof.Machine.execBnAdd d a b w s
  | .bnSub d a b w => Sys2Proof.Machine.execBnSub d a b w s
  | .bnNorm d a w => Sys2Proof.Machine.execBnNorm d a w s
  | .bnCmp a b w => Sys2Proof.Machine.execBnCmp a b w s
  | .bnShlw d a w => Sys2Proof.Machine.execBnShlw d a w s
  | .bnShrw d a w => Sys2Proof.Machine.execBnShrw d a w s
  | .bnMul d a b w => Sys2Proof.Machine.execBnMul d a b w s
  | .bnSqr d a w => Sys2Proof.Machine.execBnSqr d a w s
  | .bnMod d a b w => Sys2Proof.Machine.execBnMod d a b w s
  | .bnPow d a b c w => Sys2Proof.Machine.execBnPow d a b c w s
  | .bnInv d a b w => Sys2Proof.Machine.execBnInv d a b w s
  | .bnInv2m d a w => Sys2Proof.Machine.execBnInv2m d a w s
  | .bnRand d a w => Sys2Proof.Machine.execBnRand d a w s
  | .bnPrime a w => Sys2Proof.Machine.execBnPrime a w s
  | .bnLoad d a w => Sys2Proof.Machine.execBnLoad d a w s
  | .bnStore d a w => Sys2Proof.Machine.execBnStore d a w s
  | .wpPromote d a w => Sys2Proof.Machine.execWpPromote d a w s
  | .wpTrunc d a w => Sys2Proof.Machine.execWpTrunc d a w s
  | .ldDiv d a b rem w => Sys2Proof.Machine.execLdDiv d a b rem w s
  | .plKeygen scheme primes => Sys2Proof.Machine.execPlKeygen scheme primes s
  | .plPkload a => Sys2Proof.Machine.execPlPkload a s
  | .plKeyrd d field => Sys2Proof.Machine.execPlKeyrd d field s
  | .plSkkill => Sys2Proof.Machine.execPlSkkill s
  | .plEnc d a r emit => Sys2Proof.Machine.execPlEnc d a r emit s
  | .plDec d a => Sys2Proof.Machine.execPlDec d a s
  | .plAdd d a b => Sys2Proof.Machine.execPlAdd d a b s
  | .plMul d a b => Sys2Proof.Machine.execPlMul d a b s
  | .rnSeed a => Sys2Proof.Machine.execRnSeed a s
  | .rnKill => Sys2Proof.Machine.execRnKill s

end Sys2Proof.Machine
end

