-- ==== Sys2Proof/Machine/Engine.lean ====
section
/-! DEFINITION. One step of the block: the engine's command step, host accesses and reset (R57, R80, R81, R82, R320). -/

namespace Sys2Proof.Machine

/-- A command word executed: its command, or ILLEGAL_CMD (R122, R280). -/
def runCommand (w : Word) (s : State) : Out :=
  match decode w with
  | .ok i => exec i s
  | .error _ => .next (raise .illegalCmd s)

/-- The engine's turn: the pending command ends in one atomic step (R80, R82); with none, nothing happens (R299). -/
def engineStep (s : State) : Out :=
  match s.cmd with
  | some w => runCommand w s
  | none => .next s

/-- The block goes on with nothing new at its pins: the oldest waiting access takes effect if it can, else the engine has its
turn (R81, R94; log 7). -/
def blockStep (s : State) : Out :=
  match s.port with
  | [] => engineStep s
  | a :: rest => if accessEnabled s a then .next (hostAccess a { s with port := rest }) else engineStep s

/-- What the next input does: reset (R320), an access issued, or nothing new (log 6). -/
def inputStep (s : State) : Out :=
  match s.inputs with
  | [] => blockStep s
  | .quiet :: rest => blockStep { s with inputs := rest }
  | .issue a :: rest => .next (hostIssue a { s with inputs := rest })
  | .reset :: rest => .next (platformReset { s with inputs := rest })

/-- `s` with a command word accepted and nothing at the block's pins, so that the next step is the engine's on that word: the
host's CMD write (R43) that brings a command into the block (log 8). -/
def withCommand (w : Word) (s : State) : State := { accept w s with inputs := [], port := [] }

end Sys2Proof.Machine
end

