-- ==== Sys2Proof/Safety.lean ====
section
/-! DEFINITION. The vocabulary of the claims: how a command ends (R284, R286), what it may write, which words are illegal
(R118 to R121), which offsets are mapped (R84, R85), the invariants of the state, the named oracle properties (R182). -/

namespace Sys2Proof.Machine

/-! ## How a command ends -/

/-- The state R286 leaves when a command has made `t` of the state: DONE set, BUSY cleared, scratch zeroed. -/
def afterCompletion (t : State) : State :=
  { t with status := { t.status with done := true }, cmd := none, scratch := Scratch.cleared }

/-- The state R284 leaves when the command word `cw` faults with `code` in `s`; `s` holds the draws made so far (R285). -/
def afterFault (cw : Word) (code : FaultCode) (s : State) : State :=
  { s with
    status := { s.status with fault := true, fcode := code, done := false }
    faultCmd := cw
    cmd := none
    scratch := Scratch.cleared }

/-- The command faults with `code`, having made no draw: R284 for whatever word is in flight. -/
def FaultsWith (i : Instr) (s : State) (code : FaultCode) : Prop :=
  ∀ cw, s.cmd = some cw → exec i s = .next (afterFault cw code s)

/-- The port after `n` more draws. -/
def RngPort.afterDraws (r : RngPort) (n : Nat) : RngPort := { r with drawn := r.drawn + n }

/-- The command faults with `code` after `n` draws, which stay made (R285). -/
def FaultsAfterDraws (i : Instr) (s : State) (n : Nat) (code : FaultCode) : Prop :=
  ∀ cw, s.cmd = some cw →
    exec i s = .next (afterFault cw code
      { s with rng := s.rng.afterDraws n })

/-- `t` is `s` after a completed command that wrote `bytes` into octet `i` from position `pos`, made its length `len`, and
wrote nothing else. -/
def StoredOctet (s : State) (i : OReg) (pos : Nat) (bytes : List Byte) (len : Nat) (t : State) : Prop :=
  t = afterCompletion { s with octLen := s.octLen.set i len, mem := t.mem } ∧
  (∀ k (h : k < bytes.length), octByte t i (pos + k) = bytes[k]) ∧
  ∀ a, (a < octAddr i pos ∨ octAddr i pos + bytes.length ≤ a) → Memory.read t.mem a = Memory.read s.mem a

/-! ## What a command may write -/

/-- The wide registers a command may write (R162 to R179, R210, R212, R220, R239, R242, R244, R248, R249). -/
def destRegs (i : Instr) : List BReg :=
  match i with
  | .bnZero d _ => [d]
  | .bnOne d _ => [d]
  | .bnCopy d _ _ => [d]
  | .bnAdd d _ _ _ => [d]
  | .bnSub d _ _ _ => [d]
  | .bnNorm d _ _ => [d]
  | .bnShlw d _ _ => [d]
  | .bnShrw d _ _ => [d]
  | .bnMul d _ _ _ => [d]
  | .bnSqr d _ _ => [d]
  | .bnMod d _ _ _ => [d]
  | .bnPow d _ _ _ _ => [d]
  | .bnInv d _ _ _ => [d]
  | .bnInv2m d _ _ => [d]
  | .bnRand d _ _ => [d]
  | .bnLoad d _ _ => [d]
  | .wpPromote d _ _ => [d]
  | .wpTrunc d _ _ => [d]
  | .ldDiv d _ _ rem _ => d :: rem.toList
  | .plKeyrd d _ => [d]
  | .plEnc d _ _ emit => d :: emit.toList
  | .plDec d _ => [d]
  | .plAdd d _ _ => [d]
  | .plMul d _ _ => [d]
  | .octZero _ => []
  | .octCopy _ _ => []
  | .octAppend _ _ => []
  | .octPad _ _ => []
  | .octTail _ _ _ => []
  | .octCteq _ _ => []
  | .bnCmp _ _ _ => []
  | .bnPrime _ _ => []
  | .bnStore _ _ _ => []
  | .plKeygen _ _ => []
  | .plPkload _ => []
  | .plSkkill => []
  | .rnSeed _ => []
  | .rnKill => []

/-- The octets a command may write (R140 to R146, R180). -/
def destOctets (i : Instr) : List OReg :=
  match i with
  | .octZero d => [d]
  | .octCopy d _ => [d]
  | .octAppend d _ => [d]
  | .octPad d _ => [d]
  | .octTail d _ _ => [d]
  | .bnStore d _ _ => [d]
  | .octCteq _ _ => []
  | .bnZero _ _ => []
  | .bnOne _ _ => []
  | .bnCopy _ _ _ => []
  | .bnAdd _ _ _ _ => []
  | .bnSub _ _ _ _ => []
  | .bnNorm _ _ _ => []
  | .bnCmp _ _ _ => []
  | .bnShlw _ _ _ => []
  | .bnShrw _ _ _ => []
  | .bnMul _ _ _ _ => []
  | .bnSqr _ _ _ => []
  | .bnMod _ _ _ _ => []
  | .bnPow _ _ _ _ _ => []
  | .bnInv _ _ _ _ => []
  | .bnInv2m _ _ _ => []
  | .bnRand _ _ _ => []
  | .bnPrime _ _ => []
  | .bnLoad _ _ _ => []
  | .wpPromote _ _ _ => []
  | .wpTrunc _ _ _ => []
  | .ldDiv _ _ _ _ _ => []
  | .plKeygen _ _ => []
  | .plPkload _ => []
  | .plKeyrd _ _ => []
  | .plSkkill => []
  | .plEnc _ _ _ _ => []
  | .plDec _ _ => []
  | .plAdd _ _ _ => []
  | .plMul _ _ _ => []
  | .rnSeed _ => []
  | .rnKill => []

/-- The entries of the operand check `Check` of a command (the `Checks` line of its rule, R282). The marshaler's commands have a
check of their own (R210, R212), and the commands listed last have none. -/
def operandsOf (i : Instr) : List Operand :=
  match i with
  | .bnCopy _ a w => [⟨a, w, false⟩]
  | .bnAdd _ a b w => [⟨a, w, true⟩, ⟨b, w, true⟩]
  | .bnSub _ a b w => [⟨a, w, true⟩, ⟨b, w, true⟩]
  | .bnNorm _ a w => [⟨a, w, false⟩]
  | .bnCmp a b w => [⟨a, w, true⟩, ⟨b, w, true⟩]
  | .bnShlw _ a w => [⟨a, w, true⟩]
  | .bnShrw _ a w => [⟨a, w, true⟩]
  | .bnMul _ a b w => [⟨a, w, true⟩, ⟨b, w, true⟩]
  | .bnSqr _ a w => [⟨a, w, true⟩]
  | .bnMod _ a b w => [⟨a, if w = .w2048 then .w4096 else .w8192, true⟩, ⟨b, w, true⟩]
  | .bnPow _ a b c w => [⟨a, w, true⟩, ⟨b, w, true⟩, ⟨c, w, true⟩]
  | .bnInv _ a b w => [⟨a, w, true⟩, ⟨b, w, true⟩]
  | .bnInv2m _ a w => [⟨a, w, true⟩]
  | .bnRand _ a w => [⟨a, w, true⟩]
  | .bnPrime a w => [⟨a, w, true⟩]
  | .bnStore _ a w => [⟨a, w, true⟩]
  | .ldDiv _ a b _ w => [⟨a, w, true⟩, ⟨b, w, true⟩]
  | .plKeygen _ primes => primes.toList.flatMap (fun ab => [⟨ab.1, .w2048, true⟩, ⟨ab.2, .w2048, true⟩])
  | .plPkload a => [⟨a, .w2048, true⟩]
  | .plEnc _ a r _ => ⟨a, .w2048, true⟩ :: r.toList.map (fun b => ⟨b, .w2048, true⟩)
  | .plDec _ a => [⟨a, .w4096, true⟩]
  | .plAdd _ a b => [⟨a, .w4096, true⟩, ⟨b, .w4096, true⟩]
  | .plMul _ a b => [⟨a, .w4096, true⟩, ⟨b, .w2048, true⟩]
  | .octZero _ => []
  | .octCopy _ _ => []
  | .octAppend _ _ => []
  | .octPad _ _ => []
  | .octTail _ _ _ => []
  | .octCteq _ _ => []
  | .bnZero _ _ => []
  | .bnOne _ _ => []
  | .bnLoad _ _ _ => []
  | .wpPromote _ _ _ => []
  | .wpTrunc _ _ _ => []
  | .plKeyrd _ _ => []
  | .plSkkill => []
  | .rnSeed _ => []
  | .rnKill => []

/-- Two destinations of the command are one register (REG_CONFLICT, R220, R242). -/
def RegConflict (i : Instr) : Prop :=
  match i with
  | .ldDiv d _ _ rem _ => rem = some d
  | .plEnc d _ _ emit => emit = some d
  | _ => False

/-! ## Illegal words (R117 to R121), written from the columns of the opcode map -/

/-- The opcodes of R117. -/
def mappedOpcodes : List (BitVec 8) := [
  0x01, 0x02, 0x03, 0x04, 0x05, 0x06, 0x10, 0x11, 0x12, 0x13, 0x14, 0x15, 0x16, 0x17, 0x18, 0x19, 0x1A, 0x1B, 0x1C, 0x1D,
  0x1E, 0x1F, 0x20, 0x21, 0x22, 0x30, 0x31, 0x38, 0x40, 0x41, 0x42, 0x43, 0x48, 0x49, 0x4A, 0x4B, 0x50, 0x51]

/-- The opcodes whose d column is `0`. -/
def zeroDOpcodes : List (BitVec 8) := [0x06, 0x16, 0x20, 0x40, 0x41, 0x43, 0x50, 0x51]

/-- The opcodes whose a column is `0`, OCT.PAD among them. -/
def zeroAOpcodes : List (BitVec 8) := [0x01, 0x04, 0x10, 0x11, 0x42, 0x43, 0x51]

/-- The opcodes whose b column is `0`. -/
def zeroBOpcodes : List (BitVec 8) := [
  0x01, 0x02, 0x03, 0x10, 0x11, 0x12, 0x15, 0x17, 0x18, 0x1A, 0x1E, 0x1F, 0x20, 0x21, 0x22, 0x30, 0x31, 0x41, 0x42, 0x43,
  0x49, 0x50, 0x51]

/-- The opcodes whose c column is `0`. -/
def zeroCOpcodes : List (BitVec 8) := [
  0x01, 0x02, 0x03, 0x06, 0x10, 0x11, 0x12, 0x13, 0x14, 0x15, 0x16, 0x17, 0x18, 0x19, 0x1A, 0x1B, 0x1D, 0x1E, 0x1F, 0x20,
  0x21, 0x22, 0x30, 0x31, 0x40, 0x41, 0x42, 0x43, 0x49, 0x4A, 0x4B, 0x50, 0x51]

/-- A field marked `0` is nonzero, or an `R?` field is nonzero while its flag is 0 (R119). -/
def BadZeroField (w : Word) : Prop :=
  (Word.op w ∈ zeroDOpcodes ∧ Word.fieldD w ≠ 0) ∨
  (Word.op w ∈ zeroAOpcodes ∧ Word.fieldA w ≠ 0) ∨
  (Word.op w ∈ zeroBOpcodes ∧ Word.fieldB w ≠ 0) ∨
  (Word.op w ∈ zeroCOpcodes ∧ Word.fieldC w ≠ 0) ∨
  (Word.op w = 0x38 ∧ w.getLsbD 0 = false ∧ Word.fieldC w ≠ 0) ∨
  (Word.op w = 0x40 ∧ w.getLsbD 1 = false ∧ (Word.fieldA w ≠ 0 ∨ Word.fieldB w ≠ 0)) ∨
  (Word.op w = 0x48 ∧ w.getLsbD 0 = false ∧ Word.fieldB w ≠ 0) ∨
  (Word.op w = 0x48 ∧ w.getLsbD 1 = false ∧ Word.fieldC w ≠ 0)

/-- The opcodes whose ws column is `00`. -/
def noWidthOpcodes : List (BitVec 8) := [
  0x01, 0x02, 0x03, 0x06, 0x40, 0x41, 0x42, 0x43, 0x48, 0x49, 0x4A, 0x4B, 0x50, 0x51]

/-- The opcodes whose ws column is `any`. -/
def anyWidthOpcodes : List (BitVec 8) := [
  0x10, 0x11, 0x12, 0x13, 0x14, 0x15, 0x16, 0x17, 0x18, 0x1C, 0x1D, 0x1E, 0x1F, 0x20, 0x21, 0x22, 0x38]

/-- The opcodes whose ws column is `00`,`01`. -/
def lowWidthOpcodes : List (BitVec 8) := [0x19, 0x1A, 0x1B, 0x31]

/-- The ws of a format R word is not among those R117 lists for its opcode (R120). -/
def BadWidth (w : Word) : Prop :=
  (Word.op w ∈ noWidthOpcodes ∧ Word.fieldWs w ≠ 0b00) ∨
  (Word.op w ∈ anyWidthOpcodes ∧ Word.fieldWs w = 0b11) ∨
  (Word.op w ∈ lowWidthOpcodes ∧ Word.fieldWs w ≠ 0b00 ∧ Word.fieldWs w ≠ 0b01) ∨
  (Word.op w = 0x30 ∧ Word.fieldWs w ≠ 0b01 ∧ Word.fieldWs w ≠ 0b10)

/-- The f field of a format R word has a bit R115 does not define for its opcode, or PL.KEYRD's FIELD is above 2 (R121). -/
def BadFlags (w : Word) : Prop :=
  (Word.op w ∈ mappedOpcodes ∧ Word.op w ∉ [0x04, 0x05, 0x38, 0x40, 0x42, 0x48] ∧ Word.fieldF w ≠ 0) ∨
  (Word.op w = 0x38 ∧ Word.fieldF w &&& 0b111110 ≠ 0) ∨
  (Word.op w = 0x40 ∧ Word.fieldF w &&& 0b111100 ≠ 0) ∨
  (Word.op w = 0x48 ∧ Word.fieldF w &&& 0b111100 ≠ 0) ∨
  (Word.op w = 0x42 ∧ 2 < (Word.fieldF w).toNat)

/-! ## Mapped offsets (R84, R85) -/

/-- A window byte below its octet's capacity. -/
def WindowByte (s : State) (off : Nat) (i : OReg) (k : Nat) : Prop := off = 0x10000 + 0x1000 * i.val + k ∧ k < octCap s i

/-- A control register offset. -/
def ControlOffset (off : Nat) : Prop :=
  off = 0x00000 ∨ off = 0x00004 ∨ off = 0x00008 ∨ off = 0x0000C ∨ off = 0x00010 ∨
  ∃ i : Fin 16, off = 0x00100 + 4 * i.val ∨ off = 0x00200 + 4 * i.val ∨ off = 0x00300 + 4 * i.val

/-- A read-only control register offset. -/
def ReadOnlyOffset (off : Nat) : Prop :=
  off = 0x00008 ∨ off = 0x00010 ∨ ∃ i : Fin 16, off = 0x00200 + 4 * i.val ∨ off = 0x00300 + 4 * i.val

/-- An offset at which a 32-bit window access is admitted. -/
def WindowWord (s : State) (off : Nat) : Prop :=
  ∃ (i : OReg) (k : Nat), off = 0x10000 + 0x1000 * i.val + k ∧ off % 4 = 0 ∧ k + 3 < octCap s i

/-! ## Invariants -/

/-- A record's value lies within the bounds of R30. -/
def WideReg.ok (r : WideReg) : Prop :=
  match r with
  | .unwritten => True
  | .normal t v => v < 2 ^ t.bits
  | .denormal t v => -(2 ^ t.bits : Int) < v ∧ v < (2 ^ (t.bits + 1) : Int)

/-- Every wide register holds a record of R30. -/
def RegsOk (s : State) : Prop := ∀ i : BReg, (reg s i).ok

/-- Every octet's length is at most its capacity, and the octet memory is canonical and lists window bytes only (R34). -/
def OctetsOk (s : State) : Prop :=
  (∀ i : OReg, s.octLen[i] ≤ octCap s i) ∧ Memory.wf s.mem ∧
  ∀ c ∈ s.mem, ∃ (i : OReg) (k : Nat), k < octCap s i ∧ c.1 = octAddr i k

/-- PK as R37 says while valid, and as reset (R38) while not. -/
def PubKey.ok (k : PubKey) : Prop :=
  if k.valid = true then k.n % 2 = 1 ∧ 3 ≤ k.n ∧ k.n < 2 ^ 2048 ∧ k.g = k.n + 1 ∧ k.n2 = k.n * k.n
  else k = { valid := false, n := 0, g := 0, n2 := 0 }

/-- The private key register set with kind NONE and every field 0 (R41, R241). -/
def NoKey : PrivKey where
  kind := .none
  n := 0
  g := 0
  l := 0
  m := 0
  n2 := 0
  p := 0
  q := 0
  lp := 0
  lq := 0
  p2 := 0
  q2 := 0
  mp := 0
  mq := 0
  invp := 0
  invq := 0
  invpq := 0

/-- The plain private key of modulus n, λ and μ (R233): every CRT field is 0. -/
def PlainKey (n lam mu : Nat) : PrivKey :=
  { PrivKey.reset with kind := .plain, n := n, g := n + 1, l := lam, m := mu, n2 := n * n }

/-- A CRT private key of primes p and q (R234, R236): every plain field is 0, the others are in range and satisfy R236. -/
def CrtKeyFor (p q : Nat) (k : PrivKey) : Prop :=
  k.kind = .crt ∧ k.n = 0 ∧ k.g = 0 ∧ k.l = 0 ∧ k.m = 0 ∧ k.n2 = 0 ∧
  k.p = p ∧ k.q = q ∧ k.lp = p - 1 ∧ k.lq = q - 1 ∧ k.p2 = p * p ∧ k.q2 = q * q ∧
  (k.mp < p ∧ (q * k.mp) % p = p - 1) ∧ (k.mq < q ∧ (p * k.mq) % q = q - 1) ∧
  (k.invp < 2 ^ 2048 ∧ (p * k.invp) % 2 ^ 2048 = 1) ∧ (k.invq < 2 ^ 2048 ∧ (q * k.invq) % 2 ^ 2048 = 1) ∧
  (k.invpq < q ∧ (p * k.invpq) % q = 1)

/-- A 1024-bit odd number (R231, R232). -/
def PrimeSized (p : Nat) : Prop := 2 ^ 1023 ≤ p ∧ p < 2 ^ 1024 ∧ p % 2 = 1

/-- SK as R39 to R41, R233, R234 and R236 say for its kind. -/
def PrivKey.ok (k : PrivKey) : Prop :=
  match k.kind with
  | .none => k = PrivKey.reset
  | .plain =>
    ∃ p q mu, PrimeSized p ∧ PrimeSized q ∧ p ≠ q ∧ mu < p * q ∧ ((p - 1) * (q - 1) * mu) % (p * q) = 1 ∧
      k = PlainKey (p * q) ((p - 1) * (q - 1)) mu
  | .crt => ∃ p q, PrimeSized p ∧ PrimeSized q ∧ p ≠ q ∧ CrtKeyFor p q k

/-- The values and the keys the engine computes with are in range. -/
def ValuesOk (s : State) : Prop := RegsOk s ∧ s.pk.ok ∧ s.sk.ok

/-- FAULT, FCODE, DONE and BUSY agree (R44, R287, R289): a code exactly while FAULT is 1, DONE never with FAULT or BUSY, no
command in flight while FAULT is 1. -/
def StatusOk (s : State) : Prop :=
  (s.status.fault = false ↔ s.status.fcode = .none) ∧
  (s.status.fault = true → s.status.done = false ∧ s.cmd = none) ∧
  (s.status.done = true → s.cmd = none)

/-! ## The prime search (R231) -/

/-- From its first draw on, a prime search meets no failure and rejects its first `k` candidates, the progression of step 4 from
`c`: the least number congruent to 3 modulo 4 from the random part with its top bit set. Each is tested, so below 2^1024. -/
def RejectsCandidates (limit : Nat) (r : RngPort) (c k : Nat) : Prop :=
  r.failAt r.drawn = false ∧
  r.randAt (r.drawn + 1) .w2048 (2 ^ 1023) + 2 ^ 1023 ≤ c ∧ c < r.randAt (r.drawn + 1) .w2048 (2 ^ 1023) + 2 ^ 1023 + 4 ∧
  c % 4 = 3 ∧ k ≤ limit ∧
  ∀ j, j < k → c + 4 * j < 2 ^ 1024 ∧ r.failAt (r.drawn + 2 + 2 * j) = false ∧
    r.primeAt (r.drawn + 3 + 2 * j) .w2048 (c + 4 * j) = false

/-- A prime search of at most `limit` candidates from this port ends with this result after `n` draws: a failure of the source at
the first draw or before a candidate, exhaustion by the limit or at 2^1024, or the first candidate accepted. -/
def SearchEnds (limit : Nat) (r : RngPort) (result : Except FaultCode Nat) (n : Nat) : Prop :=
  (r.failAt r.drawn = true ∧ result = .error .rngFail ∧ n = 1) ∨
  ∃ c k, RejectsCandidates limit r c k ∧
    (((k = limit ∨ 2 ^ 1024 ≤ c + 4 * k) ∧ result = .error .primeSearchExhausted ∧ n = 2 * k + 2) ∨
     (k < limit ∧ c + 4 * k < 2 ^ 1024 ∧ r.failAt (r.drawn + 2 + 2 * k) = true ∧ result = .error .rngFail ∧ n = 2 * k + 3) ∨
     (k < limit ∧ c + 4 * k < 2 ^ 1024 ∧ r.failAt (r.drawn + 2 + 2 * k) = false ∧
       r.primeAt (r.drawn + 3 + 2 * k) .w2048 (c + 4 * k) = true ∧ result = .ok (c + 4 * k) ∧ n = 2 * k + 4))

/-! ## Named properties of the oracles (R182), assumed by no meaning (log 18) -/

/-- PRIME_ORACLE_SOUND of the source behind this port: DrawPrime answers true of primes only, at every draw. -/
def PrimeOracleSound (r : RngPort) : Prop := ∀ n w v, r.primeAt n w v = true → Nat.Prime v

/-- PRIME_ORACLE_COMPLETE of the source behind this port: DrawPrime answers true of every prime, at every draw. -/
def PrimeOracleComplete (r : RngPort) : Prop := ∀ n w v, Nat.Prime v → r.primeAt n w v = true

end Sys2Proof.Machine
end

