-- ==== Sys2Proof/Certificates/Slice0/Obligations.lean ====
section
/-! DEFINITION. The statements about this model, one definition each, listed in OBLIGATIONS.json. -/

open Sys2Proof Sys2Proof.Machine

/-! ## Encoding (30_encoding.md) -/

/-- R110 to R117, R126: the decoder reads back every well-formed command from its word. -/
def Obligations.DecodeOfEncodeIsTheCommand : Prop := ∀ i : Instr, i.wf = true → decode (encode i) = .ok i

/-- R117, R122, R126: a legal word names exactly one command, which is well-formed and whose word it is, so no bit of a legal
word is dropped. -/
def Obligations.EncodeOfDecodeIsTheWord : Prop :=
  ∀ (cw : Word) (i : Instr), decode cw = .ok i → i.wf = true ∧ encode i = cw

/-- R126: ten words of the encoding table of 95_test_vectors.md, one or two a family. -/
def Obligations.SampleWordsDecode : Prop :=
  decode 0x03120000 = .ok (.octAppend 1 2) ∧
  decode 0x05650002 = .ok (.octTail 6 5 2) ∧
  decode 0x19201040 = .ok (.bnMul 2 0 1 .w4096) ∧
  decode 0x1C412300 = .ok (.bnPow 4 1 2 3 .w2048) ∧
  decode 0x30210040 = .ok (.wpPromote 2 1 .w4096) ∧
  decode 0x38423541 = .ok (.ldDiv 4 2 3 (some 5) .w4096) ∧
  decode 0x40001003 = .ok (.plKeygen .crt (some (0, 1))) ∧
  decode 0x48423503 = .ok (.plEnc 4 2 (some 3) (some 5)) ∧
  decode 0x50000000 = .ok (.rnSeed 0) ∧
  decode 0x43000000 = .ok .plSkkill

/-- R118, R119, R120, R121: a word with an opcode outside the map (0x00 among them), a nonzero must-be-zero field, a width code
R117 does not list for the command, an undefined flag bit or a FIELD above 2 faults ILLEGAL_CMD. -/
def Obligations.EveryIllegalWordFaults : Prop :=
  (0x00 : BitVec 8) ∉ mappedOpcodes ∧
  ∀ (cw : Word) (s : State), s.cmd = some cw →
    (Word.op cw ∉ mappedOpcodes ∨ BadZeroField cw ∨ BadWidth cw ∨ BadFlags cw) →
    runCommand cw s = .next (afterFault cw .illegalCmd s)

/-! ## The step, faults and completion (R57, R80 to R82, R280 to R289) -/

/-- R57, R80, R122: with nothing new at the pins and no STATUS read waiting first, a step ends the pending command: it runs the
command its word names, or faults ILLEGAL_CMD. The order of waiting accesses is log 7's, the inputs are log 6's. -/
def Obligations.StepRunsThePendingCommand : Prop :=
  ∀ (s : State) (cw : Word) (rest : List Input), s.cmd = some cw →
    (s.inputs = .quiet :: rest ∨ (s.inputs = [] ∧ rest = [])) →
    s.port.head? ≠ some (.read32 0x00004) →
    (∀ i, decode cw = .ok i → step s = exec i { s with inputs := rest }) ∧
    (∀ e, decode cw = .error e → step s = .next (afterFault cw .illegalCmd { s with inputs := rest }))

/-- R82, R280, R284, R285, R286: every step answers a next state, and a command in flight either completes, with FAULT, FCODE and
FAULTCMD as they were, or faults with one code other than NONE, with nothing changed but STATUS, FAULTCMD and the number of
draws made at the random source. That a step which is not the engine's answers too, an idle step the same state, is the
model's reading: logs 15 and 16. -/
def Obligations.CommandCompletesOrFaultsPrecisely : Prop :=
  (∀ s : State, ∃ t, step s = .next t) ∧
  ∀ (i : Instr) (s : State) (cw : Word), s.cmd = some cw →
    ∃ t, exec i s = .next t ∧ t.cmd = none ∧ t.scratch = Scratch.cleared ∧
      ((t.status.done = true ∧ t.status.fault = s.status.fault ∧ t.status.fcode = s.status.fcode ∧ t.faultCmd = s.faultCmd) ∨
       ∃ code n, code ≠ .none ∧ t = afterFault cw code { s with rng := s.rng.afterDraws n })

/-- R282: the operand check, by category: every source written, then every tag, then every normalization. It writes nothing. -/
def Obligations.OperandCheckReportsByCategory : Prop :=
  ∀ (i : Instr) (s : State), i.wf = true → ¬ RegConflict i →
    ((∃ e ∈ operandsOf i, reg s e.reg = .unwritten) → FaultsWith i s .regUnwritten) ∧
    ((∀ e ∈ operandsOf i, reg s e.reg ≠ .unwritten) →
      (∃ e ∈ operandsOf i, (reg s e.reg).tag ≠ some e.width) → FaultsWith i s .widthMismatch) ∧
    ((∀ e ∈ operandsOf i, (reg s e.reg).tag = some e.width) →
      (∃ e ∈ operandsOf i, e.normalized = true ∧ (reg s e.reg).norm = false) → FaultsWith i s .denorm)

/-! ## Frames -/

/-- R37, R40, R42: SK is written by PL.KEYGEN and PL.SKKILL only, PK by PL.KEYGEN and PL.PKLOAD only, RNGS by RN.SEED and
RN.KILL only; the parameters, CTRL, BERR and the host's lists by no command. -/
def Obligations.KeyStoreChangesOnlyByItsCommands : Prop :=
  ∀ (i : Instr) (s t : State), exec i s = .next t →
    (t.sk = s.sk ∨ i = .plSkkill ∨ ∃ scheme primes, i = .plKeygen scheme primes) ∧
    (t.pk = s.pk ∨ (∃ a, i = .plPkload a) ∨ ∃ scheme primes, i = .plKeygen scheme primes) ∧
    (t.rngs = s.rngs ∨ i = .rnKill ∨ ∃ a, i = .rnSeed a) ∧
    t.params = s.params ∧ t.cappol = s.cappol ∧ t.status.berr = s.status.berr ∧
    t.inputs = s.inputs ∧ t.port = s.port ∧ t.replies = s.replies

/-- R52, R53, R54: CMP is written by BN.CMP only, EQ by OCT.CTEQ only, PRIME by BN.PRIME only, and by no faulting command;
BN.CMP never writes the reset value. -/
def Obligations.ResultFlagsChangeOnlyByTheirCommands : Prop :=
  ∀ (i : Instr) (s t : State), exec i s = .next t →
    (t.status.cmp = s.status.cmp ∨ t.status.done = true ∧ t.status.cmp ≠ .none ∧ ∃ a b w, i = .bnCmp a b w) ∧
    (t.status.eq = s.status.eq ∨ t.status.done = true ∧ ∃ a b, i = .octCteq a b) ∧
    (t.status.prime = s.status.prime ∨ t.status.done = true ∧ ∃ a w, i = .bnPrime a w)

/-- R32, R162 to R249: no command writes a wide register but its destinations. -/
def Obligations.OnlyDestinationRegistersChange : Prop :=
  ∀ (i : Instr) (s t : State), exec i s = .next t → ∀ j, j ∉ destRegs i → reg t j = reg s j

/-- R34, R140 to R146, R180: no command writes an octet's length or a byte of octet memory but its destination's, and every byte
outside the destination's capacity keeps its value. -/
def Obligations.OnlyDestinationOctetChanges : Prop :=
  ∀ (i : Instr) (s t : State), exec i s = .next t →
    (∀ j : OReg, j ∉ destOctets i → t.octLen[j] = s.octLen[j]) ∧
    ∀ a, (∀ d ∈ destOctets i, a < octAddr d 0 ∨ octAddr d 0 + octCap s d ≤ a) → Memory.read t.mem a = Memory.read s.mem a

/-- R32, R40, R58, R93: no host access changes the wide registers, the keys, RNGS, scratch, the random source, FAULTCMD, the
parameters or a result flag; and what an access returns and does is the same for any register values, key values, scratch
and random source, as long as the registers' tags and norms, PK.valid and SK.kind, which REGINFO and KEYSTAT show, are. -/
def Obligations.HostAccessReachesNoSecretState : Prop :=
  ∀ (a : HostAccess) (s : State),
    ((hostAccess a s).regs = s.regs ∧ (hostAccess a s).pk = s.pk ∧ (hostAccess a s).sk = s.sk ∧
      (hostAccess a s).rngs = s.rngs ∧ (hostAccess a s).scratch = s.scratch ∧ (hostAccess a s).rng = s.rng ∧
      (hostAccess a s).faultCmd = s.faultCmd ∧ (hostAccess a s).params = s.params ∧
      (hostAccess a s).status.cmp = s.status.cmp ∧ (hostAccess a s).status.eq = s.status.eq ∧
      (hostAccess a s).status.prime = s.status.prime) ∧
    ∀ (regs : Vector WideReg 16) (pk : PubKey) (sk : PrivKey) (scratch : Scratch) (rng : RngPort),
      (∀ i : BReg, regs[i].tag = (reg s i).tag ∧ regs[i].norm = (reg s i).norm) → pk.valid = s.pk.valid → sk.kind = s.sk.kind →
      hostAccess a { s with regs := regs, pk := pk, sk := sk, scratch := scratch, rng := rng } =
        { hostAccess a s with regs := regs, pk := pk, sk := sk, scratch := scratch, rng := rng }

/-! ## The host bus (20_memory.md, R43 to R51) -/

/-- R43, R287: a CMD write is latched while FAULT is 0, and refused with BERR while FAULT is 1. -/
def Obligations.CommandWriteIsLatchedUnlessFault : Prop :=
  ∀ (s : State) (v : Word),
    (s.status.fault = false →
      hostAccess (.write32 0x00000 v) s = { s with cmd := some v, status := { s.status with done := false } }) ∧
    (s.status.fault = true → hostAccess (.write32 0x00000 v) s = { s with status := { s.status with berr := true } })

/-- R44, R288: a STATUS read returns the word of R44's table and has no side effect; a STATUS write clears FAULT and FCODE by
bit 2 and BERR by bit 7, keeps FAULTCMD, and does nothing else. -/
def Obligations.StatusRegisterReadAndWrite : Prop :=
  (∀ s : State, ∃ v : Word,
    hostAccess (.read32 0x00004) s = { s with replies := s.replies ++ [.word v] } ∧
    v.getLsbD 0 = s.cmd.isSome ∧ v.getLsbD 1 = s.status.done ∧ v.getLsbD 2 = s.status.fault ∧
    v.extractLsb' 3 2 = s.status.cmp.code ∧ v.getLsbD 5 = s.status.eq ∧ v.getLsbD 6 = s.status.prime ∧
    v.getLsbD 7 = s.status.berr ∧ v.extractLsb' 8 8 = s.status.fcode.toByte ∧ v.extractLsb' 16 16 = 0) ∧
  ∀ (s : State) (v : Word),
    hostAccess (.write32 0x00004 v) s =
      { s with
        status := { s.status with
          fault := s.status.fault && !v.getLsbD 2
          fcode := if v.getLsbD 2 = true then .none else s.status.fcode
          berr := s.status.berr && !v.getLsbD 7 } }

/-- R49: OCTLEN reads the length, takes a length up to the capacity, changes no byte, and refuses a greater one with BERR. -/
def Obligations.OctLenIsReadAndBounded : Prop :=
  ∀ (s : State) (i : OReg) (v : Word),
    (s.octLen[i] ≤ octCap s i →
      hostAccess (.read32 (BitVec.ofNat 20 (0x00100 + 4 * i.val))) s =
        { s with replies := s.replies ++ [.word (BitVec.ofNat 32 s.octLen[i])] }) ∧
    ((v.extractLsb' 0 13).toNat ≤ octCap s i →
      hostAccess (.write32 (BitVec.ofNat 20 (0x00100 + 4 * i.val)) v) s =
        { s with octLen := s.octLen.set i (v.extractLsb' 0 13).toNat }) ∧
    (octCap s i < (v.extractLsb' 0 13).toNat →
      hostAccess (.write32 (BitVec.ofNat 20 (0x00100 + 4 * i.val)) v) s =
        { s with status := { s.status with berr := true } })

/-- R46 to R51: CTRL takes bit 0 as the capacity policy; FAULTCMD, CTRL, KEYSTAT, REGINFO and OCTCAP read their fields. -/
def Obligations.ControlRegistersReadTheirFields : Prop :=
  ∀ (s : State) (i : Fin 16) (v : Word),
    hostAccess (.write32 0x0000C v) s =
      { s with cappol := if v.getLsbD 0 = true then .truncate else .fault } ∧
    hostAccess (.read32 0x00008) s = { s with replies := s.replies ++ [.word s.faultCmd] } ∧
    hostAccess (.read32 0x0000C) s =
      { s with replies := s.replies ++ [.word (if s.cappol = .truncate then 1 else 0)] } ∧
    (∃ k : Word, hostAccess (.read32 0x00010) s = { s with replies := s.replies ++ [.word k] } ∧
      k.getLsbD 0 = s.pk.valid ∧ k.extractLsb' 1 2 = s.sk.kind.code ∧ k.getLsbD 3 = s.rngs ∧ k.extractLsb' 4 28 = 0) ∧
    (∃ k : Word, hostAccess (.read32 (BitVec.ofNat 20 (0x00200 + 4 * i.val))) s =
        { s with replies := s.replies ++ [.word k] } ∧
      k.getLsbD 0 = (reg s i).tag.isSome ∧ (∀ w, (reg s i).tag = some w → k.extractLsb' 1 2 = w.code) ∧
      k.getLsbD 3 = (reg s i).norm ∧ k.extractLsb' 4 28 = 0 ∧ ((reg s i).tag = none → k = 0)) ∧
    hostAccess (.read32 (BitVec.ofNat 20 (0x00300 + 4 * i.val))) s =
      { s with replies := s.replies ++ [.word (BitVec.ofNat 32 (octCap s i))] }

/-- R85, R86, R88: an 8-bit access to a window byte below the capacity reads that byte, or writes that byte and no other and no
length; a 32-bit access covers four bytes in little-endian lanes, a write changes no other byte, and byte j of the word
written is read back by an 8-bit read. -/
def Obligations.WindowAccessesReadAndWriteBytes : Prop :=
  (∀ (s : State) (i : OReg) (k : Nat) (v : Byte), k < octCap s i →
    hostAccess (.read8 (BitVec.ofNat 20 (octAddr i k))) s = { s with replies := s.replies ++ [.byte (octByte s i k)] } ∧
    ∃ m, hostAccess (.write8 (BitVec.ofNat 20 (octAddr i k)) v) s = { s with mem := m } ∧
      Memory.read m (octAddr i k) = v ∧ ∀ a, a ≠ octAddr i k → Memory.read m a = Memory.read s.mem a) ∧
  ∀ (s : State) (i : OReg) (k : Nat) (v : Word), k % 4 = 0 → k + 3 < octCap s i →
    (∃ r : Word, hostAccess (.read32 (BitVec.ofNat 20 (octAddr i k))) s = { s with replies := s.replies ++ [.word r] } ∧
      ∀ j, j < 4 → r.extractLsb' (8 * j) 8 = octByte s i (k + j)) ∧
    ∃ m, hostAccess (.write32 (BitVec.ofNat 20 (octAddr i k)) v) s = { s with mem := m } ∧
      (∀ j, j < 4 → Memory.read m (octAddr i (k + j)) = v.extractLsb' (8 * j) 8) ∧
      (∀ j, j < 4 → hostAccess (.read8 (BitVec.ofNat 20 (octAddr i (k + j)))) { s with mem := m } =
        { s with mem := m, replies := s.replies ++ [.byte (v.extractLsb' (8 * j) 8)] }) ∧
      ∀ a, (a < octAddr i k ∨ octAddr i k + 4 ≤ a) → Memory.read m a = Memory.read s.mem a

/-- R84, R85, R87: what is refused: a refused read returns 0, a refused write changes nothing else, and either sets BERR; a read
of CMD returns 0 without BERR. -/
def Obligations.RefusedAccessOnlySetsBerr : Prop :=
  ∀ (s : State) (off : Offset),
    ((∀ i k, ¬ WindowByte s off.toNat i k) →
      hostAccess (.read8 off) s =
        { s with status := { s.status with berr := true }, replies := s.replies ++ [.byte 0] } ∧
      ∀ v, hostAccess (.write8 off v) s = { s with status := { s.status with berr := true } }) ∧
    (¬ ControlOffset off.toNat → ¬ WindowWord s off.toNat →
      hostAccess (.read32 off) s =
        { s with status := { s.status with berr := true }, replies := s.replies ++ [.word 0] } ∧
      ∀ v, hostAccess (.write32 off v) s = { s with status := { s.status with berr := true } }) ∧
    (ReadOnlyOffset off.toNat → ∀ v, hostAccess (.write32 off v) s = { s with status := { s.status with berr := true } }) ∧
    (∀ (i : OReg) (v : Word), off.toNat = 0x00100 + 4 * i.val → octCap s i < (v.extractLsb' 0 13).toNat →
      hostAccess (.write32 off v) s = { s with status := { s.status with berr := true } }) ∧
    (off = 0x00000 → s.status.fault = true →
      ∀ v, hostAccess (.write32 off v) s = { s with status := { s.status with berr := true } }) ∧
    (off = 0x00000 → hostAccess (.read32 off) s = { s with replies := s.replies ++ [.word 0] })

/-- R81, R94: an access issued to an idle block takes effect at once; while a command is in flight a STATUS read completes at
once with BUSY 1, and every other access stalls with nothing else changed, to take effect once the block is idle. The lists
are logs 6 and 7's. -/
def Obligations.AccessesStallWhileBusy : Prop :=
  ∀ (s : State) (a : HostAccess) (rest : List Input),
    (s.inputs = .issue a :: rest → s.port = [] → s.cmd = none →
      step s = .next (hostAccess a { s with inputs := rest })) ∧
    (s.inputs = .issue (.read32 0x00004) :: rest → s.port = [] → s.cmd.isSome = true →
      ∃ v : Word, v.getLsbD 0 = true ∧ step s = .next { s with inputs := rest, replies := s.replies ++ [.word v] }) ∧
    (s.inputs = .issue a :: rest → a ≠ .read32 0x00004 → s.cmd.isSome = true →
      step s = .next { s with inputs := rest, port := s.port ++ [a] }) ∧
    (∀ later, s.inputs = [] → s.port = a :: later → s.cmd = none →
      step s = .next (hostAccess a { s with port := later }))

/-! ## Reset (70_reset_and_hazards.md) -/

/-- R33, R35, R38, R41, R42, R45, R46, R47, R57: every piece of the block's state right after reset; and (R320, R321) reset
asserted in any state, a command in flight or not, gives those values in one step, drops the command and the stalled
accesses, keeps the parameters and makes no call at the RNG port. That reset arrives as an input of State is log 6's. -/
def Obligations.ResetGivesTheResetValues : Prop :=
  (∀ i : BReg, reg State.reset i = .unwritten) ∧
  (∀ i : OReg, State.reset.octLen[i] = 0) ∧ (∀ a, Memory.read State.reset.mem a = 0) ∧
  State.reset.pk = { valid := false, n := 0, g := 0, n2 := 0 } ∧ State.reset.sk = NoKey ∧
  State.reset.rngs = false ∧ State.reset.cmd = none ∧
  State.reset.status = { done := false, fault := false, cmp := .none, eq := false, prime := false, berr := false, fcode := .none } ∧
  statusWord State.reset = 0 ∧ State.reset.faultCmd = 0 ∧ State.reset.cappol = .fault ∧
  State.reset.scratch = Scratch.cleared ∧ State.reset.port = [] ∧
  ∀ (s : State) (rest : List Input), s.inputs = .reset :: rest →
    ∃ t, step s = .next t ∧ t.rng.calls = s.rng.calls ∧
      t = { State.reset with params := s.params, rng := t.rng, inputs := t.inputs, replies := t.replies }

/-! ## Octet commands (41_octet.md) -/

/-- R140, R144: OCT.ZERO zeroes the whole capacity and the length; OCT.PAD left-pads with zero bytes to a length from the
octet's to its capacity; neither writes anything else. -/
def Obligations.OctZeroAndPadWriteTheirOctet : Prop :=
  (∀ (d : OReg) (s : State),
    ∃ t, exec (.octZero d) s = .next t ∧ StoredOctet s d 0 (List.replicate (octCap s d) 0) 0 t) ∧
  ∀ (d : OReg) (len : BitVec 16) (s : State), s.octLen[d] ≤ len.toNat → len.toNat ≤ octCap s d →
    ∃ t, exec (.octPad d len) s = .next t ∧
      StoredOctet s d 0 (List.replicate (len.toNat - s.octLen[d]) 0 ++ octStr s d) len.toNat t

/-- R141, R142, R143, R146, R180: where the string fits, OCT.COPY, OCT.APPEND, OCT.TAIL and BN.STORE write it at their position
and set the length, and write no other byte and nothing else. -/
def Obligations.StoringCommandsWriteTheString : Prop :=
  (∀ (d a : OReg) (s : State), s.octLen[a] ≤ octCap s d →
    ∃ t, exec (.octCopy d a) s = .next t ∧ StoredOctet s d 0 (octStr s a) s.octLen[a] t) ∧
  (∀ (d a : OReg) (s : State), s.octLen[d] + s.octLen[a] ≤ octCap s d →
    ∃ t, exec (.octAppend d a) s = .next t ∧
      StoredOctet s d s.octLen[d] (octStr s a) (s.octLen[d] + s.octLen[a]) t) ∧
  (∀ (d a : OReg) (len : BitVec 16) (s : State), len.toNat ≤ s.octLen[a] → len.toNat ≤ octCap s d →
    ∃ t, exec (.octTail d a len) s = .next t ∧
      StoredOctet s d 0 ((octStr s a).drop (s.octLen[a] - len.toNat)) len.toNat t) ∧
  ∀ (d : OReg) (a : BReg) (w : Width) (v : Nat) (s : State), reg s a = .normal w v → v < 2 ^ w.bits → w.bytes ≤ octCap s d →
    ∃ t bytes, exec (.bnStore d a w) s = .next t ∧ StoredOctet s d 0 bytes w.bytes t ∧
      bytes.length = w.bytes ∧ bigEndian bytes = v

/-- R143: past the capacity, the same four commands fault OCT_CAPACITY under CAPPOL = FAULT, and under CAPPOL = TRUNCATE keep
the leading bytes up to the capacity. -/
def Obligations.StoringCommandsPastCapacity : Prop :=
  (∀ (d a : OReg) (s : State), octCap s d < s.octLen[a] →
    (s.cappol = .fault → FaultsWith (.octCopy d a) s .octCapacity) ∧
    (s.cappol = .truncate → ∃ t, exec (.octCopy d a) s = .next t ∧
      StoredOctet s d 0 ((octStr s a).take (octCap s d)) (octCap s d) t)) ∧
  (∀ (d a : OReg) (s : State), octCap s d < s.octLen[d] + s.octLen[a] →
    (s.cappol = .fault → FaultsWith (.octAppend d a) s .octCapacity) ∧
    (s.cappol = .truncate → ∃ t, exec (.octAppend d a) s = .next t ∧
      StoredOctet s d s.octLen[d] ((octStr s a).take (octCap s d - s.octLen[d])) (octCap s d) t)) ∧
  (∀ (d a : OReg) (len : BitVec 16) (s : State), len.toNat ≤ s.octLen[a] → octCap s d < len.toNat →
    (s.cappol = .fault → FaultsWith (.octTail d a len) s .octCapacity) ∧
    (s.cappol = .truncate → ∃ t, exec (.octTail d a len) s = .next t ∧
      StoredOctet s d 0 (((octStr s a).drop (s.octLen[a] - len.toNat)).take (octCap s d)) (octCap s d) t)) ∧
  ∀ (d : OReg) (a : BReg) (w : Width) (v : Nat) (s : State), reg s a = .normal w v → v < 2 ^ w.bits → octCap s d < w.bytes →
    (s.cappol = .fault → FaultsWith (.bnStore d a w) s .octCapacity) ∧
    (s.cappol = .truncate → ∃ t bytes, exec (.bnStore d a w) s = .next t ∧
      StoredOctet s d 0 (bytes.take (octCap s d)) (octCap s d) t ∧ bytes.length = w.bytes ∧ bigEndian bytes = v)

/-- The octet laws (R147, which the spec derives from R143, R144 and R146): OCT.PAD keeps the value; OCT.TAIL of the old
length undoes it; after OCT.ZERO d, OCT.CTEQ d, x finds equality exactly when x is empty. -/
def Obligations.OctetLaws : Prop :=
  (∀ (d : OReg) (len : BitVec 16) (s : State), s.octLen[d] ≤ len.toNat → len.toNat ≤ octCap s d →
    ∃ t u, exec (.octPad d len) s = .next t ∧ bigEndian (octStr t d) = bigEndian (octStr s d) ∧
      exec (.octTail d d (BitVec.ofNat 16 s.octLen[d])) t = .next u ∧ octStr u d = octStr s d) ∧
  ∀ (d x : OReg) (s : State), ∃ t u, exec (.octZero d) s = .next t ∧ exec (.octCteq d x) t = .next u ∧
    (u.status.eq = true ↔ t.octLen[x] = 0)

/-- R145, R53: OCT.CTEQ sets EQ exactly when the two strings are equal, and writes nothing else. -/
def Obligations.OctCteqComparesStrings : Prop :=
  ∀ (a b : OReg) (s : State),
    exec (.octCteq a b) s =
      .next (afterCompletion { s with status := { s.status with eq := decide (octStr s a = octStr s b) } })

/-- R144, R146, R179, R270: a length out of range faults OCT_RANGE. -/
def Obligations.LengthOutOfRangeFaults : Prop :=
  (∀ (d : OReg) (len : BitVec 16) (s : State), (len.toNat < s.octLen[d] ∨ octCap s d < len.toNat) →
    FaultsWith (.octPad d len) s .octRange) ∧
  (∀ (d a : OReg) (len : BitVec 16) (s : State), s.octLen[a] < len.toNat → FaultsWith (.octTail d a len) s .octRange) ∧
  (∀ (d : BReg) (a : OReg) (w : Width) (s : State), w.bytes < s.octLen[a] → FaultsWith (.bnLoad d a w) s .octRange) ∧
  ∀ (a : OReg) (s : State), s.octLen[a] = 0 → FaultsWith (.rnSeed a) s .octRange

/-! ## Field commands (42_bni.md) -/

/-- R162, R163, R164: BN.ZERO, BN.ONE and BN.COPY write their destination's record and nothing else. -/
def Obligations.BnConstantsAndCopy : Prop :=
  (∀ (d : BReg) (w : Width) (s : State),
    exec (.bnZero d w) s = .next (afterCompletion { s with regs := s.regs.set d (.normal w 0) }) ∧
    exec (.bnOne d w) s = .next (afterCompletion { s with regs := s.regs.set d (.normal w 1) })) ∧
  ∀ (d a : BReg) (w : Width) (s : State), (reg s a).tag = some w →
    exec (.bnCopy d a w) s = .next (afterCompletion { s with regs := s.regs.set d (reg s a) })

/-- R165, R166, R167: BN.ADD and BN.SUB leave the exact sum and difference, denormal; BN.NORM leaves the value modulo 2^W, of a
denormal or a normalized source. -/
def Obligations.BnAddSubAndNorm : Prop :=
  (∀ (d a b : BReg) (w : Width) (va vb : Nat) (s : State), reg s a = .normal w va → reg s b = .normal w vb →
    exec (.bnAdd d a b w) s =
      .next (afterCompletion { s with regs := s.regs.set d (.denormal w ((va : Int) + vb)) }) ∧
    exec (.bnSub d a b w) s =
      .next (afterCompletion { s with regs := s.regs.set d (.denormal w ((va : Int) - vb)) })) ∧
  ∀ (d a : BReg) (w : Width) (s : State),
    (∀ v : Int, reg s a = .denormal w v → ∃ r : Nat, (r : Int) = v % 2 ^ w.bits ∧
      exec (.bnNorm d a w) s = .next (afterCompletion { s with regs := s.regs.set d (.normal w r) })) ∧
    (∀ v : Nat, reg s a = .normal w v →
      exec (.bnNorm d a w) s = .next (afterCompletion { s with regs := s.regs.set d (.normal w (v % 2 ^ w.bits)) }))

/-- R168, R52: BN.CMP writes less, equal or greater to CMP, and no register. -/
def Obligations.BnCmpWritesTheOrder : Prop :=
  ∀ (a b : BReg) (w : Width) (va vb : Nat) (s : State), reg s a = .normal w va → reg s b = .normal w vb →
    ∃ c, exec (.bnCmp a b w) s = .next (afterCompletion { s with status := { s.status with cmp := c } }) ∧
      (c = .less ↔ va < vb) ∧ (c = .equal ↔ va = vb) ∧ (c = .greater ↔ vb < va)

/-- R169, R170: the word shifts, by BNI_WORD_BITS whatever it is. -/
def Obligations.BnWordShifts : Prop :=
  ∀ (d a : BReg) (w : Width) (v : Nat) (s : State), reg s a = .normal w v →
    exec (.bnShlw d a w) s =
      .next (afterCompletion
        { s with regs := s.regs.set d (.normal w (v * 2 ^ s.params.bniWordBits.val % 2 ^ w.bits)) }) ∧
    exec (.bnShrw d a w) s =
      .next (afterCompletion { s with regs := s.regs.set d (.normal w (v / 2 ^ s.params.bniWordBits.val)) })

/-- R171, R172, R173: BN.MUL and BN.SQR leave the whole product at the double width; BN.MOD leaves a double-width dividend's
residue at the single width, or faults DIV_ZERO. R120 gives 8192 bits none of the three; that their ill-formed terms fault
ILLEGAL_CMD is log 11's. -/
def Obligations.BnMulSqrAndModUseTheDoubleWidth : Prop :=
  (∀ (d a b : BReg) (s : State), FaultsWith (.bnMul d a b .w8192) s .illegalCmd ∧
    FaultsWith (.bnSqr d a .w8192) s .illegalCmd ∧ FaultsWith (.bnMod d a b .w8192) s .illegalCmd) ∧
  ∀ (d a b : BReg) (w w2 : Width) (va vb : Nat) (s : State), w2.bits = 2 * w.bits → reg s b = .normal w vb →
    (reg s a = .normal w va →
      exec (.bnMul d a b w) s = .next (afterCompletion { s with regs := s.regs.set d (.normal w2 (va * vb)) }) ∧
      exec (.bnSqr d a w) s = .next (afterCompletion { s with regs := s.regs.set d (.normal w2 (va * va)) })) ∧
    (reg s a = .normal w2 va → 0 < vb →
      exec (.bnMod d a b w) s = .next (afterCompletion { s with regs := s.regs.set d (.normal w (va % vb)) })) ∧
    (reg s a = .normal w2 va → vb = 0 → FaultsWith (.bnMod d a b w) s .divZero)

/-- R174: BN.POW leaves the power modulo an odd modulus, or faults DIV_ZERO or EVEN_MODULUS. -/
def Obligations.BnPowIsModularExponentiation : Prop :=
  ∀ (d a b c : BReg) (w : Width) (va vb vc : Nat) (s : State),
    reg s a = .normal w va → reg s b = .normal w vb → reg s c = .normal w vc →
    (vc % 2 = 1 →
      exec (.bnPow d a b c w) s = .next (afterCompletion { s with regs := s.regs.set d (.normal w (va ^ vb % vc)) })) ∧
    (vc = 0 → FaultsWith (.bnPow d a b c w) s .divZero) ∧
    (vc ≠ 0 → vc % 2 = 0 → FaultsWith (.bnPow d a b c w) s .evenModulus)

/-- R21, R175, R176: BN.INV leaves the inverse in [0, vb), or faults DIV_ZERO or NO_INVERSE; BN.INV2M leaves an odd value's
inverse modulo 2^W, or faults NO_INVERSE. -/
def Obligations.BnInvAndInv2mLeaveTheInverse : Prop :=
  (∀ (d a b : BReg) (w : Width) (va vb : Nat) (s : State), reg s a = .normal w va → reg s b = .normal w vb →
    (vb ≠ 0 → Nat.gcd va vb = 1 → ∃ x, x < vb ∧ va * x % vb = 1 % vb ∧
      exec (.bnInv d a b w) s = .next (afterCompletion { s with regs := s.regs.set d (.normal w x) })) ∧
    (vb = 0 → FaultsWith (.bnInv d a b w) s .divZero) ∧
    (vb ≠ 0 → Nat.gcd va vb ≠ 1 → FaultsWith (.bnInv d a b w) s .noInverse)) ∧
  ∀ (d a : BReg) (w : Width) (va : Nat) (s : State), reg s a = .normal w va →
    (va % 2 = 1 → ∃ x, x < 2 ^ w.bits ∧ va * x % 2 ^ w.bits = 1 ∧
      exec (.bnInv2m d a w) s = .next (afterCompletion { s with regs := s.regs.set d (.normal w x) })) ∧
    (va % 2 = 0 → FaultsWith (.bnInv2m d a w) s .noInverse)

/-- R18, R177, R178, R273: BN.RAND leaves the DrawRand oracle's value below the bound, any such value for some source, and BN.PRIME
the DrawPrime oracle's verdict in PRIME, either verdict for some source, with two draws made; or they fault RNG_UNSEEDED,
BOUND_ZERO or, after one draw, RNG_FAIL. How a source gives its answers is log 3's. -/
def Obligations.BnRandAndPrimeFollowTheOracle : Prop :=
  (∀ (d a : BReg) (w : Width) (va : Nat) (s : State), reg s a = .normal w va →
    (s.rngs = true → va ≠ 0 → s.rng.failAt s.rng.drawn = false →
      s.rng.randAt (s.rng.drawn + 1) w va < va ∧
      exec (.bnRand d a w) s =
        .next (afterCompletion { s with
          regs := s.regs.set d (.normal w (s.rng.randAt (s.rng.drawn + 1) w va))
          rng := s.rng.afterDraws 2 })) ∧
    (∀ y, y < va → ∃ source, RngPort.failAt source source.drawn = false ∧ source.randAt (source.drawn + 1) w va = y) ∧
    (s.rngs = false → FaultsWith (.bnRand d a w) s .rngUnseeded) ∧
    (s.rngs = true → va = 0 → FaultsWith (.bnRand d a w) s .boundZero) ∧
    (s.rngs = true → va ≠ 0 → s.rng.failAt s.rng.drawn = true → FaultsAfterDraws (.bnRand d a w) s 1 .rngFail)) ∧
  ∀ (a : BReg) (w : Width) (va : Nat) (s : State), reg s a = .normal w va →
    (s.rngs = true → s.rng.failAt s.rng.drawn = false →
      exec (.bnPrime a w) s =
        .next (afterCompletion { s with
          status := { s.status with prime := s.rng.primeAt (s.rng.drawn + 1) w va }
          rng := s.rng.afterDraws 2 })) ∧
    (∀ verdict, ∃ source, RngPort.failAt source source.drawn = false ∧ source.primeAt (source.drawn + 1) w va = verdict) ∧
    (s.rngs = false → FaultsWith (.bnPrime a w) s .rngUnseeded) ∧
    (s.rngs = true → s.rng.failAt s.rng.drawn = true → FaultsAfterDraws (.bnPrime a w) s 1 .rngFail)

/-- R179, R89: BN.LOAD leaves the big-endian value of an octet of at most W/8 bytes. -/
def Obligations.BnLoadReadsBigEndian : Prop :=
  ∀ (d : BReg) (a : OReg) (w : Width) (s : State), s.octLen[a] ≤ w.bytes →
    exec (.bnLoad d a w) s =
      .next (afterCompletion { s with
        regs := s.regs.set d (.normal w (∑ k ∈ Finset.range s.octLen[a], (octByte s a k).toNat * 256 ^ (s.octLen[a] - 1 - k))) })

/-- The field laws (R183, which the spec derives from R165 to R180): STORE then LOAD; ADD or SUB then NORM; MUL then MOD;
INV; SHLW then SHRW. -/
def Obligations.FieldCommandLaws : Prop :=
  (∀ (d a : BReg) (o : OReg) (w : Width) (v : Nat) (s : State), reg s a = .normal w v → v < 2 ^ w.bits →
    (s.cappol = .fault ∨ w.bytes ≤ octCap s o) → ∀ t, exec (.bnStore o a w) s = .next t → t.status.done = true →
    ∃ u, exec (.bnLoad d o w) t = .next u ∧ reg u d = .normal w v) ∧
  (∀ (d e a b : BReg) (w : Width) (va vb : Nat) (s : State), reg s a = .normal w va → reg s b = .normal w vb →
    ∃ t u t' u' x y, exec (.bnAdd d a b w) s = .next t ∧ exec (.bnNorm e d w) t = .next u ∧
      reg u e = .normal w x ∧ x = (va + vb) % 2 ^ w.bits ∧
      exec (.bnSub d a b w) s = .next t' ∧ exec (.bnNorm e d w) t' = .next u' ∧
      reg u' e = .normal w y ∧ (y : Int) = ((va : Int) - vb) % 2 ^ w.bits) ∧
  (∀ (d e a b m : BReg) (w w2 : Width) (va vb vm : Nat) (s : State), w2.bits = 2 * w.bits → reg s a = .normal w va →
    reg s b = .normal w vb → reg s m = .normal w vm → vm ≠ 0 → m ≠ d →
    ∃ t u, exec (.bnMul d a b w) s = .next t ∧ exec (.bnMod e d m w) t = .next u ∧ reg u e = .normal w (va * vb % vm)) ∧
  (∀ (d a b : BReg) (w : Width) (va vb : Nat) (s : State), reg s a = .normal w va → reg s b = .normal w vb → 2 ≤ vb →
    Nat.gcd va vb = 1 → ∃ t x, exec (.bnInv d a b w) s = .next t ∧ reg t d = .normal w x ∧ va * x % vb = 1) ∧
  ∀ (d e a : BReg) (w : Width) (va : Nat) (s : State), reg s a = .normal w va →
    ∃ t u, exec (.bnShlw d a w) s = .next t ∧ exec (.bnShrw e d w) t = .next u ∧
      reg u e = .normal w (va % 2 ^ (w.bits - s.params.bniWordBits.val))

/-! ## The marshaler (43_marshal.md) -/

/-- The marshaler's values (R211 and R213, which the spec derives from R210, R212 and R22): WP.PROMOTE keeps the value at a
wider tag; WP.TRUNC leaves the value modulo the narrower power of two. -/
def Obligations.PromoteKeepsAndTruncReducesTheValue : Prop :=
  ∀ (d a : BReg) (w1 w2 : Width) (v : Nat) (s : State), w1.bits < w2.bits →
    (reg s a = .normal w1 v → v < 2 ^ w1.bits →
      exec (.wpPromote d a w2) s = .next (afterCompletion { s with regs := s.regs.set d (.normal w2 v) })) ∧
    (reg s a = .normal w2 v → v < 2 ^ w2.bits →
      exec (.wpTrunc d a w1) s = .next (afterCompletion { s with regs := s.regs.set d (.normal w1 (v % 2 ^ w1.bits)) }))

/-- The round trip (R215, which the spec derives from R211 and R213): promotion then truncation back gives the original value
and tag, and the same stored bytes. -/
def Obligations.PromoteThenTruncIsIdentity : Prop :=
  ∀ (d e a : BReg) (o : OReg) (w1 w2 : Width) (v : Nat) (s : State), reg s a = .normal w1 v → v < 2 ^ w1.bits →
    w1.bits < w2.bits → w1.bytes ≤ octCap s o →
    ∃ t u x y, exec (.wpPromote d a w2) s = .next t ∧ exec (.wpTrunc e d w1) t = .next u ∧ reg u e = .normal w1 v ∧
      exec (.bnStore o a w1) s = .next x ∧ exec (.bnStore o e w1) u = .next y ∧ octStr y o = octStr x o

/-- R210, R212: the marshaler's own check, in its order: written, direction of the widths, normalized; nothing is written. That
the ill-formed terms at 2048 and 8192 bits (R120) fault ILLEGAL_CMD is log 11's. -/
def Obligations.MarshalerChecksItsSource : Prop :=
  (∀ (d a : BReg) (s : State), FaultsWith (.wpPromote d a .w2048) s .illegalCmd ∧
    FaultsWith (.wpTrunc d a .w8192) s .illegalCmd) ∧
  ∀ (d a : BReg) (w : Width) (s : State),
    (w ≠ .w2048 →
      (reg s a = .unwritten → FaultsWith (.wpPromote d a w) s .regUnwritten) ∧
      (∀ t, (reg s a).tag = some t → w.bits ≤ t.bits → FaultsWith (.wpPromote d a w) s .widthMismatch) ∧
      (∀ t, (reg s a).tag = some t → t.bits < w.bits → (reg s a).norm = false → FaultsWith (.wpPromote d a w) s .denorm)) ∧
    (w ≠ .w8192 →
      (reg s a = .unwritten → FaultsWith (.wpTrunc d a w) s .regUnwritten) ∧
      (∀ t, (reg s a).tag = some t → t.bits ≤ w.bits → FaultsWith (.wpTrunc d a w) s .widthMismatch) ∧
      (∀ t, (reg s a).tag = some t → w.bits < t.bits → (reg s a).norm = false → FaultsWith (.wpTrunc d a w) s .denorm))

/-! ## The divider (44_ldiv.md) -/

/-- R220, with the floor division the spec derives from R221 (R222): LD.DIV leaves the quotient and, with RM = 1, the
remainder in another register, or faults DIV_ZERO; one register for both faults REG_CONFLICT before any other check. -/
def Obligations.LdDivLeavesQuotientAndRemainder : Prop :=
  (∀ (d a b : BReg) (w : Width) (s : State), FaultsWith (.ldDiv d a b (some d) w) s .regConflict) ∧
  ∀ (d a b : BReg) (w : Width) (va vb : Nat) (s : State), reg s a = .normal w va → reg s b = .normal w vb →
    (vb ≠ 0 →
      exec (.ldDiv d a b none w) s = .next (afterCompletion { s with regs := s.regs.set d (.normal w (va / vb)) }) ∧
      ∀ c, c ≠ d → exec (.ldDiv d a b (some c) w) s =
        .next (afterCompletion { s with
          regs := (s.regs.set d (.normal w (va / vb))).set c (.normal w (va % vb)) })) ∧
    (vb = 0 → ∀ rem, rem ≠ some d → FaultsWith (.ldDiv d a b rem w) s .divZero)

/-! ## Keys (45_paillier.md, sections 1 and 2) -/

/-- R230, R232, R233, R234: PL.KEYGEN with supplied primes writes both keys of its scheme, and faults KEY_INVALID on primes
that fail the check or lack an inverse. -/
def Obligations.KeygenFromSuppliedPrimes : Prop :=
  ∀ (a b : BReg) (p q : Nat) (s : State), reg s a = .normal .w2048 p → reg s b = .normal .w2048 q →
    (PrimeSized p → PrimeSized q → p ≠ q → Nat.gcd ((p - 1) * (q - 1)) (p * q) = 1 →
      (∃ mu, mu < p * q ∧ (p - 1) * (q - 1) * mu % (p * q) = 1 ∧
        exec (.plKeygen .plain (some (a, b))) s = .next (afterCompletion { s with
          pk := { valid := true, n := p * q, g := p * q + 1, n2 := p * q * (p * q) }
          sk := PlainKey (p * q) ((p - 1) * (q - 1)) mu })) ∧
      (Nat.gcd p q = 1 → ∃ k, CrtKeyFor p q k ∧
        exec (.plKeygen .crt (some (a, b))) s = .next (afterCompletion { s with
          pk := { valid := true, n := p * q, g := p * q + 1, n2 := p * q * (p * q) }
          sk := k }))) ∧
    (∀ scheme, (¬ PrimeSized p ∨ ¬ PrimeSized q ∨ p = q ∨ Nat.gcd ((p - 1) * (q - 1)) (p * q) ≠ 1 ∨
        (scheme = .crt ∧ Nat.gcd p q ≠ 1)) →
      FaultsWith (.plKeygen scheme (some (a, b))) s .keyInvalid)

/-- R230, R231, R285: PL.KEYGEN with M = 0 searches p, then q, and writes both keys of its scheme, with the draws of both searches
made. It faults RNG_UNSEEDED without a seed; as a search does, after the draws made by then, where a search fails or is
exhausted; and KEY_INVALID after both searches where p = q or an inverse is missing. -/
def Obligations.KeygenFromDrawnPrimes : Prop :=
  ∀ (scheme : Scheme) (s : State),
    (s.rngs = false → FaultsWith (.plKeygen scheme none) s .rngUnseeded) ∧
    (s.rngs = true →
      (∀ code n, SearchEnds s.params.primeSearchMax s.rng (.error code) n → FaultsAfterDraws (.plKeygen scheme none) s n code) ∧
      ∀ p n, SearchEnds s.params.primeSearchMax s.rng (.ok p) n →
        (∀ code m, SearchEnds s.params.primeSearchMax (s.rng.afterDraws n) (.error code) m →
          FaultsAfterDraws (.plKeygen scheme none) s (n + m) code) ∧
        ∀ q m, SearchEnds s.params.primeSearchMax (s.rng.afterDraws n) (.ok q) m →
          ((p = q ∨ Nat.gcd ((p - 1) * (q - 1)) (p * q) ≠ 1 ∨ (scheme = .crt ∧ Nat.gcd p q ≠ 1)) →
            FaultsAfterDraws (.plKeygen scheme none) s (n + m) .keyInvalid) ∧
          (p ≠ q → Nat.gcd ((p - 1) * (q - 1)) (p * q) = 1 → (scheme = .crt → Nat.gcd p q = 1) →
            ∃ k, (scheme = .crt → CrtKeyFor p q k) ∧
              (scheme = .plain → ∃ mu, mu < p * q ∧ (p - 1) * (q - 1) * mu % (p * q) = 1 ∧
                k = PlainKey (p * q) ((p - 1) * (q - 1)) mu) ∧
              exec (.plKeygen scheme none) s = .next (afterCompletion { s with
                pk := { valid := true, n := p * q, g := p * q + 1, n2 := p * q * (p * q) }
                sk := k
                rng := s.rng.afterDraws (n + m) })))

/-- R231, R273: from every source the prime search ends in one of the ways `SearchEnds` lists, and answers as listed, with the
draws made: RNG_FAIL at its first draw or before a candidate, PRIME_SEARCH_EXHAUSTED after PRIME_SEARCH_MAX rejected candidates
or at 2^1024, or the first accepted candidate, which is a 1024-bit number congruent to 3 modulo 4. -/
def Obligations.PrimeSearchTakesTheFirstAccepted : Prop :=
  ∀ (limit : Nat) (r : RngPort),
    (∃ result n, SearchEnds limit r result n) ∧
    ∀ result n, SearchEnds limit r result n →
      primeSearch limit r = (result, r.afterDraws n) ∧ ∀ p, result = .ok p → PrimeSized p ∧ p % 4 = 3

/-- Key consistency (R236, which the spec derives from R230 to R234): whatever the source answers, a completed PL.KEYGEN leaves the
keys of two distinct odd 1024-bit numbers p and q: those supplied, or two of which the DrawPrime oracle answers true. -/
def Obligations.GeneratedKeysAreConsistent : Prop :=
  ∀ (scheme : Scheme) (primes : Option (BReg × BReg)) (s t : State),
    exec (.plKeygen scheme primes) s = .next t → t.status.done = true →
    ∃ p q, PrimeSized p ∧ PrimeSized q ∧ p ≠ q ∧
      (∀ a b, primes = some (a, b) → reg s a = .normal .w2048 p ∧ reg s b = .normal .w2048 q) ∧
      (primes = none → (∃ n, s.rng.primeAt n .w2048 p = true) ∧ ∃ n, s.rng.primeAt n .w2048 q = true) ∧
      t.pk.valid = true ∧ t.pk.n = p * q ∧ t.pk.g = t.pk.n + 1 ∧ t.pk.n2 = t.pk.n ^ 2 ∧
      (scheme = .plain → t.sk.kind = .plain ∧ t.sk.l = (p - 1) * (q - 1) ∧ t.sk.l * t.sk.m % t.sk.n = 1 ∧ t.sk.n = t.pk.n) ∧
      (scheme = .crt → t.sk.kind = .crt ∧ t.sk.p = p ∧ t.sk.q = q ∧ t.sk.p * t.sk.q = t.pk.n ∧
        t.sk.q * t.sk.mp % t.sk.p = t.sk.p - 1 ∧ t.sk.p * t.sk.mq % t.sk.q = t.sk.q - 1 ∧
        t.sk.p * t.sk.invp % 2 ^ 2048 = 1 ∧ t.sk.q * t.sk.invq % 2 ^ 2048 = 1 ∧ t.sk.p * t.sk.invpq % t.sk.q = 1)

/-- R238, R239, R241: PL.PKLOAD sets PK from an odd n of at least 3 and leaves SK; PL.KEYRD reads the field at tag 4096;
PL.SKKILL zeroes SK and leaves PK; the first two fault KEY_INVALID and NO_PUBKEY otherwise. -/
def Obligations.KeyManagementCommands : Prop :=
  (∀ (a : BReg) (n : Nat) (s : State), reg s a = .normal .w2048 n →
    (3 ≤ n → n % 2 = 1 → exec (.plPkload a) s =
      .next (afterCompletion { s with pk := { valid := true, n := n, g := n + 1, n2 := n * n } })) ∧
    ((n < 3 ∨ n % 2 = 0) → FaultsWith (.plPkload a) s .keyInvalid)) ∧
  (∀ (d : BReg) (s : State),
    (s.pk.valid = true →
      exec (.plKeyrd d .n) s = .next (afterCompletion { s with regs := s.regs.set d (.normal .w4096 s.pk.n) }) ∧
      exec (.plKeyrd d .g) s = .next (afterCompletion { s with regs := s.regs.set d (.normal .w4096 s.pk.g) }) ∧
      exec (.plKeyrd d .n2) s = .next (afterCompletion { s with regs := s.regs.set d (.normal .w4096 s.pk.n2) })) ∧
    (s.pk.valid = false → ∀ field, FaultsWith (.plKeyrd d field) s .noPubkey)) ∧
  ∀ s : State, exec .plSkkill s = .next (afterCompletion { s with
    sk := NoKey })

/-! ## Encryption and decryption (45_paillier.md, sections 3 and 4) -/

/-- R242: PL.ENC with supplied or drawn randomness leaves (1 + m·n)·r^n mod n² and, with EM = 1, r. -/
def Obligations.EncryptionIsThePaillierFormula : Prop :=
  ∀ (d a : BReg) (emit : Option BReg) (m : Nat) (s : State), emit ≠ some d → reg s a = .normal .w2048 m →
    s.pk.valid = true → m < s.pk.n →
    (∀ (b : BReg) (r : Nat), reg s b = .normal .w2048 r → r < s.pk.n →
      exec (.plEnc d a (some b) emit) s = .next (afterCompletion { s with
        regs := (s.regs.set d (.normal .w4096 ((1 + m * s.pk.n) * r ^ s.pk.n % s.pk.n2))) |> fun v =>
          match emit with
          | none => v
          | some c => v.set c (.normal .w2048 r) })) ∧
    (s.rngs = true → s.rng.failAt s.rng.drawn = false →
      ∃ r, r = s.rng.randAt (s.rng.drawn + 1) .w2048 s.pk.n ∧ r < s.pk.n ∧
      exec (.plEnc d a none emit) s = .next (afterCompletion { s with
        rng := s.rng.afterDraws 2
        regs := (s.regs.set d (.normal .w4096 ((1 + m * s.pk.n) * r ^ s.pk.n % s.pk.n2))) |> fun v =>
          match emit with
          | none => v
          | some c => v.set c (.normal .w2048 r) }))

/-- R242, R283: PL.ENC's faults: REG_CONFLICT before the operand check, the others past it, in their order. -/
def Obligations.EncryptionFaultsInOrder : Prop :=
  (∀ (d a : BReg) (r : Option BReg) (s : State), FaultsWith (.plEnc d a r (some d)) s .regConflict) ∧
  ∀ (d a : BReg) (r emit : Option BReg) (m : Nat) (s : State), emit ≠ some d → reg s a = .normal .w2048 m →
    (∀ b, r = some b → ∃ v, reg s b = .normal .w2048 v) →
    (s.pk.valid = false → FaultsWith (.plEnc d a r emit) s .noPubkey) ∧
    (s.pk.valid = true → r = none → s.rngs = false → FaultsWith (.plEnc d a r emit) s .rngUnseeded) ∧
    (s.pk.valid = true → (r ≠ none ∨ s.rngs = true) → s.pk.n ≤ m → FaultsWith (.plEnc d a r emit) s .ptRange) ∧
    (s.pk.valid = true → m < s.pk.n →
      (∀ b v, r = some b → reg s b = .normal .w2048 v → s.pk.n ≤ v → FaultsWith (.plEnc d a r emit) s .rRange) ∧
      (r = none → s.rngs = true → s.rng.failAt s.rng.drawn = true → FaultsAfterDraws (.plEnc d a r emit) s 1 .rngFail))

/-- R244, R245: PL.DEC under a plain key leaves floor((c^λ mod n² - 1) / n)·μ mod n, or faults CT_INVALID where the power is
0. -/
def Obligations.PlainDecryptionFormula : Prop :=
  ∀ (d a : BReg) (c : Nat) (s : State), reg s a = .normal .w4096 c → s.sk.kind = .plain → c < s.sk.n2 → 0 < s.sk.n →
    s.sk.n ≤ 2 ^ 2048 →
    (c ^ s.sk.l % s.sk.n2 ≠ 0 → exec (.plDec d a) s = .next (afterCompletion { s with
      regs := s.regs.set d (.normal .w2048 ((c ^ s.sk.l % s.sk.n2 - 1) / s.sk.n * s.sk.m % s.sk.n)) })) ∧
    (c ^ s.sk.l % s.sk.n2 = 0 → FaultsWith (.plDec d a) s .ctInvalid)

/-- R244, R246: PL.DEC under a CRT key: each prime's half, their combination in [0, p·q), and CT_INVALID where a power is 0. -/
def Obligations.CrtDecryptionFormula : Prop :=
  ∀ (d a : BReg) (c xp xq mp mq h : Nat) (s : State), reg s a = .normal .w4096 c → s.sk.kind = .crt →
    c < s.sk.p2 * s.sk.q2 → 0 < s.sk.p → 0 < s.sk.q → s.sk.p * s.sk.q ≤ 2 ^ 2048 →
    xp = (c % s.sk.p2) ^ s.sk.lp % s.sk.p2 → xq = (c % s.sk.q2) ^ s.sk.lq % s.sk.q2 →
    mp = (xp - 1) * s.sk.invp % 2 ^ 2048 * s.sk.mp % s.sk.p → mq = (xq - 1) * s.sk.invq % 2 ^ 2048 * s.sk.mq % s.sk.q →
    (h : Int) = ((mq : Int) - mp) * s.sk.invpq % s.sk.q →
    (xp ≠ 0 → xq ≠ 0 →
      exec (.plDec d a) s = .next (afterCompletion { s with regs := s.regs.set d (.normal .w2048 (mp + s.sk.p * h)) }) ∧
      mp + s.sk.p * h < s.sk.p * s.sk.q) ∧
    ((xp = 0 ∨ xq = 0) → FaultsWith (.plDec d a) s .ctInvalid)

/-- R248, R249, R283: PL.ADD multiplies ciphertexts modulo n², PL.MUL raises one to a scalar modulo n²; and the key and range
faults of PL.DEC, PL.ADD and PL.MUL (R244), in their order. -/
def Obligations.CiphertextCommandsComputeOrFault : Prop :=
  (∀ (d a b : BReg) (x y : Nat) (s : State), reg s a = .normal .w4096 x → reg s b = .normal .w4096 y →
    (s.pk.valid = true → x < s.pk.n2 → y < s.pk.n2 →
      exec (.plAdd d a b) s = .next (afterCompletion { s with regs := s.regs.set d (.normal .w4096 (x * y % s.pk.n2)) })) ∧
    (s.pk.valid = false → FaultsWith (.plAdd d a b) s .noPubkey) ∧
    (s.pk.valid = true → (s.pk.n2 ≤ x ∨ s.pk.n2 ≤ y) → FaultsWith (.plAdd d a b) s .ctRange)) ∧
  (∀ (d a b : BReg) (x k : Nat) (s : State), reg s a = .normal .w4096 x → reg s b = .normal .w2048 k → k < 2 ^ 2048 →
    (s.pk.valid = true → x < s.pk.n2 → k < s.pk.n →
      exec (.plMul d a b) s = .next (afterCompletion { s with regs := s.regs.set d (.normal .w4096 (x ^ k % s.pk.n2)) })) ∧
    (s.pk.valid = false → FaultsWith (.plMul d a b) s .noPubkey) ∧
    (s.pk.valid = true → s.pk.n2 ≤ x → FaultsWith (.plMul d a b) s .ctRange) ∧
    (s.pk.valid = true → x < s.pk.n2 → s.pk.n ≤ k → FaultsWith (.plMul d a b) s .ptRange)) ∧
  ∀ (d a : BReg) (c : Nat) (s : State), reg s a = .normal .w4096 c →
    (s.sk.kind = .none → FaultsWith (.plDec d a) s .noPrivkey) ∧
    (s.sk.kind = .plain → s.sk.n2 ≤ c → FaultsWith (.plDec d a) s .ctRange) ∧
    (s.sk.kind = .crt → s.sk.p2 * s.sk.q2 ≤ c → FaultsWith (.plDec d a) s .ctRange)

/-- The round trip (R243, which the spec derives from R242, R245 and R246): decryption inverts encryption, under a key of
either scheme made of two distinct primes. -/
def Obligations.DecryptionInvertsEncryption : Prop :=
  ∀ (p q m r : Nat) (d e a b : BReg) (s : State), Nat.Prime p → Nat.Prime q → p ≠ q → p * q < 2 ^ 2048 →
    s.pk = { valid := true, n := p * q, g := p * q + 1, n2 := p * q * (p * q) } →
    ((∃ mu, mu < p * q ∧ (p - 1) * (q - 1) * mu % (p * q) = 1 ∧ s.sk = PlainKey (p * q) ((p - 1) * (q - 1)) mu) ∨
      CrtKeyFor p q s.sk) →
    reg s a = .normal .w2048 m → reg s b = .normal .w2048 r → m < p * q → r < p * q → Nat.gcd r (p * q) = 1 →
    ∃ t u c, exec (.plEnc d a (some b) none) s = .next t ∧ reg t d = .normal .w4096 c ∧
      1 ≤ c ∧ c < p * q * (p * q) ∧ Nat.gcd c (p * q) = 1 ∧
      exec (.plDec e d) t = .next u ∧ reg u e = .normal .w2048 m

/-- Decryption laws (R247, which the spec derives from R245 and R246): under keys of the same two distinct odd primes, both
schemes return a value below n; they agree on ciphertexts coprime to n; both fault CT_INVALID on multiples of n; on a
multiple of one prime only, CRT faults and plain returns a value. -/
def Obligations.PlainAndCrtDecryptionLaws : Prop :=
  ∀ (p q c mu : Nat) (d a : BReg) (k : PrivKey) (s : State), Nat.Prime p → Nat.Prime q → p ≠ q → p * q < 2 ^ 2048 →
    p % 2 = 1 → q % 2 = 1 → (p - 1) * (q - 1) * mu % (p * q) = 1 → mu < p * q → CrtKeyFor p q k →
    reg s a = .normal .w4096 c → c < p * q * (p * q) →
    (Nat.gcd c (p * q) = 1 → ∃ v, v < p * q ∧
      exec (.plDec d a) { s with sk := PlainKey (p * q) ((p - 1) * (q - 1)) mu } =
        .next (afterCompletion { s with
          sk := PlainKey (p * q) ((p - 1) * (q - 1)) mu, regs := s.regs.set d (.normal .w2048 v) }) ∧
      exec (.plDec d a) { s with sk := k } =
        .next (afterCompletion { s with sk := k, regs := s.regs.set d (.normal .w2048 v) })) ∧
    (Nat.gcd c (p * q) = p * q →
      FaultsWith (.plDec d a) { s with sk := PlainKey (p * q) ((p - 1) * (q - 1)) mu } .ctInvalid ∧
      FaultsWith (.plDec d a) { s with sk := k } .ctInvalid) ∧
    ((Nat.gcd c (p * q) = p ∨ Nat.gcd c (p * q) = q) →
      FaultsWith (.plDec d a) { s with sk := k } .ctInvalid ∧
      ∃ v, v < p * q ∧ exec (.plDec d a) { s with sk := PlainKey (p * q) ((p - 1) * (q - 1)) mu } =
        .next (afterCompletion { s with
          sk := PlainKey (p * q) ((p - 1) * (q - 1)) mu, regs := s.regs.set d (.normal .w2048 v) }))

/-- Homomorphic laws (R250, which the spec derives from R242, R243, R248 and R249): PL.ADD of two ciphertexts decrypts to the sum,
PL.MUL by k to the product, modulo n, under a key of either scheme made of two distinct primes. -/
def Obligations.HomomorphicSumAndProductDecrypt : Prop :=
  ∀ (p q m1 m2 r1 r2 k : Nat) (d e a b c : BReg) (s : State), Nat.Prime p → Nat.Prime q → p ≠ q → p * q < 2 ^ 2048 →
    s.pk = { valid := true, n := p * q, g := p * q + 1, n2 := p * q * (p * q) } →
    ((∃ mu, mu < p * q ∧ (p - 1) * (q - 1) * mu % (p * q) = 1 ∧ s.sk = PlainKey (p * q) ((p - 1) * (q - 1)) mu) ∨
      CrtKeyFor p q s.sk) →
    m1 < p * q → m2 < p * q → k < p * q → Nat.gcd (r1 * r2) (p * q) = 1 →
    reg s a = .normal .w4096 ((1 + m1 * (p * q)) * r1 ^ (p * q) % (p * q * (p * q))) →
    reg s b = .normal .w4096 ((1 + m2 * (p * q)) * r2 ^ (p * q) % (p * q * (p * q))) →
    reg s c = .normal .w2048 k →
    (∃ t u, exec (.plAdd d a b) s = .next t ∧ exec (.plDec e d) t = .next u ∧
      reg u e = .normal .w2048 ((m1 + m2) % (p * q))) ∧
    ∃ t u, exec (.plMul d a c) s = .next t ∧ exec (.plDec e d) t = .next u ∧ reg u e = .normal .w2048 (m1 * k % (p * q))

/-! ## The RNG port (46_rng.md) -/

/-- R270, R271, R272: RN.SEED sends the octet's string and sets RNGS, RN.KILL destroys and clears RNGS, and neither writes
anything else. What the source does with the calls is open (log 5). -/
def Obligations.SeedAndKillDriveTheRngPort : Prop :=
  (∀ (a : OReg) (s : State), s.octLen[a] ≠ 0 →
    exec (.rnSeed a) s = .next (afterCompletion { s with
      rngs := true, rng := { s.rng with calls := s.rng.calls ++ [.seed (octStr s a)] } })) ∧
  ∀ s : State, exec .rnKill s = .next (afterCompletion { s with
    rngs := false, rng := { s.rng with calls := s.rng.calls ++ [.destroy] } })

/-! ## Invariants -/

/-- R30, R34, R37, R39, R44: the invariants hold right after reset. -/
def Obligations.ResetMeetsTheInvariants : Prop := OctetsOk State.reset ∧ ValuesOk State.reset ∧ StatusOk State.reset

/-- R34, R49, R143: every step keeps every length within its capacity and the octet memory canonical, and changes no
parameter. -/
def Obligations.EveryStepKeepsOctetsWithinCapacity : Prop :=
  ∀ s t : State, OctetsOk s → step s = .next t → OctetsOk t ∧ t.params = s.params

/-- R30, R36 to R40, R236: every step keeps every register's value in the range of its tag and both keys consistent. -/
def Obligations.EveryStepKeepsValuesAndKeysConsistent : Prop := ∀ s t : State, ValuesOk s → step s = .next t → ValuesOk t

/-- R44, R57, R287, R289: every step keeps FAULT, FCODE, DONE and BUSY in agreement. -/
def Obligations.EveryStepKeepsStatusConsistent : Prop := ∀ s t : State, StatusOk s → step s = .next t → StatusOk t
end

