-- ==== Sys2Proof/Laws/Bytes.lean ====
section
/-! SUPPORT. Big-endian strings (R22, R89): lengths, values, round trips. -/

namespace Sys2Proof.Machine

@[simp] theorem toBigEndian_length (n v : Nat) : (toBigEndian n v).length = n := by
  induction n with
  | zero => rfl
  | succ k ih => rw [toBigEndian, List.length_cons, ih]

@[simp] theorem zeroBytes_length (k : Nat) : (zeroBytes k).length = k := List.length_replicate

theorem bigEndian_nil : bigEndian [] = 0 := rfl

/-- BE folded from any start. -/
theorem bigEndian_foldl (bytes : List Byte) (acc : Nat) :
    bytes.foldl (fun acc b => acc * 256 + b.toNat) acc = acc * 256 ^ bytes.length + bigEndian bytes := by
  induction bytes generalizing acc with
  | nil => simp [bigEndian]
  | cons b rest ih =>
    have hb : bigEndian (b :: rest) = (0 * 256 + b.toNat) * 256 ^ rest.length + bigEndian rest := ih _
    rw [List.foldl_cons, ih, hb, List.length_cons, pow_succ]
    ring

/-- BE of a first byte and a rest (R22). -/
theorem bigEndian_cons (b : Byte) (rest : List Byte) :
    bigEndian (b :: rest) = b.toNat * 256 ^ rest.length + bigEndian rest := by
  rw [bigEndian, List.foldl_cons, bigEndian_foldl]
  ring

/-- BE of a concatenation (R22). -/
theorem bigEndian_append (xs ys : List Byte) :
    bigEndian (xs ++ ys) = bigEndian xs * 256 ^ ys.length + bigEndian ys := by
  rw [bigEndian, List.foldl_append, bigEndian_foldl]
  rfl

/-- Leading zero bytes add nothing (R211). -/
theorem bigEndian_zeroBytes (k : Nat) : bigEndian (zeroBytes k) = 0 := by
  induction k with
  | zero => rfl
  | succ k ih =>
    show bigEndian (0 :: zeroBytes k) = 0
    rw [bigEndian_cons, ih]
    simp

/-- A string of L bytes is below 256^L. -/
theorem bigEndian_lt (bytes : List Byte) : bigEndian bytes < 256 ^ bytes.length := by
  induction bytes with
  | nil => decide
  | cons b rest ih =>
    rw [bigEndian_cons, List.length_cons, pow_succ]
    have := b.isLt
    nlinarith

/-- `be` then BE gives the value modulo 256^n (R22). -/
theorem bigEndian_toBigEndian (n v : Nat) : bigEndian (toBigEndian n v) = v % 256 ^ n := by
  induction n with
  | zero => simp [toBigEndian, bigEndian, Nat.mod_one]
  | succ k ih =>
    have h8 : (2 : Nat) ^ 8 = 256 := rfl
    have hpow : (256 : Nat) ^ (k + 1) = 256 ^ k * 256 := pow_succ _ _
    rw [toBigEndian, bigEndian_cons, ih, toBigEndian_length, BitVec.toNat_ofNat, h8, hpow, Nat.mod_mul,
      Nat.mul_comm (256 ^ k) (v / 256 ^ k % 256), Nat.add_comm]

/-- The last bytes of `be_n(v)` are `be` of v at the smaller length (R213). -/
theorem toBigEndian_drop (k j v : Nat) : (toBigEndian (k + j) v).drop k = toBigEndian j v := by
  induction k with
  | zero => simp
  | succ k ih => rw [Nat.succ_add, toBigEndian, List.drop_succ_cons, ih]

/-- BE then `be` at the string's own length gives the string back (R22). -/
theorem toBigEndian_bigEndian (bytes : List Byte) : toBigEndian bytes.length (bigEndian bytes) = bytes := by
  have inj : ∀ (n v w : Nat), v % 256 ^ n = w % 256 ^ n → toBigEndian n v = toBigEndian n w := by
    intro n
    induction n with
    | zero => intros; rfl
    | succ k ih =>
      intro v w h
      have hpow : (256 : Nat) ^ (k + 1) = 256 ^ k * 256 := pow_succ _ _
      rw [hpow, Nat.mod_mul, Nat.mod_mul] at h
      have hpos : 0 < 256 ^ k := Nat.pow_pos (by decide)
      have hv := Nat.mod_lt v hpos
      have hw := Nat.mod_lt w hpos
      have h2 : v % 256 ^ k = w % 256 ^ k := by
        have := congrArg (· % 256 ^ k) h
        simpa [Nat.add_mul_mod_self_left] using this
      have h1 : v / 256 ^ k % 256 = w / 256 ^ k % 256 := by
        have h3 : 256 ^ k * (v / 256 ^ k % 256) = 256 ^ k * (w / 256 ^ k % 256) := by omega
        exact Nat.eq_of_mul_eq_mul_left hpos h3
      rw [toBigEndian, toBigEndian, ih v w h2]
      congr 1
      apply BitVec.eq_of_toNat_eq
      rw [BitVec.toNat_ofNat, BitVec.toNat_ofNat]
      exact h1
  induction bytes with
  | nil => rfl
  | cons b rest ih =>
    rw [List.length_cons, toBigEndian, bigEndian_cons]
    have hlt := bigEndian_lt rest
    have hpos : 0 < 256 ^ rest.length := Nat.pow_pos (by decide)
    congr 1
    · apply BitVec.eq_of_toNat_eq
      rw [BitVec.toNat_ofNat, Nat.add_comm, Nat.add_mul_div_right _ _ hpos, Nat.div_eq_of_lt hlt, Nat.zero_add]
      exact Nat.mod_eq_of_lt b.isLt
    · rw [inj rest.length _ (bigEndian rest) (by simp), ih]

/-- A width's bytes hold exactly its bits (R12). -/
theorem Width.pow_bytes (w : Width) : 256 ^ w.bytes = 2 ^ w.bits := by
  have h : (256 : Nat) = 2 ^ 8 := by decide
  have hb : w.bits = 8 * w.bytes := by cases w <;> rfl
  rw [h, hb, ← pow_mul]

end Sys2Proof.Machine
end

