-- ==== Sys2Proof/Laws/Bni.lean ====
section
/-! SUPPORT. What the exact functions compute: modular powers (R21), inverses (R21), promotion and truncation (R211, R213),
floor division (R222, R223). -/

namespace Sys2Proof.Machine

/-! ## powMod -/

/-- The square-and-multiply loop on an exponent that fits its fuel. -/
theorem powModLoop_eq (fuel b e m acc : Nat) (hacc : acc % m = acc) (he : e < 2 ^ fuel) :
    powModLoop fuel b e m acc = acc * b ^ e % m := by
  induction fuel generalizing b e acc with
  | zero =>
    obtain rfl : e = 0 := by simpa using he
    simp [powModLoop, hacc]
  | succ k ih =>
    rw [powModLoop]
    by_cases h0 : e = 0
    · simp [h0, hacc]
    · rw [if_neg h0]
      have hacc' : (if e % 2 = 1 then acc * b % m else acc) % m = if e % 2 = 1 then acc * b % m else acc := by
        split
        · exact Nat.mod_mod _ _
        · exact hacc
      have he' : e / 2 < 2 ^ k := by
        rw [pow_succ] at he
        omega
      rw [ih (b * b % m) (e / 2) _ hacc' he']
      have hsq : (b * b % m) ^ (e / 2) ≡ (b * b) ^ (e / 2) [MOD m] := (Nat.mod_modEq _ _).pow _
      show _ ≡ _ [MOD m]
      rcases Nat.mod_two_eq_zero_or_one e with h | h
      · rw [if_neg (by omega)]
        refine (hsq.mul_left acc).trans ?_
        rw [← pow_two, ← pow_mul, show 2 * (e / 2) = e by omega]
      · rw [if_pos h]
        refine ((Nat.mod_modEq (acc * b) m).mul hsq).trans ?_
        rw [← pow_two, ← pow_mul, mul_assoc, ← pow_succ', show 2 * (e / 2) + 1 = e by omega]

/-- BNI pow is modular exponentiation (R21, R174). -/
theorem powMod_eq (b e m : Nat) : powMod b e m = b ^ e % m := by
  rw [powMod, powModLoop_eq _ _ _ _ _ (Nat.mod_mod _ _) Nat.lt_log2_self]
  exact ((Nat.mod_modEq 1 m).mul ((Nat.mod_modEq b m).pow e)).trans (by rw [one_mul])

theorem powMod_lt (b e m : Nat) (hm : 0 < m) : powMod b e m < m := by
  rw [powMod_eq]
  exact Nat.mod_lt _ hm

/-! ## modInv -/

/-- Extended Euclid: the gcd, and a coefficient of `a` that gives it modulo m. -/
theorem euclidLoop_spec (a m : Nat) (fuel r0 r1 : Nat) (s0 s1 : Int) (hfuel : r1 ≤ fuel)
    (h0 : s0 * a ≡ r0 [ZMOD m]) (h1 : s1 * a ≡ r1 [ZMOD m]) :
    (euclidLoop fuel r0 r1 s0 s1).1 = Nat.gcd r0 r1 ∧
      (euclidLoop fuel r0 r1 s0 s1).2 * a ≡ (euclidLoop fuel r0 r1 s0 s1).1 [ZMOD m] := by
  induction fuel generalizing r0 r1 s0 s1 with
  | zero =>
    obtain rfl : r1 = 0 := by omega
    simpa [euclidLoop] using h0
  | succ k ih =>
    rw [euclidLoop]
    by_cases hr : r1 = 0
    · subst hr
      simpa using h0
    · rw [if_neg hr]
      have hlt : r0 % r1 < r1 := Nat.mod_lt _ (Nat.pos_of_ne_zero hr)
      have hstep : (s0 - (r0 / r1 : Nat) * s1) * a ≡ ((r0 % r1 : Nat) : Int) [ZMOD m] := by
        have hdiv : ((r0 % r1 : Nat) : Int) = r0 - (r0 / r1 : Nat) * r1 := by
          have h := Nat.div_add_mod r0 r1
          push_cast
          rw [Int.emod_def]
          ring
        rw [hdiv, sub_mul, mul_assoc]
        exact h0.sub (h1.mul_left _)
      have h := ih r1 (r0 % r1) s1 (s0 - (r0 / r1 : Nat) * s1) (by omega) h1 hstep
      rw [Nat.gcd_comm r0 r1, Nat.gcd_rec r1 r0, Nat.gcd_comm (r0 % r1) r1]
      exact h

/-- `inv(a, m)` (R21): in [0, m), and `a·x mod m = 1 mod m`. -/
theorem modInv_spec (a m : Nat) (hm : 0 < m) (h : Nat.gcd a m = 1) :
    modInv a m < m ∧ a * modInv a m % m = 1 % m := by
  have hm' : (0 : Int) < m := by exact_mod_cast hm
  have h0 : (1 : Int) * a ≡ ((a % m : Nat) : Int) [ZMOD m] := by
    rw [one_mul]
    push_cast
    exact (Int.mod_modEq _ _).symm
  have h1 : (0 : Int) * a ≡ (m : Int) [ZMOD m] := by
    rw [zero_mul]
    exact (Int.modEq_zero_iff_dvd.mpr (dvd_refl _)).symm
  have hs := euclidLoop_spec a m m (a % m) m 1 0 (le_refl _) h0 h1
  have hg : Nat.gcd (a % m) m = 1 := by rw [← Nat.gcd_rec, Nat.gcd_comm, h]
  rw [hg] at hs
  have hnn := Int.emod_nonneg (euclidLoop m (a % m) m 1 0).2 (ne_of_gt hm')
  have hlt := Int.emod_lt_of_pos (euclidLoop m (a % m) m 1 0).2 hm'
  have hcast : ((modInv a m : Nat) : Int) = (euclidLoop m (a % m) m 1 0).2 % m := Int.toNat_of_nonneg hnn
  refine ⟨by omega, ?_⟩
  have hmod : ((a * modInv a m : Nat) : Int) ≡ ((1 : Nat) : Int) [ZMOD m] := by
    push_cast
    rw [hcast, mul_comm]
    refine ((Int.mod_modEq _ _).mul_right _).trans ?_
    have := hs.2
    rwa [hs.1] at this
  exact (Int.natCast_modEq_iff.mp hmod)

/-! ## The marshaler -/

/-- Promotion keeps a value that fits its width (R211). -/
theorem promote_eq (v : Nat) (w1 w2 : Width) (hv : v < 2 ^ w1.bits) : promote v w1 w2 = v := by
  rw [promote, bigEndian_append, bigEndian_zeroBytes, zero_mul, zero_add, bigEndian_toBigEndian, Width.pow_bytes,
    Nat.mod_eq_of_lt hv]

/-- Truncation to a narrower width is reduction modulo 2^W1 (R213). -/
theorem trunc_eq (v : Nat) (w2 w1 : Width) (h : w1.bytes ≤ w2.bytes) : trunc v w2 w1 = v % 2 ^ w1.bits := by
  obtain ⟨k, hk⟩ := Nat.exists_eq_add_of_le' h
  rw [trunc, hk, Nat.add_sub_cancel, toBigEndian_drop, bigEndian_toBigEndian, Width.pow_bytes]

/-- A truncated value fits its width. -/
theorem trunc_lt (v : Nat) (w2 w1 : Width) (h : w1.bytes ≤ w2.bytes) : trunc v w2 w1 < 2 ^ w1.bits := by
  rw [trunc_eq v w2 w1 h]
  exact Nat.mod_lt _ (Nat.pow_pos (by decide))

/-! ## The divider -/

/-- Step 3 of DivCore: some number j of doublings, the last of which overshot, or none. -/
theorem shiftUp_spec (fuel r s t : Nat) (hfuel : r < s * 2 ^ fuel) :
    ∃ j, shiftUp fuel r s t = (s * 2 ^ j, t * 2 ^ j) ∧ r < s * 2 ^ j ∧ (j = 0 ∨ s * 2 ^ j ≤ 2 * r) := by
  induction fuel generalizing s t with
  | zero => exact ⟨0, by simp [shiftUp], hfuel, .inl rfl⟩
  | succ k ih =>
    rw [shiftUp]
    by_cases h : s ≤ r
    · obtain ⟨j, h1, h2, h3⟩ := ih (2 * s) (2 * t) (by rw [pow_succ] at hfuel; nlinarith)
      have hs : 2 * s * 2 ^ j = s * 2 ^ (j + 1) := by rw [pow_succ]; ring
      have ht : 2 * t * 2 ^ j = t * 2 ^ (j + 1) := by rw [pow_succ]; ring
      refine ⟨j + 1, ?_, ?_, .inr ?_⟩
      · rw [if_pos h, h1, hs, ht]
      · omega
      · rcases h3 with rfl | h3 <;> omega
    · exact ⟨0, by simp [h], by omega, .inl rfl⟩

/-- One round's aligned divisor and digit (R221): the divisor times a power of two that fits in the remainder. -/
theorem shiftUp_aligned (r d : Nat) (hd : 0 < d) (h : d ≤ r) :
    ∃ j, (shiftUp (r + 1) r d 1).1 / 2 = d * 2 ^ j ∧ (shiftUp (r + 1) r d 1).2 / 2 = 2 ^ j ∧
      d * 2 ^ j ≤ r ∧ r < d * 2 ^ (j + 1) := by
  obtain ⟨j, h1, h2, h3⟩ := shiftUp_spec (r + 1) r d 1
    (lt_of_lt_of_le (Nat.lt_succ_self r |>.trans Nat.lt_two_pow_self) (Nat.le_mul_of_pos_left _ hd))
  cases j with
  | zero => simp at h2; omega
  | succ j =>
    have h3 : d * 2 ^ (j + 1) ≤ 2 * r := h3.resolve_left (Nat.succ_ne_zero j)
    have hs : d * 2 ^ (j + 1) = 2 * (d * 2 ^ j) := by rw [pow_succ]; ring
    have ht : 1 * 2 ^ (j + 1) = 2 * 2 ^ j := by rw [pow_succ]; ring
    refine ⟨j, ?_, ?_, by omega, h2⟩
    · rw [h1]
      omega
    · rw [h1]
      omega

/-- The outer loop keeps `q·d + r` and ends with a remainder below the divisor (R222). -/
theorem divLoop_spec (fuel d r q : Nat) (hd : 0 < d) (hfuel : r < fuel) :
    (divLoop fuel d r q).1 * d + (divLoop fuel d r q).2 = q * d + r ∧ (divLoop fuel d r q).2 < d := by
  induction fuel generalizing r q with
  | zero => omega
  | succ k ih =>
    rw [divLoop]
    by_cases h : d ≤ r
    · obtain ⟨j, h1, h2, h3, _⟩ := shiftUp_aligned r d hd h
      rw [if_pos h, h1, h2]
      have hpos : 0 < d * 2 ^ j := Nat.mul_pos hd (Nat.pow_pos (by decide))
      obtain ⟨e1, e2⟩ := ih (r - d * 2 ^ j) (q + 2 ^ j) (by omega)
      refine ⟨?_, e2⟩
      rw [e1, add_mul, mul_comm (2 ^ j) d]
      omega
    · rw [if_neg h]
      exact ⟨rfl, by omega⟩

/-- DivCore is exact floor division (R222). -/
theorem divCore_eq (n d : Nat) (hd : 0 < d) : divCore n d = (n / d, n % d) := by
  have key : (divCore n d).1 * d + (divCore n d).2 = n ∧ (divCore n d).2 < d := by
    rw [divCore]
    by_cases h : n < d
    · rw [if_pos h]
      exact ⟨by omega, h⟩
    · rw [if_neg h]
      have := divLoop_spec (n + 1) d n 0 hd (Nat.lt_succ_self n)
      exact ⟨by omega, this.2⟩
  have hq : n / d = (divCore n d).1 :=
    Nat.div_eq_of_lt_le (by omega) (by rw [add_mul, one_mul]; omega)
  have hr : n % d = (divCore n d).2 := by
    have := Nat.div_add_mod n d
    rw [hq, mul_comm] at this
    omega
  rw [hq, hr]

end Sys2Proof.Machine
end

