-- ==== Sys2Proof/Laws/Memory.lean ====
section
/-! SUPPORT. The laws of octet memory: what a read gives after a write, and that a write keeps the canonical form. -/

namespace Sys2Proof.Machine

theorem Memory.read_nil (a : Nat) : Memory.read [] a = unlistedByte := rfl

theorem Memory.read_cons (c : Host.Cell) (m : Memory) (a : Nat) :
    Memory.read (c :: m) a = if c.1 = a then c.2 else Memory.read m a := rfl

/-- An address with no cell reads as unlisted. -/
theorem Memory.read_of_not_mem (m : Memory) (a : Nat) (h : ∀ c ∈ m, c.1 ≠ a) : Memory.read m a = unlistedByte := by
  induction m with
  | nil => rfl
  | cons c rest ih =>
    rw [Memory.read_cons, if_neg (h c List.mem_cons_self), ih (fun d hd => h d (List.mem_cons_of_mem _ hd))]

/-- Reading past a part with no cell at the address. -/
theorem Memory.read_append_left (m n : Memory) (a : Nat) (h : ∀ c ∈ m, c.1 ≠ a) :
    Memory.read (m ++ n) a = Memory.read n a := by
  induction m with
  | nil => rfl
  | cons c rest ih =>
    rw [List.cons_append, Memory.read_cons, if_neg (h c List.mem_cons_self),
      ih (fun d hd => h d (List.mem_cons_of_mem _ hd))]

/-- Reading before a part with no cell at the address. -/
theorem Memory.read_append_right (m n : Memory) (a : Nat) (h : ∀ c ∈ n, c.1 ≠ a) :
    Memory.read (m ++ n) a = Memory.read m a := by
  induction m with
  | nil => exact Memory.read_of_not_mem n a h
  | cons c rest ih => rw [List.cons_append, Memory.read_cons, Memory.read_cons, ih]

/-- Cells dropped by a test that keeps the address's cells do not matter to its read. -/
theorem Memory.read_filter (m : Memory) (a : Nat) (keep : Host.Cell → Bool) (h : ∀ c ∈ m, c.1 = a → keep c = true) :
    Memory.read (m.filter keep) a = Memory.read m a := by
  induction m with
  | nil => rfl
  | cons c rest ih =>
    have ih' := ih (fun d hd => h d (List.mem_cons_of_mem _ hd))
    by_cases hk : keep c = true
    · rw [List.filter_cons_of_pos hk, Memory.read_cons, Memory.read_cons, ih']
    · have hc : c.1 ≠ a := fun e => hk (h c List.mem_cons_self e)
      rw [List.filter_cons_of_neg hk, Memory.read_cons, if_neg hc, ih']

/-- A string's cells lie in its range and hold no unlisted byte. -/
theorem Memory.mem_cells (bytes : List Byte) (a : Nat) (c : Host.Cell) (h : c ∈ Memory.cells a bytes) :
    a ≤ c.1 ∧ c.1 < a + bytes.length ∧ c.2 ≠ unlistedByte := by
  induction bytes generalizing a with
  | nil => cases h
  | cons v rest ih =>
    rw [Memory.cells] at h
    rw [List.length_cons]
    by_cases hv : v = unlistedByte
    · rw [if_pos hv] at h
      obtain ⟨h1, h2, h3⟩ := ih _ h
      exact ⟨by omega, by omega, h3⟩
    · rw [if_neg hv] at h
      rcases List.mem_cons.mp h with rfl | h
      · exact ⟨le_refl _, by show a < _; omega, hv⟩
      · obtain ⟨h1, h2, h3⟩ := ih _ h
        exact ⟨by omega, by omega, h3⟩

theorem Memory.cells_sorted (bytes : List Byte) (a : Nat) : (Memory.cells a bytes).Pairwise (fun c d => c.1 < d.1) := by
  induction bytes generalizing a with
  | nil => exact List.Pairwise.nil
  | cons v rest ih =>
    rw [Memory.cells]
    split
    · exact ih _
    · refine List.Pairwise.cons (fun c hc => ?_) (ih _)
      have h := (Memory.mem_cells rest (a + 1) c hc).1
      show a < c.1
      omega

/-- A string's cells read back as the string. -/
theorem Memory.read_cells (bytes : List Byte) (a k : Nat) (h : k < bytes.length) :
    Memory.read (Memory.cells a bytes) (a + k) = bytes[k] := by
  induction bytes generalizing a k with
  | nil => cases h
  | cons v rest ih =>
    rw [Memory.cells]
    cases k with
    | zero =>
      have hout : ∀ c ∈ Memory.cells (a + 1) rest, c.1 ≠ a := by
        intro c hc
        have := (Memory.mem_cells rest (a + 1) c hc).1
        omega
      split
      · rename_i hv
        exact (Memory.read_of_not_mem _ _ hout).trans hv.symm
      · exact (Memory.read_cons _ _ _).trans (if_pos rfl)
    | succ j =>
      have hj : j < rest.length := by simpa using h
      have ih' : Memory.read (Memory.cells (a + 1) rest) (a + (j + 1)) = rest[j] := by
        rw [show a + (j + 1) = a + 1 + j by omega]
        exact ih (a + 1) j hj
      split
      · rw [ih', List.getElem_cons_succ]
      · rw [Memory.read_cons, if_neg (by show a ≠ a + (j + 1); omega), ih', List.getElem_cons_succ]

/-- The cells of a written memory: old cells outside the range, new cells inside it. -/
theorem Memory.mem_write (m : Memory) (a : Nat) (bytes : List Byte) (c : Host.Cell) (h : c ∈ Memory.write m a bytes) :
    (c ∈ m ∧ (c.1 < a ∨ a + bytes.length ≤ c.1)) ∨ c ∈ Memory.cells a bytes := by
  simp only [Memory.write, List.mem_append, List.mem_filter, decide_eq_true_eq] at h
  tauto

/-- Reading inside the written range gives the written byte (R88). -/
theorem Memory.read_write_inside (m : Memory) (a k : Nat) (bytes : List Byte) (h : k < bytes.length) :
    Memory.read (Memory.write m a bytes) (a + k) = bytes[k] := by
  rw [Memory.write, Memory.read_append_right, Memory.read_append_left, Memory.read_cells _ _ _ h]
  · intro c hc
    have := (List.mem_filter.mp hc).2
    simp only [decide_eq_true_eq] at this
    omega
  · intro c hc
    have := (List.mem_filter.mp hc).2
    simp only [decide_eq_true_eq] at this
    omega

/-- Reading outside the written range gives what was there. -/
theorem Memory.read_write_outside (m : Memory) (a b : Nat) (bytes : List Byte) (h : b < a ∨ a + bytes.length ≤ b) :
    Memory.read (Memory.write m a bytes) b = Memory.read m b := by
  have hcells : ∀ c ∈ Memory.cells a bytes, c.1 ≠ b := by
    intro c hc
    have := Memory.mem_cells bytes a c hc
    omega
  rcases h with h | h
  · rw [Memory.write, Memory.read_append_right, Memory.read_append_right _ _ _ hcells]
    · exact Memory.read_filter _ _ _ (fun c _ e => by simp only [decide_eq_true_eq]; omega)
    · intro c hc
      have := (List.mem_filter.mp hc).2
      simp only [decide_eq_true_eq] at this
      omega
  · rw [Memory.write, Memory.read_append_left]
    · exact Memory.read_filter _ _ _ (fun c _ e => by simp only [decide_eq_true_eq]; omega)
    · intro c hc
      rcases List.mem_append.mp hc with hc | hc
      · have := (List.mem_filter.mp hc).2
        simp only [decide_eq_true_eq] at this
        omega
      · exact hcells c hc

/-- A write keeps the canonical form. -/
theorem Memory.write_wf (m : Memory) (a : Nat) (bytes : List Byte) (h : Memory.wf m) : Memory.wf (Memory.write m a bytes) := by
  refine ⟨?_, fun c hc => ?_⟩
  · rw [Memory.write, List.pairwise_append, List.pairwise_append]
    refine ⟨⟨h.1.filter _, Memory.cells_sorted bytes a, fun c hc d hd => ?_⟩, h.1.filter _, fun c hc d hd => ?_⟩
    · have h1 := (List.mem_filter.mp hc).2
      have h2 := (Memory.mem_cells bytes a d hd).1
      simp only [decide_eq_true_eq] at h1
      omega
    · have h2 := (List.mem_filter.mp hd).2
      simp only [decide_eq_true_eq] at h2
      rcases List.mem_append.mp hc with hc | hc
      · have h1 := (List.mem_filter.mp hc).2
        simp only [decide_eq_true_eq] at h1
        omega
      · have h1 := (Memory.mem_cells bytes a c hc).2.1
        omega
  · rcases Memory.mem_write m a bytes c hc with ⟨hm, _⟩ | hm
    · exact h.2 c hm
    · exact (Memory.mem_cells bytes a c hm).2.2

/-- Reset memory has the canonical form. -/
theorem Memory.reset_wf : Memory.wf State.reset.mem := ⟨List.Pairwise.nil, fun _ h => by cases h⟩

end Sys2Proof.Machine
end

