-- ==== Sys2Proof/Laws/State.lean ====
section
/-! SUPPORT. One lemma per field per update of the state, true by rfl. -/

namespace Sys2Proof.Machine

variable (s : State)

/-! ## setReg -/

@[simp] theorem setReg_params (i : BReg) (r : WideReg) : (setReg s i r).params = s.params := rfl
@[simp] theorem setReg_regs (i : BReg) (r : WideReg) : (setReg s i r).regs = s.regs.set i r := rfl
@[simp] theorem setReg_octLen (i : BReg) (r : WideReg) : (setReg s i r).octLen = s.octLen := rfl
@[simp] theorem setReg_mem (i : BReg) (r : WideReg) : (setReg s i r).mem = s.mem := rfl
@[simp] theorem setReg_pk (i : BReg) (r : WideReg) : (setReg s i r).pk = s.pk := rfl
@[simp] theorem setReg_sk (i : BReg) (r : WideReg) : (setReg s i r).sk = s.sk := rfl
@[simp] theorem setReg_rngs (i : BReg) (r : WideReg) : (setReg s i r).rngs = s.rngs := rfl
@[simp] theorem setReg_cmd (i : BReg) (r : WideReg) : (setReg s i r).cmd = s.cmd := rfl
@[simp] theorem setReg_status (i : BReg) (r : WideReg) : (setReg s i r).status = s.status := rfl
@[simp] theorem setReg_faultCmd (i : BReg) (r : WideReg) : (setReg s i r).faultCmd = s.faultCmd := rfl
@[simp] theorem setReg_cappol (i : BReg) (r : WideReg) : (setReg s i r).cappol = s.cappol := rfl
@[simp] theorem setReg_scratch (i : BReg) (r : WideReg) : (setReg s i r).scratch = s.scratch := rfl
@[simp] theorem setReg_rng (i : BReg) (r : WideReg) : (setReg s i r).rng = s.rng := rfl
@[simp] theorem setReg_inputs (i : BReg) (r : WideReg) : (setReg s i r).inputs = s.inputs := rfl
@[simp] theorem setReg_port (i : BReg) (r : WideReg) : (setReg s i r).port = s.port := rfl
@[simp] theorem setReg_replies (i : BReg) (r : WideReg) : (setReg s i r).replies = s.replies := rfl

/-! ## putOctet -/

@[simp] theorem putOctet_params (i : OReg) (pos : Nat) (bytes : List Byte) (len : Nat) : (putOctet s i pos bytes len).params = s.params := rfl
@[simp] theorem putOctet_regs (i : OReg) (pos : Nat) (bytes : List Byte) (len : Nat) : (putOctet s i pos bytes len).regs = s.regs := rfl
@[simp] theorem putOctet_octLen (i : OReg) (pos : Nat) (bytes : List Byte) (len : Nat) : (putOctet s i pos bytes len).octLen = s.octLen.set i len := rfl
@[simp] theorem putOctet_mem (i : OReg) (pos : Nat) (bytes : List Byte) (len : Nat) : (putOctet s i pos bytes len).mem = Memory.write s.mem (octAddr i pos) bytes := rfl
@[simp] theorem putOctet_pk (i : OReg) (pos : Nat) (bytes : List Byte) (len : Nat) : (putOctet s i pos bytes len).pk = s.pk := rfl
@[simp] theorem putOctet_sk (i : OReg) (pos : Nat) (bytes : List Byte) (len : Nat) : (putOctet s i pos bytes len).sk = s.sk := rfl
@[simp] theorem putOctet_rngs (i : OReg) (pos : Nat) (bytes : List Byte) (len : Nat) : (putOctet s i pos bytes len).rngs = s.rngs := rfl
@[simp] theorem putOctet_cmd (i : OReg) (pos : Nat) (bytes : List Byte) (len : Nat) : (putOctet s i pos bytes len).cmd = s.cmd := rfl
@[simp] theorem putOctet_status (i : OReg) (pos : Nat) (bytes : List Byte) (len : Nat) : (putOctet s i pos bytes len).status = s.status := rfl
@[simp] theorem putOctet_faultCmd (i : OReg) (pos : Nat) (bytes : List Byte) (len : Nat) : (putOctet s i pos bytes len).faultCmd = s.faultCmd := rfl
@[simp] theorem putOctet_cappol (i : OReg) (pos : Nat) (bytes : List Byte) (len : Nat) : (putOctet s i pos bytes len).cappol = s.cappol := rfl
@[simp] theorem putOctet_scratch (i : OReg) (pos : Nat) (bytes : List Byte) (len : Nat) : (putOctet s i pos bytes len).scratch = s.scratch := rfl
@[simp] theorem putOctet_rng (i : OReg) (pos : Nat) (bytes : List Byte) (len : Nat) : (putOctet s i pos bytes len).rng = s.rng := rfl
@[simp] theorem putOctet_inputs (i : OReg) (pos : Nat) (bytes : List Byte) (len : Nat) : (putOctet s i pos bytes len).inputs = s.inputs := rfl
@[simp] theorem putOctet_port (i : OReg) (pos : Nat) (bytes : List Byte) (len : Nat) : (putOctet s i pos bytes len).port = s.port := rfl
@[simp] theorem putOctet_replies (i : OReg) (pos : Nat) (bytes : List Byte) (len : Nat) : (putOctet s i pos bytes len).replies = s.replies := rfl

/-! ## raise -/

@[simp] theorem raise_params (code : FaultCode) : (raise code s).params = s.params := rfl
@[simp] theorem raise_regs (code : FaultCode) : (raise code s).regs = s.regs := rfl
@[simp] theorem raise_octLen (code : FaultCode) : (raise code s).octLen = s.octLen := rfl
@[simp] theorem raise_mem (code : FaultCode) : (raise code s).mem = s.mem := rfl
@[simp] theorem raise_pk (code : FaultCode) : (raise code s).pk = s.pk := rfl
@[simp] theorem raise_sk (code : FaultCode) : (raise code s).sk = s.sk := rfl
@[simp] theorem raise_rngs (code : FaultCode) : (raise code s).rngs = s.rngs := rfl
@[simp] theorem raise_cmd (code : FaultCode) : (raise code s).cmd = none := rfl
@[simp] theorem raise_status (code : FaultCode) : (raise code s).status = { s.status with fault := true, fcode := code, done := false } := rfl
@[simp] theorem raise_faultCmd (code : FaultCode) : (raise code s).faultCmd = s.cmd.getD s.faultCmd := rfl
@[simp] theorem raise_cappol (code : FaultCode) : (raise code s).cappol = s.cappol := rfl
@[simp] theorem raise_scratch (code : FaultCode) : (raise code s).scratch = Scratch.cleared := rfl
@[simp] theorem raise_rng (code : FaultCode) : (raise code s).rng = s.rng := rfl
@[simp] theorem raise_inputs (code : FaultCode) : (raise code s).inputs = s.inputs := rfl
@[simp] theorem raise_port (code : FaultCode) : (raise code s).port = s.port := rfl
@[simp] theorem raise_replies (code : FaultCode) : (raise code s).replies = s.replies := rfl

/-! ## complete -/

@[simp] theorem complete_params : (complete s).params = s.params := rfl
@[simp] theorem complete_regs : (complete s).regs = s.regs := rfl
@[simp] theorem complete_octLen : (complete s).octLen = s.octLen := rfl
@[simp] theorem complete_mem : (complete s).mem = s.mem := rfl
@[simp] theorem complete_pk : (complete s).pk = s.pk := rfl
@[simp] theorem complete_sk : (complete s).sk = s.sk := rfl
@[simp] theorem complete_rngs : (complete s).rngs = s.rngs := rfl
@[simp] theorem complete_cmd : (complete s).cmd = none := rfl
@[simp] theorem complete_status : (complete s).status = { s.status with done := true } := rfl
@[simp] theorem complete_faultCmd : (complete s).faultCmd = s.faultCmd := rfl
@[simp] theorem complete_cappol : (complete s).cappol = s.cappol := rfl
@[simp] theorem complete_scratch : (complete s).scratch = Scratch.cleared := rfl
@[simp] theorem complete_rng : (complete s).rng = s.rng := rfl
@[simp] theorem complete_inputs : (complete s).inputs = s.inputs := rfl
@[simp] theorem complete_port : (complete s).port = s.port := rfl
@[simp] theorem complete_replies : (complete s).replies = s.replies := rfl

/-! ## clearFault -/

@[simp] theorem clearFault_params : (clearFault s).params = s.params := rfl
@[simp] theorem clearFault_regs : (clearFault s).regs = s.regs := rfl
@[simp] theorem clearFault_octLen : (clearFault s).octLen = s.octLen := rfl
@[simp] theorem clearFault_mem : (clearFault s).mem = s.mem := rfl
@[simp] theorem clearFault_pk : (clearFault s).pk = s.pk := rfl
@[simp] theorem clearFault_sk : (clearFault s).sk = s.sk := rfl
@[simp] theorem clearFault_rngs : (clearFault s).rngs = s.rngs := rfl
@[simp] theorem clearFault_cmd : (clearFault s).cmd = s.cmd := rfl
@[simp] theorem clearFault_status : (clearFault s).status = { s.status with fault := false, fcode := .none } := rfl
@[simp] theorem clearFault_faultCmd : (clearFault s).faultCmd = s.faultCmd := rfl
@[simp] theorem clearFault_cappol : (clearFault s).cappol = s.cappol := rfl
@[simp] theorem clearFault_scratch : (clearFault s).scratch = s.scratch := rfl
@[simp] theorem clearFault_rng : (clearFault s).rng = s.rng := rfl
@[simp] theorem clearFault_inputs : (clearFault s).inputs = s.inputs := rfl
@[simp] theorem clearFault_port : (clearFault s).port = s.port := rfl
@[simp] theorem clearFault_replies : (clearFault s).replies = s.replies := rfl

/-! ## accept -/

@[simp] theorem accept_params (w : Word) : (accept w s).params = s.params := rfl
@[simp] theorem accept_regs (w : Word) : (accept w s).regs = s.regs := rfl
@[simp] theorem accept_octLen (w : Word) : (accept w s).octLen = s.octLen := rfl
@[simp] theorem accept_mem (w : Word) : (accept w s).mem = s.mem := rfl
@[simp] theorem accept_pk (w : Word) : (accept w s).pk = s.pk := rfl
@[simp] theorem accept_sk (w : Word) : (accept w s).sk = s.sk := rfl
@[simp] theorem accept_rngs (w : Word) : (accept w s).rngs = s.rngs := rfl
@[simp] theorem accept_cmd (w : Word) : (accept w s).cmd = some w := rfl
@[simp] theorem accept_status (w : Word) : (accept w s).status = { s.status with done := false } := rfl
@[simp] theorem accept_faultCmd (w : Word) : (accept w s).faultCmd = s.faultCmd := rfl
@[simp] theorem accept_cappol (w : Word) : (accept w s).cappol = s.cappol := rfl
@[simp] theorem accept_scratch (w : Word) : (accept w s).scratch = s.scratch := rfl
@[simp] theorem accept_rng (w : Word) : (accept w s).rng = s.rng := rfl
@[simp] theorem accept_inputs (w : Word) : (accept w s).inputs = s.inputs := rfl
@[simp] theorem accept_port (w : Word) : (accept w s).port = s.port := rfl
@[simp] theorem accept_replies (w : Word) : (accept w s).replies = s.replies := rfl

/-! ## setCmp -/

@[simp] theorem setCmp_params (c : CmpResult) : (setCmp s c).params = s.params := rfl
@[simp] theorem setCmp_regs (c : CmpResult) : (setCmp s c).regs = s.regs := rfl
@[simp] theorem setCmp_octLen (c : CmpResult) : (setCmp s c).octLen = s.octLen := rfl
@[simp] theorem setCmp_mem (c : CmpResult) : (setCmp s c).mem = s.mem := rfl
@[simp] theorem setCmp_pk (c : CmpResult) : (setCmp s c).pk = s.pk := rfl
@[simp] theorem setCmp_sk (c : CmpResult) : (setCmp s c).sk = s.sk := rfl
@[simp] theorem setCmp_rngs (c : CmpResult) : (setCmp s c).rngs = s.rngs := rfl
@[simp] theorem setCmp_cmd (c : CmpResult) : (setCmp s c).cmd = s.cmd := rfl
@[simp] theorem setCmp_status (c : CmpResult) : (setCmp s c).status = { s.status with cmp := c } := rfl
@[simp] theorem setCmp_faultCmd (c : CmpResult) : (setCmp s c).faultCmd = s.faultCmd := rfl
@[simp] theorem setCmp_cappol (c : CmpResult) : (setCmp s c).cappol = s.cappol := rfl
@[simp] theorem setCmp_scratch (c : CmpResult) : (setCmp s c).scratch = s.scratch := rfl
@[simp] theorem setCmp_rng (c : CmpResult) : (setCmp s c).rng = s.rng := rfl
@[simp] theorem setCmp_inputs (c : CmpResult) : (setCmp s c).inputs = s.inputs := rfl
@[simp] theorem setCmp_port (c : CmpResult) : (setCmp s c).port = s.port := rfl
@[simp] theorem setCmp_replies (c : CmpResult) : (setCmp s c).replies = s.replies := rfl

/-! ## setEq -/

@[simp] theorem setEq_params (b : Bool) : (setEq s b).params = s.params := rfl
@[simp] theorem setEq_regs (b : Bool) : (setEq s b).regs = s.regs := rfl
@[simp] theorem setEq_octLen (b : Bool) : (setEq s b).octLen = s.octLen := rfl
@[simp] theorem setEq_mem (b : Bool) : (setEq s b).mem = s.mem := rfl
@[simp] theorem setEq_pk (b : Bool) : (setEq s b).pk = s.pk := rfl
@[simp] theorem setEq_sk (b : Bool) : (setEq s b).sk = s.sk := rfl
@[simp] theorem setEq_rngs (b : Bool) : (setEq s b).rngs = s.rngs := rfl
@[simp] theorem setEq_cmd (b : Bool) : (setEq s b).cmd = s.cmd := rfl
@[simp] theorem setEq_status (b : Bool) : (setEq s b).status = { s.status with eq := b } := rfl
@[simp] theorem setEq_faultCmd (b : Bool) : (setEq s b).faultCmd = s.faultCmd := rfl
@[simp] theorem setEq_cappol (b : Bool) : (setEq s b).cappol = s.cappol := rfl
@[simp] theorem setEq_scratch (b : Bool) : (setEq s b).scratch = s.scratch := rfl
@[simp] theorem setEq_rng (b : Bool) : (setEq s b).rng = s.rng := rfl
@[simp] theorem setEq_inputs (b : Bool) : (setEq s b).inputs = s.inputs := rfl
@[simp] theorem setEq_port (b : Bool) : (setEq s b).port = s.port := rfl
@[simp] theorem setEq_replies (b : Bool) : (setEq s b).replies = s.replies := rfl

/-! ## setPrime -/

@[simp] theorem setPrime_params (b : Bool) : (setPrime s b).params = s.params := rfl
@[simp] theorem setPrime_regs (b : Bool) : (setPrime s b).regs = s.regs := rfl
@[simp] theorem setPrime_octLen (b : Bool) : (setPrime s b).octLen = s.octLen := rfl
@[simp] theorem setPrime_mem (b : Bool) : (setPrime s b).mem = s.mem := rfl
@[simp] theorem setPrime_pk (b : Bool) : (setPrime s b).pk = s.pk := rfl
@[simp] theorem setPrime_sk (b : Bool) : (setPrime s b).sk = s.sk := rfl
@[simp] theorem setPrime_rngs (b : Bool) : (setPrime s b).rngs = s.rngs := rfl
@[simp] theorem setPrime_cmd (b : Bool) : (setPrime s b).cmd = s.cmd := rfl
@[simp] theorem setPrime_status (b : Bool) : (setPrime s b).status = { s.status with prime := b } := rfl
@[simp] theorem setPrime_faultCmd (b : Bool) : (setPrime s b).faultCmd = s.faultCmd := rfl
@[simp] theorem setPrime_cappol (b : Bool) : (setPrime s b).cappol = s.cappol := rfl
@[simp] theorem setPrime_scratch (b : Bool) : (setPrime s b).scratch = s.scratch := rfl
@[simp] theorem setPrime_rng (b : Bool) : (setPrime s b).rng = s.rng := rfl
@[simp] theorem setPrime_inputs (b : Bool) : (setPrime s b).inputs = s.inputs := rfl
@[simp] theorem setPrime_port (b : Bool) : (setPrime s b).port = s.port := rfl
@[simp] theorem setPrime_replies (b : Bool) : (setPrime s b).replies = s.replies := rfl

/-! ## setBerr -/

@[simp] theorem setBerr_params : (setBerr s).params = s.params := rfl
@[simp] theorem setBerr_regs : (setBerr s).regs = s.regs := rfl
@[simp] theorem setBerr_octLen : (setBerr s).octLen = s.octLen := rfl
@[simp] theorem setBerr_mem : (setBerr s).mem = s.mem := rfl
@[simp] theorem setBerr_pk : (setBerr s).pk = s.pk := rfl
@[simp] theorem setBerr_sk : (setBerr s).sk = s.sk := rfl
@[simp] theorem setBerr_rngs : (setBerr s).rngs = s.rngs := rfl
@[simp] theorem setBerr_cmd : (setBerr s).cmd = s.cmd := rfl
@[simp] theorem setBerr_status : (setBerr s).status = { s.status with berr := true } := rfl
@[simp] theorem setBerr_faultCmd : (setBerr s).faultCmd = s.faultCmd := rfl
@[simp] theorem setBerr_cappol : (setBerr s).cappol = s.cappol := rfl
@[simp] theorem setBerr_scratch : (setBerr s).scratch = s.scratch := rfl
@[simp] theorem setBerr_rng : (setBerr s).rng = s.rng := rfl
@[simp] theorem setBerr_inputs : (setBerr s).inputs = s.inputs := rfl
@[simp] theorem setBerr_port : (setBerr s).port = s.port := rfl
@[simp] theorem setBerr_replies : (setBerr s).replies = s.replies := rfl

/-! ## reply -/

@[simp] theorem reply_params (r : Reply) : (reply r s).params = s.params := rfl
@[simp] theorem reply_regs (r : Reply) : (reply r s).regs = s.regs := rfl
@[simp] theorem reply_octLen (r : Reply) : (reply r s).octLen = s.octLen := rfl
@[simp] theorem reply_mem (r : Reply) : (reply r s).mem = s.mem := rfl
@[simp] theorem reply_pk (r : Reply) : (reply r s).pk = s.pk := rfl
@[simp] theorem reply_sk (r : Reply) : (reply r s).sk = s.sk := rfl
@[simp] theorem reply_rngs (r : Reply) : (reply r s).rngs = s.rngs := rfl
@[simp] theorem reply_cmd (r : Reply) : (reply r s).cmd = s.cmd := rfl
@[simp] theorem reply_status (r : Reply) : (reply r s).status = s.status := rfl
@[simp] theorem reply_faultCmd (r : Reply) : (reply r s).faultCmd = s.faultCmd := rfl
@[simp] theorem reply_cappol (r : Reply) : (reply r s).cappol = s.cappol := rfl
@[simp] theorem reply_scratch (r : Reply) : (reply r s).scratch = s.scratch := rfl
@[simp] theorem reply_rng (r : Reply) : (reply r s).rng = s.rng := rfl
@[simp] theorem reply_inputs (r : Reply) : (reply r s).inputs = s.inputs := rfl
@[simp] theorem reply_port (r : Reply) : (reply r s).port = s.port := rfl
@[simp] theorem reply_replies (r : Reply) : (reply r s).replies = s.replies ++ [r] := rfl

/-! ## setKeys -/

@[simp] theorem setKeys_params (k : PubKey × PrivKey) : (setKeys s k).params = s.params := rfl
@[simp] theorem setKeys_regs (k : PubKey × PrivKey) : (setKeys s k).regs = s.regs := rfl
@[simp] theorem setKeys_octLen (k : PubKey × PrivKey) : (setKeys s k).octLen = s.octLen := rfl
@[simp] theorem setKeys_mem (k : PubKey × PrivKey) : (setKeys s k).mem = s.mem := rfl
@[simp] theorem setKeys_pk (k : PubKey × PrivKey) : (setKeys s k).pk = k.1 := rfl
@[simp] theorem setKeys_sk (k : PubKey × PrivKey) : (setKeys s k).sk = k.2 := rfl
@[simp] theorem setKeys_rngs (k : PubKey × PrivKey) : (setKeys s k).rngs = s.rngs := rfl
@[simp] theorem setKeys_cmd (k : PubKey × PrivKey) : (setKeys s k).cmd = s.cmd := rfl
@[simp] theorem setKeys_status (k : PubKey × PrivKey) : (setKeys s k).status = s.status := rfl
@[simp] theorem setKeys_faultCmd (k : PubKey × PrivKey) : (setKeys s k).faultCmd = s.faultCmd := rfl
@[simp] theorem setKeys_cappol (k : PubKey × PrivKey) : (setKeys s k).cappol = s.cappol := rfl
@[simp] theorem setKeys_scratch (k : PubKey × PrivKey) : (setKeys s k).scratch = s.scratch := rfl
@[simp] theorem setKeys_rng (k : PubKey × PrivKey) : (setKeys s k).rng = s.rng := rfl
@[simp] theorem setKeys_inputs (k : PubKey × PrivKey) : (setKeys s k).inputs = s.inputs := rfl
@[simp] theorem setKeys_port (k : PubKey × PrivKey) : (setKeys s k).port = s.port := rfl
@[simp] theorem setKeys_replies (k : PubKey × PrivKey) : (setKeys s k).replies = s.replies := rfl

/-! ## platformReset -/

@[simp] theorem platformReset_params : (platformReset s).params = s.params := rfl
@[simp] theorem platformReset_regs : (platformReset s).regs = State.reset.regs := rfl
@[simp] theorem platformReset_octLen : (platformReset s).octLen = State.reset.octLen := rfl
@[simp] theorem platformReset_mem : (platformReset s).mem = State.reset.mem := rfl
@[simp] theorem platformReset_pk : (platformReset s).pk = State.reset.pk := rfl
@[simp] theorem platformReset_sk : (platformReset s).sk = State.reset.sk := rfl
@[simp] theorem platformReset_rngs : (platformReset s).rngs = State.reset.rngs := rfl
@[simp] theorem platformReset_cmd : (platformReset s).cmd = State.reset.cmd := rfl
@[simp] theorem platformReset_status : (platformReset s).status = State.reset.status := rfl
@[simp] theorem platformReset_faultCmd : (platformReset s).faultCmd = State.reset.faultCmd := rfl
@[simp] theorem platformReset_cappol : (platformReset s).cappol = State.reset.cappol := rfl
@[simp] theorem platformReset_scratch : (platformReset s).scratch = State.reset.scratch := rfl
@[simp] theorem platformReset_rng : (platformReset s).rng = s.rng := rfl
@[simp] theorem platformReset_inputs : (platformReset s).inputs = s.inputs := rfl
@[simp] theorem platformReset_port : (platformReset s).port = State.reset.port := rfl
@[simp] theorem platformReset_replies : (platformReset s).replies = s.replies := rfl

end Sys2Proof.Machine
end

