-- ==== Sys2Proof/Laws/Ops.lean ====
section
/-! SUPPORT. What the shared operations answer: registers, octets, the operand check, `require`, `octStore`, the end of a command,
the draws. -/

namespace Sys2Proof.Machine

/-! ## Except -/

@[simp] theorem except_ok_bind {ε α β : Type} (a : α) (f : α → Except ε β) : (Except.ok a >>= f) = f a := rfl

@[simp] theorem except_error_bind {ε α β : Type} (e : ε) (f : α → Except ε β) :
    ((Except.error e : Except ε α) >>= f) = Except.error e := rfl

@[simp] theorem except_pure {ε α : Type} (a : α) : (pure a : Except ε α) = Except.ok a := rfl

/-- A sequence that answers, answers at its first part. -/
theorem except_bind_eq_ok {ε α β : Type} (x : Except ε α) (f : α → Except ε β) (b : β) :
    (x >>= f) = Except.ok b ↔ ∃ a, x = Except.ok a ∧ f a = Except.ok b := by
  cases x with
  | error e => exact ⟨fun h => (Except.noConfusion rfl rfl (heq_of_eq h)), fun ⟨_, h, _⟩ => (Except.noConfusion rfl rfl (heq_of_eq h))⟩
  | ok a => exact ⟨fun h => ⟨a, rfl, h⟩, fun ⟨a', h, h'⟩ => by cases h; exact h'⟩

/-! ## Registers -/

@[simp] theorem reg_setReg_self (s : State) (i : BReg) (r : WideReg) : reg (setReg s i r) i = r := by
  simp [reg, setReg]

theorem reg_setReg_ne (s : State) (i j : BReg) (r : WideReg) (h : i ≠ j) : reg (setReg s i r) j = reg s j := by
  have h' : i.val ≠ j.val := fun e => h (Fin.ext e)
  simp [reg, setReg, h']

/-- The register file after a write. -/
theorem reg_setReg (s : State) (i j : BReg) (r : WideReg) : reg (setReg s i r) j = if i = j then r else reg s j := by
  split
  · rename_i h
    rw [← h, reg_setReg_self]
  · rename_i h
    exact reg_setReg_ne s i j r h

@[simp] theorem WideReg.tag_eq_none (r : WideReg) : r.tag = none ↔ r = .unwritten := by
  cases r <;> simp [WideReg.tag]

/-- A written, normalized record of a tag is that tag's normal record. -/
theorem WideReg.normal_of (r : WideReg) (w : Width) (ht : r.tag = some w) (hn : r.norm = true) : ∃ v, r = .normal w v := by
  cases r with
  | unwritten => cases ht
  | normal t v => cases ht; exact ⟨v, rfl⟩
  | denormal t v => cases hn

/-! ## The operand check (R282) -/

/-- The check passes exactly when every entry is written, of its tag, and normalized where it must be. -/
theorem check_eq_ok (s : State) (es : List Operand) :
    check s es = .ok () ↔
      ∀ e ∈ es, (reg s e.reg).tag = some e.width ∧ (e.normalized = true → (reg s e.reg).norm = true) := by
  unfold check
  constructor
  · intro h
    split at h
    · cases h
    split at h
    · cases h
    split at h
    · cases h
    rename_i _ h2 h3
    intro e he
    simp only [List.any_eq_true, not_exists, not_and, Bool.and_eq_true, bne_iff_ne, Bool.not_eq_true', ne_eq, not_not] at h2 h3
    exact ⟨h2 e he, fun hn => by simpa [hn] using h3 e he⟩
  · intro h
    have h1 : es.any (fun e => (reg s e.reg).tag == none) = false := by
      simp only [List.any_eq_false]
      intro e he
      simp [(h e he).1]
    have h2 : es.any (fun e => (reg s e.reg).tag != some e.width) = false := by
      simp only [List.any_eq_false]
      intro e he
      simp [(h e he).1]
    have h3 : es.any (fun e => e.normalized && !(reg s e.reg).norm) = false := by
      simp only [List.any_eq_false]
      intro e he
      cases hn : e.normalized with
      | false => simp
      | true => simp [(h e he).2 hn]
    rw [h1, h2, h3]
    rfl

/-- One normalized operand that is there. -/
theorem check_normal_one (s : State) (a : BReg) (w : Width) (va : Nat) (ha : reg s a = .normal w va) :
    check s [normalAt a w] = .ok () := by
  rw [check_eq_ok]
  simp [normalAt, ha, WideReg.tag, WideReg.norm]

/-- Two normalized operands that are there. -/
theorem check_normal_two (s : State) (a b : BReg) (wa wb : Width) (va vb : Nat)
    (ha : reg s a = .normal wa va) (hb : reg s b = .normal wb vb) :
    check s [normalAt a wa, normalAt b wb] = .ok () := by
  rw [check_eq_ok]
  simp [normalAt, ha, hb, WideReg.tag, WideReg.norm]

/-- Three normalized operands that are there. -/
theorem check_normal_three (s : State) (a b c : BReg) (w : Width) (va vb vc : Nat)
    (ha : reg s a = .normal w va) (hb : reg s b = .normal w vb) (hc : reg s c = .normal w vc) :
    check s [normalAt a w, normalAt b w, normalAt c w] = .ok () := by
  rw [check_eq_ok]
  simp [normalAt, ha, hb, hc, WideReg.tag, WideReg.norm]

/-- One operand of any normalization that is there. -/
theorem check_any_one (s : State) (a : BReg) (w : Width) (ha : (reg s a).tag = some w) : check s [anyAt a w] = .ok () := by
  rw [check_eq_ok]
  simp [anyAt, ha]

/-- The value of a normal record. -/
theorem regNat_normal (s : State) (a : BReg) (w : Width) (va : Nat) (ha : reg s a = .normal w va) : regNat s a = va := by
  rw [regNat, ha]
  rfl

theorem regVal_normal (s : State) (a : BReg) (w : Width) (va : Nat) (ha : reg s a = .normal w va) : regVal s a = va := by
  rw [regVal, ha]
  rfl

theorem regVal_denormal (s : State) (a : BReg) (w : Width) (va : Int) (ha : reg s a = .denormal w va) : regVal s a = va := by
  rw [regVal, ha]
  rfl

/-! ## require -/

@[simp] theorem require_true (code : FaultCode) : require true code = .ok () := rfl

@[simp] theorem require_false (code : FaultCode) : require false code = .error code := rfl

theorem require_eq_ok (c : Bool) (code : FaultCode) : require c code = .ok () ↔ c = true := by
  cases c <;> simp

/-! ## Octets -/

@[simp] theorem octStr_length (s : State) (i : OReg) : (octStr s i).length = s.octLen[i] := by
  simp [octStr]

theorem octStr_getElem (s : State) (i : OReg) (k : Nat) (h : k < (octStr s i).length) : (octStr s i)[k] = octByte s i k := by
  simp [octStr]

/-- Octet windows do not overlap: a byte below 4096 of another octet has another address. -/
theorem octAddr_inj (i j : OReg) (k l : Nat) (hk : k < 4096) (hl : l < 4096) (h : octAddr i k = octAddr j l) : i = j ∧ k = l := by
  unfold octAddr at h
  have hi : i.val = j.val := by omega
  exact ⟨Fin.ext hi, by omega⟩

theorem octCap_le (s : State) (i : OReg) : octCap s i ≤ 4096 := (s.params.octCap[i]).property.2

theorem octCap_pos (s : State) (i : OReg) : 1 ≤ octCap s i := (s.params.octCap[i]).property.1

/-- A byte of the written string, after the write. -/
theorem octByte_putOctet_inside (s : State) (i : OReg) (pos len k : Nat) (bytes : List Byte) (h : k < bytes.length) :
    octByte (putOctet s i pos bytes len) i (pos + k) = bytes[k] := by
  have : octAddr i (pos + k) = octAddr i pos + k := by unfold octAddr; omega
  rw [octByte, putOctet_mem, this, Memory.read_write_inside _ _ _ _ h]

/-- Every other byte of the same octet, after the write. -/
theorem octByte_putOctet_outside (s : State) (i : OReg) (pos len k : Nat) (bytes : List Byte)
    (h : k < pos ∨ pos + bytes.length ≤ k) : octByte (putOctet s i pos bytes len) i k = octByte s i k := by
  rw [octByte, putOctet_mem, Memory.read_write_outside _ _ _ _ (by unfold octAddr; omega), octByte]

/-- Every byte of another octet, after a write within the window. -/
theorem octByte_putOctet_other (s : State) (i j : OReg) (pos len k : Nat) (bytes : List Byte) (hij : i ≠ j)
    (hw : pos + bytes.length ≤ 4096) (hk : k < 4096) : octByte (putOctet s i pos bytes len) j k = octByte s j k := by
  have hv : i.val ≠ j.val := fun e => hij (Fin.ext e)
  rw [octByte, putOctet_mem, Memory.read_write_outside _ _ _ _ (by unfold octAddr; omega), octByte]

@[simp] theorem octLen_putOctet_self (s : State) (i : OReg) (pos len : Nat) (bytes : List Byte) :
    (putOctet s i pos bytes len).octLen[i] = len := by
  simp [putOctet]

theorem octLen_putOctet_ne (s : State) (i j : OReg) (pos len : Nat) (bytes : List Byte) (h : i ≠ j) :
    (putOctet s i pos bytes len).octLen[j] = s.octLen[j] := by
  have h' : i.val ≠ j.val := fun e => h (Fin.ext e)
  simp [putOctet, h']

/-- A string written from position 0 with its length is the octet's new string. -/
theorem octStr_putOctet (s : State) (i : OReg) (bytes : List Byte) :
    octStr (putOctet s i 0 bytes bytes.length) i = bytes := by
  apply List.ext_getElem
  · rw [octStr_length, octLen_putOctet_self]
  · intro k h1 h2
    have := octByte_putOctet_inside s i 0 bytes.length k bytes h2
    rw [octStr_getElem, ← this, Nat.zero_add]

/-- All that OctStore can answer (R143). -/
theorem octStore_cases (s t : State) (i : OReg) (pos : Nat) (bytes : List Byte) (h : octStore s i pos bytes = .ok t) :
    (pos + bytes.length ≤ octCap s i ∧ t = putOctet s i pos bytes (pos + bytes.length)) ∨
      (octCap s i < pos + bytes.length ∧ s.cappol = .truncate ∧
        t = putOctet s i pos (bytes.take (octCap s i - pos)) (octCap s i)) := by
  unfold octStore at h
  split at h
  · rename_i hle
    cases h
    exact .inl ⟨hle, rfl⟩
  · rename_i hle
    split at h
    · cases h
    · rename_i hpol
      cases h
      exact .inr ⟨by omega, hpol, rfl⟩

/-- OctStore within the capacity. -/
theorem octStore_fits (s : State) (i : OReg) (pos : Nat) (bytes : List Byte) (h : pos + bytes.length ≤ octCap s i) :
    octStore s i pos bytes = .ok (putOctet s i pos bytes (pos + bytes.length)) := if_pos h

/-- OctStore past the capacity under CAPPOL = FAULT. -/
theorem octStore_faults (s : State) (i : OReg) (pos : Nat) (bytes : List Byte) (h : octCap s i < pos + bytes.length)
    (hpol : s.cappol = .fault) : octStore s i pos bytes = .error .octCapacity := by
  rw [octStore, if_neg (by omega), hpol]

/-- OctStore past the capacity under CAPPOL = TRUNCATE. -/
theorem octStore_truncates (s : State) (i : OReg) (pos : Nat) (bytes : List Byte) (h : octCap s i < pos + bytes.length)
    (hpol : s.cappol = .truncate) :
    octStore s i pos bytes = .ok (putOctet s i pos (bytes.take (octCap s i - pos)) (octCap s i)) := by
  rw [octStore, if_neg (by omega), hpol]

/-! ## The end of a command (R284, R286) -/

@[simp] theorem commit_ok (s t : State) : commit s (.ok t) = .next (complete t) := rfl

@[simp] theorem commit_error (s : State) (code : FaultCode) : commit s (.error code) = .next (raise code s) := rfl

@[simp] theorem commitDrawn_ok (s t : State) (r : RngPort) :
    commitDrawn s (.ok t, r) = .next (complete { t with rng := r }) := rfl

@[simp] theorem commitDrawn_error (s : State) (code : FaultCode) (r : RngPort) :
    commitDrawn s (.error code, r) = .next (raise code { s with rng := r }) := rfl

/-- All that the end of a command that draws nothing can answer. -/
theorem commit_cases (s t : State) (body : Except FaultCode State) (h : commit s body = .next t) :
    (∃ u, body = .ok u ∧ t = complete u) ∨ ∃ code, body = .error code ∧ t = raise code s := by
  cases body with
  | error code => cases h; exact .inr ⟨code, rfl, rfl⟩
  | ok u => cases h; exact .inl ⟨u, rfl, rfl⟩

/-- All that the end of a command that may draw can answer. -/
theorem commitDrawn_cases (s t : State) (body : Except FaultCode State × RngPort) (h : commitDrawn s body = .next t) :
    (∃ u, body.1 = .ok u ∧ t = complete { u with rng := body.2 }) ∨
      ∃ code, body.1 = .error code ∧ t = raise code { s with rng := body.2 } := by
  obtain ⟨b, r⟩ := body
  cases b with
  | error code => cases h; exact .inr ⟨code, rfl, rfl⟩
  | ok u => cases h; exact .inl ⟨u, rfl, rfl⟩

/-! ## Draws (R18) -/

@[simp] theorem advance_drawn (r : RngPort) : r.advance.drawn = r.drawn + 1 := rfl
@[simp] theorem advance_calls (r : RngPort) : r.advance.calls = r.calls := rfl
@[simp] theorem advance_failAt (r : RngPort) (n : Nat) : r.advance.failAt n = r.failAt n := rfl
@[simp] theorem advance_randAt (r : RngPort) (n : Nat) (w : Width) (b : Nat) : r.advance.randAt n w b = r.randAt n w b := rfl
@[simp] theorem advance_primeAt (r : RngPort) (n : Nat) (w : Width) (v : Nat) : r.advance.primeAt n w v = r.primeAt n w v := rfl

@[simp] theorem call_drawn (r : RngPort) (c : RngCall) : (r.call c).drawn = r.drawn := rfl
@[simp] theorem call_failAt (r : RngPort) (c : RngCall) (n : Nat) : (r.call c).failAt n = r.failAt n := rfl
@[simp] theorem call_randAt (r : RngPort) (c : RngCall) (n : Nat) (w : Width) (b : Nat) :
    (r.call c).randAt n w b = r.randAt n w b := rfl
@[simp] theorem call_primeAt (r : RngPort) (c : RngCall) (n : Nat) (w : Width) (v : Nat) :
    (r.call c).primeAt n w v = r.primeAt n w v := rfl

@[simp] theorem drawRngFail_eq (r : RngPort) : drawRngFail r = (r.failAt r.drawn, r.advance) := rfl
@[simp] theorem drawPrime_eq (r : RngPort) (w : Width) (v : Nat) : drawPrime r w v = (r.primeAt r.drawn w v, r.advance) := rfl
@[simp] theorem drawRand_eq (r : RngPort) (w : Width) (b : Nat) : drawRand r w b = (r.randAt r.drawn w b, r.advance) := rfl

/-- A random answer lies in [0, bound) (R18 (a)). -/
theorem randAt_lt (r : RngPort) (n : Nat) (w : Width) (b : Nat) (hb : 0 < b) : r.randAt n w b < b := Nat.mod_lt _ hb

end Sys2Proof.Machine
end

