-- ==== Sys2Proof/Laws/Bus.lean ====
section
/-! SUPPORT. What the aperture map and the host accesses can answer (R84, R85, R87). -/

namespace Sys2Proof.Machine

/-! ## The aperture map -/

/-- The offset of each window byte and each indexed register names it (R84). -/
theorem target_window (i : OReg) (k : Nat) (hk : k < 4096) : target (octAddr i k) = .data i k := by
  unfold target octAddr
  split_ifs <;> first | omega | exact congrArg₂ Target.data (Fin.ext (by simp only [Fin.val_ofNat]; omega)) (by omega)

theorem target_octLen (i : OReg) : target (0x00100 + 4 * i.val) = .octLen i := by
  unfold target
  split_ifs <;> first | omega | exact congrArg Target.octLen (Fin.ext (by simp only [Fin.val_ofNat]; omega))

theorem target_regInfo (i : BReg) : target (0x00200 + 4 * i.val) = .regInfo i := by
  unfold target
  split_ifs <;> first | omega | exact congrArg Target.regInfo (Fin.ext (by simp only [Fin.val_ofNat]; omega))

theorem target_octCap (i : OReg) : target (0x00300 + 4 * i.val) = .octCap i := by
  unfold target
  split_ifs <;> first | omega | exact congrArg Target.octCap (Fin.ext (by simp only [Fin.val_ofNat]; omega))

/-- The offset of each target. -/
theorem target_offset (off : Nat) :
    match target off with
    | .cmd => off = 0x00000
    | .status => off = 0x00004
    | .faultCmd => off = 0x00008
    | .ctrl => off = 0x0000C
    | .keystat => off = 0x00010
    | .octLen i => off = 0x00100 + 4 * i.val
    | .regInfo i => off = 0x00200 + 4 * i.val
    | .octCap i => off = 0x00300 + 4 * i.val
    | .data i k => off = octAddr i k ∧ k < 4096
    | .unmapped => off < 0x10000 ∨ 0x20000 ≤ off := by
  unfold target octAddr
  split_ifs <;> simp only [Fin.val_ofNat] <;> omega

/-! ## Host writes -/

/-- All that a performed 32-bit write can do. -/
theorem writeWord_cases (v : Word) (s t : State) (off : Nat) (h : writeWord v s off = some t) :
    (off = 0x00000 ∧ s.status.fault = false ∧ t = accept v s) ∨
    (off = 0x00004 ∧ t = writeStatus v s) ∨
    (off = 0x0000C ∧ t = { s with cappol := if v.getLsbD 0 then .truncate else .fault }) ∨
    (∃ i : OReg, off = 0x00100 + 4 * i.val ∧ (v.extractLsb' 0 13).toNat ≤ octCap s i ∧
      t = { s with octLen := s.octLen.set i (v.extractLsb' 0 13).toNat }) ∨
    ∃ (i : OReg) (k : Nat), off = octAddr i k ∧ k % 4 = 0 ∧ k + 4 ≤ octCap s i ∧
      t = { s with mem := Memory.write s.mem (octAddr i k) (laneBytes v) } := by
  have ho := target_offset off
  unfold writeWord at h
  split at h <;> rename_i ht <;> rw [ht] at ho
  · split at h
    · cases h
    · rename_i hf
      cases h
      exact .inl ⟨ho, by simpa using hf, rfl⟩
  · cases h
    exact .inr (.inl ⟨ho, rfl⟩)
  · cases h
    exact .inr (.inr (.inl ⟨ho, rfl⟩))
  · rename_i i
    split at h
    · rename_i hc
      cases h
      exact .inr (.inr (.inr (.inl ⟨i, ho, hc, rfl⟩)))
    · cases h
  · rename_i i k
    split at h
    · rename_i hc
      cases h
      simp only [wordAdmitted, Bool.and_eq_true, beq_iff_eq, decide_eq_true_eq] at hc
      exact .inr (.inr (.inr (.inr ⟨i, k, ho.1, hc.1, hc.2, rfl⟩)))
    · cases h
  all_goals cases h

/-- All that a performed 8-bit write can do. -/
theorem writeByte_cases (v : Byte) (s t : State) (off : Nat) (h : writeByte v s off = some t) :
    ∃ (i : OReg) (k : Nat), off = octAddr i k ∧ k < octCap s i ∧ t = { s with mem := Memory.write s.mem (octAddr i k) [v] } := by
  have ho := target_offset off
  unfold writeByte at h
  split at h
  · rename_i i k ht
    rw [ht] at ho
    split at h
    · rename_i hc
      cases h
      exact ⟨i, k, ho.1, hc, rfl⟩
    · cases h
  · cases h

/-- A write to STATUS changes FAULT, FCODE and BERR only (R44, R288). -/
theorem writeStatus_eq (v : Word) (s : State) :
    writeStatus v s =
      { s with
        status := { s.status with
          fault := s.status.fault && !v.getLsbD 2
          fcode := if v.getLsbD 2 = true then .none else s.status.fcode
          berr := s.status.berr && !v.getLsbD 7 } } := by
  unfold writeStatus clearFault
  cases v.getLsbD 2 <;> cases v.getLsbD 7 <;> simp

/-- The bytes of a bus word, by lane (R86). -/
theorem laneBytes_getElem (v : Word) (j : Nat) (h : j < 4) : (laneBytes v)[j]'(by simpa [laneBytes] using h) = v.extractLsb' (8 * j) 8 := by
  interval_cases j <;> rfl

/-- The lanes of a bus word read from a window, byte k in bits 7:0 (R86). -/
theorem laneWord_lane (s : State) (i : OReg) (k j : Nat) (h : j < 4) : (laneWord s i k).extractLsb' (8 * j) 8 = octByte s i (k + j) := by
  generalize h0 : octByte s i k = b0
  generalize h1 : octByte s i (k + 1) = b1
  generalize h2 : octByte s i (k + 2) = b2
  generalize h3 : octByte s i (k + 3) = b3
  rw [laneWord, h0, h1, h2, h3]
  interval_cases j
  · show BitVec.extractLsb' (n := 8 + 8 + 8 + 8) 0 8 (b3 ++ b2 ++ b1 ++ b0) = _
    rw [BitVec.extractLsb'_append_eq_of_add_le (by omega), Nat.add_zero, h0]
    simp
  · show BitVec.extractLsb' (n := 8 + 8 + 8 + 8) 8 8 (b3 ++ b2 ++ b1 ++ b0) = _
    rw [BitVec.extractLsb'_append_eq_of_le (by omega), BitVec.extractLsb'_append_eq_of_add_le (by omega), h1]
    simp
  · show BitVec.extractLsb' (n := 8 + 8 + 8 + 8) 16 8 (b3 ++ b2 ++ b1 ++ b0) = _
    rw [BitVec.extractLsb'_append_eq_of_le (by omega), BitVec.extractLsb'_append_eq_of_le (by omega),
      BitVec.extractLsb'_append_eq_of_add_le (by omega), h2]
    simp
  · show BitVec.extractLsb' (n := 8 + 8 + 8 + 8) 24 8 (b3 ++ b2 ++ b1 ++ b0) = _
    rw [BitVec.extractLsb'_append_eq_of_le (by omega), BitVec.extractLsb'_append_eq_of_le (by omega),
      BitVec.extractLsb'_append_eq_of_le (by omega), h3]
    simp

end Sys2Proof.Machine
end

