-- ==== Sys2Proof/Laws/Decode.lean ====
section
/-! SUPPORT. The fields of an encoded command word (R111, R112), the rows of the opcode map (R117), width codes (R10). -/

namespace Sys2Proof

/-! ## Fields of EncR and EncI -/

section
variable (op : BitVec 8) (d a b c : Fin 16) (ws : BitVec 2) (f : BitVec 6) (imm : BitVec 16)

@[simp] theorem op_encR : Word.op (encR op d a b c ws f) = op := by
  show BitVec.extractLsb' (n := 8 + 4 + 4 + 4 + 4 + 2 + 6) 24 8 (op ++ BitVec.ofFin (w := 4) d ++ BitVec.ofFin (w := 4) a ++ BitVec.ofFin (w := 4) b ++ BitVec.ofFin (w := 4) c ++ ws ++ f) = _
  rw [BitVec.extractLsb'_append_eq_of_le (by omega),
    BitVec.extractLsb'_append_eq_of_le (by omega),
    BitVec.extractLsb'_append_eq_of_le (by omega),
    BitVec.extractLsb'_append_eq_of_le (by omega),
    BitVec.extractLsb'_append_eq_of_le (by omega),
    BitVec.extractLsb'_append_eq_of_le (by omega)]
  simp

@[simp] theorem d_encR : Word.fieldD (encR op d a b c ws f) = BitVec.ofFin (w := 4) d := by
  show BitVec.extractLsb' (n := 8 + 4 + 4 + 4 + 4 + 2 + 6) 20 4 (op ++ BitVec.ofFin (w := 4) d ++ BitVec.ofFin (w := 4) a ++ BitVec.ofFin (w := 4) b ++ BitVec.ofFin (w := 4) c ++ ws ++ f) = _
  rw [BitVec.extractLsb'_append_eq_of_le (by omega),
    BitVec.extractLsb'_append_eq_of_le (by omega),
    BitVec.extractLsb'_append_eq_of_le (by omega),
    BitVec.extractLsb'_append_eq_of_le (by omega),
    BitVec.extractLsb'_append_eq_of_le (by omega),
    BitVec.extractLsb'_append_eq_of_add_le (by omega)]
  simp

@[simp] theorem a_encR : Word.fieldA (encR op d a b c ws f) = BitVec.ofFin (w := 4) a := by
  show BitVec.extractLsb' (n := 8 + 4 + 4 + 4 + 4 + 2 + 6) 16 4 (op ++ BitVec.ofFin (w := 4) d ++ BitVec.ofFin (w := 4) a ++ BitVec.ofFin (w := 4) b ++ BitVec.ofFin (w := 4) c ++ ws ++ f) = _
  rw [BitVec.extractLsb'_append_eq_of_le (by omega),
    BitVec.extractLsb'_append_eq_of_le (by omega),
    BitVec.extractLsb'_append_eq_of_le (by omega),
    BitVec.extractLsb'_append_eq_of_le (by omega),
    BitVec.extractLsb'_append_eq_of_add_le (by omega)]
  simp

@[simp] theorem b_encR : Word.fieldB (encR op d a b c ws f) = BitVec.ofFin (w := 4) b := by
  show BitVec.extractLsb' (n := 8 + 4 + 4 + 4 + 4 + 2 + 6) 12 4 (op ++ BitVec.ofFin (w := 4) d ++ BitVec.ofFin (w := 4) a ++ BitVec.ofFin (w := 4) b ++ BitVec.ofFin (w := 4) c ++ ws ++ f) = _
  rw [BitVec.extractLsb'_append_eq_of_le (by omega),
    BitVec.extractLsb'_append_eq_of_le (by omega),
    BitVec.extractLsb'_append_eq_of_le (by omega),
    BitVec.extractLsb'_append_eq_of_add_le (by omega)]
  simp

@[simp] theorem c_encR : Word.fieldC (encR op d a b c ws f) = BitVec.ofFin (w := 4) c := by
  show BitVec.extractLsb' (n := 8 + 4 + 4 + 4 + 4 + 2 + 6) 8 4 (op ++ BitVec.ofFin (w := 4) d ++ BitVec.ofFin (w := 4) a ++ BitVec.ofFin (w := 4) b ++ BitVec.ofFin (w := 4) c ++ ws ++ f) = _
  rw [BitVec.extractLsb'_append_eq_of_le (by omega),
    BitVec.extractLsb'_append_eq_of_le (by omega),
    BitVec.extractLsb'_append_eq_of_add_le (by omega)]
  simp

@[simp] theorem ws_encR : Word.fieldWs (encR op d a b c ws f) = ws := by
  show BitVec.extractLsb' (n := 8 + 4 + 4 + 4 + 4 + 2 + 6) 6 2 (op ++ BitVec.ofFin (w := 4) d ++ BitVec.ofFin (w := 4) a ++ BitVec.ofFin (w := 4) b ++ BitVec.ofFin (w := 4) c ++ ws ++ f) = _
  rw [BitVec.extractLsb'_append_eq_of_le (by omega),
    BitVec.extractLsb'_append_eq_of_add_le (by omega)]
  simp

@[simp] theorem f_encR : Word.fieldF (encR op d a b c ws f) = f := by
  show BitVec.extractLsb' (n := 8 + 4 + 4 + 4 + 4 + 2 + 6) 0 6 (op ++ BitVec.ofFin (w := 4) d ++ BitVec.ofFin (w := 4) a ++ BitVec.ofFin (w := 4) b ++ BitVec.ofFin (w := 4) c ++ ws ++ f) = _
  rw [BitVec.extractLsb'_append_eq_of_add_le (by omega)]
  simp

@[simp] theorem op_encI : Word.op (encI op d a imm) = op := by
  show BitVec.extractLsb' (n := 8 + 4 + 4 + 16) 24 8 (op ++ BitVec.ofFin (w := 4) d ++ BitVec.ofFin (w := 4) a ++ imm) = _
  rw [BitVec.extractLsb'_append_eq_of_le (by omega),
    BitVec.extractLsb'_append_eq_of_le (by omega),
    BitVec.extractLsb'_append_eq_of_le (by omega)]
  simp

@[simp] theorem d_encI : Word.fieldD (encI op d a imm) = BitVec.ofFin (w := 4) d := by
  show BitVec.extractLsb' (n := 8 + 4 + 4 + 16) 20 4 (op ++ BitVec.ofFin (w := 4) d ++ BitVec.ofFin (w := 4) a ++ imm) = _
  rw [BitVec.extractLsb'_append_eq_of_le (by omega),
    BitVec.extractLsb'_append_eq_of_le (by omega),
    BitVec.extractLsb'_append_eq_of_add_le (by omega)]
  simp

@[simp] theorem a_encI : Word.fieldA (encI op d a imm) = BitVec.ofFin (w := 4) a := by
  show BitVec.extractLsb' (n := 8 + 4 + 4 + 16) 16 4 (op ++ BitVec.ofFin (w := 4) d ++ BitVec.ofFin (w := 4) a ++ imm) = _
  rw [BitVec.extractLsb'_append_eq_of_le (by omega),
    BitVec.extractLsb'_append_eq_of_add_le (by omega)]
  simp

@[simp] theorem imm_encI : Word.fieldImm (encI op d a imm) = imm := by
  show BitVec.extractLsb' (n := 8 + 4 + 4 + 16) 0 16 (op ++ BitVec.ofFin (w := 4) d ++ BitVec.ofFin (w := 4) a ++ imm) = _
  rw [BitVec.extractLsb'_append_eq_of_add_le (by omega)]
  simp

end

/-! ## Width codes -/

@[simp] theorem ofCode_code (w : Width) : Width.ofCode w.code = some w := by cases w <;> decide

/-- The code of the width a code names. -/
theorem code_of_ofCode (c : BitVec 2) (w : Width) (h : Width.ofCode c = some w) : w.code = c := by
  revert w c
  decide

end Sys2Proof
end

