-- ==== Sys2Proof/Laws/Paillier.lean ====
section
/-! SUPPORT. What key generation's parts can answer: draws, the first candidate, the prime search, the keys of two primes (R231 to R236). -/

set_option exponentiation.threshold 8200

namespace Sys2Proof.Machine

/-! ## Bit lengths (R21, R232) -/

theorem bitLen_eq (v k : Nat) (hk : 0 < k) : bitLen v = k ↔ 2 ^ (k - 1) ≤ v ∧ v < 2 ^ k := by
  unfold bitLen
  split
  · rename_i h
    subst h
    constructor
    · omega
    · intro h
      have := Nat.pow_pos (n := k - 1) (show 0 < 2 by decide)
      omega
  · rename_i h
    constructor
    · intro e
      have h1 : v.log2 = k - 1 := by omega
      exact (Nat.log2_eq_iff h).1 h1 |>.imp id (fun hlt => by rwa [show k - 1 + 1 = k by omega] at hlt)
    · rintro ⟨h1, h2⟩
      have : v.log2 = k - 1 := (Nat.log2_eq_iff h).2 ⟨h1, by rwa [show k - 1 + 1 = k by omega]⟩
      omega

/-! ## The port after some draws (R285) -/

@[simp] theorem afterDraws_drawn (r : RngPort) (n : Nat) : (r.afterDraws n).drawn = r.drawn + n := rfl
@[simp] theorem afterDraws_failAt (r : RngPort) (n k : Nat) : (r.afterDraws n).failAt k = r.failAt k := rfl
@[simp] theorem afterDraws_randAt (r : RngPort) (n k : Nat) (w : Width) (b : Nat) :
    (r.afterDraws n).randAt k w b = r.randAt k w b := rfl
@[simp] theorem afterDraws_primeAt (r : RngPort) (n k : Nat) (w : Width) (v : Nat) :
    (r.afterDraws n).primeAt k w v = r.primeAt k w v := rfl
@[simp] theorem afterDraws_advance (r : RngPort) (n : Nat) : (r.afterDraws n).advance = r.afterDraws (n + 1) := rfl
@[simp] theorem afterDraws_afterDraws (r : RngPort) (n m : Nat) : (r.afterDraws n).afterDraws m = r.afterDraws (n + m) := by
  simp [RngPort.afterDraws, Nat.add_assoc]

/-! ## The prime search (R231) -/

/-- The first candidate is the least number congruent to 3 modulo 4 from the draw with its top bit set. -/
theorem firstCandidate_spec (x : Nat) :
    x + 2 ^ (primeBits - 1) ≤ firstCandidate x ∧ firstCandidate x < x + 2 ^ (primeBits - 1) + 4 ∧ firstCandidate x % 4 = 3 := by
  unfold firstCandidate
  generalize x + 2 ^ (primeBits - 1) = c
  simp only
  omega

/-- A candidate the loop returns is in the progression from its start, below 2^1024, and one the oracle accepts; and the loop
leaves the oracles as they are. -/
theorem primeSearchLoop_ok (tries c p : Nat) (r r' : RngPort) (h : primeSearchLoop tries c r = (.ok p, r')) :
    (c ≤ p ∧ p % 4 = c % 4 ∧ p < 2 ^ primeBits) ∧ (∃ n, r.primeAt n .w2048 p = true) ∧ r'.primeAt = r.primeAt := by
  induction tries generalizing c r with
  | zero => cases h
  | succ k ih =>
    rw [primeSearchLoop] at h
    split at h
    · cases h
    rename_i hc
    split at h
    · cases h
    simp only at h
    split at h
    · rename_i hv
      cases h
      exact ⟨⟨Nat.le_refl p, rfl, Nat.lt_of_not_le hc⟩, ⟨_, hv⟩, rfl⟩
    · obtain ⟨hp, hn, ho⟩ := ih _ _ h
      exact ⟨⟨by omega, by omega, hp.2.2⟩, hn, ho⟩

/-- A prime search's answer is a 1024-bit number congruent to 3 modulo 4 that the oracle accepts. -/
theorem primeSearch_ok (limit p : Nat) (r r' : RngPort) (h : primeSearch limit r = (.ok p, r')) :
    (2 ^ (primeBits - 1) ≤ p ∧ p < 2 ^ primeBits ∧ p % 4 = 3) ∧ (∃ n, r.primeAt n .w2048 p = true) ∧
      r'.primeAt = r.primeAt := by
  unfold primeSearch at h
  split at h
  · cases h
  obtain ⟨hp, hn, ho⟩ := primeSearchLoop_ok _ _ _ _ _ h
  have hc := firstCandidate_spec (drawRand (drawRngFail r).2 .w2048 (2 ^ (primeBits - 1))).1
  exact ⟨⟨by omega, hp.2.2, by omega⟩, hn, ho⟩

/-- Of a source that is PRIME_ORACLE_SOUND (R182), a prime search answers primes only (R231). -/
theorem primeSearch_prime (limit p : Nat) (r r' : RngPort) (hr : PrimeOracleSound r)
    (h : primeSearch limit r = (.ok p, r')) : Nat.Prime p := by
  obtain ⟨_, ⟨n, hn⟩, _⟩ := primeSearch_ok _ _ _ _ h
  exact hr n _ p hn

/-- The two searches' answers are distinct 1024-bit numbers congruent to 3 modulo 4 that the oracle accepts. -/
theorem drawPrimes_ok (limit : Nat) (pq : Nat × Nat) (r r' : RngPort) (h : drawPrimes limit r = (.ok pq, r')) :
    (2 ^ (primeBits - 1) ≤ pq.1 ∧ pq.1 < 2 ^ primeBits ∧ pq.1 % 4 = 3) ∧
      (2 ^ (primeBits - 1) ≤ pq.2 ∧ pq.2 < 2 ^ primeBits ∧ pq.2 % 4 = 3) ∧ pq.1 ≠ pq.2 ∧
      (∃ n, r.primeAt n .w2048 pq.1 = true) ∧ ∃ n, r.primeAt n .w2048 pq.2 = true := by
  unfold drawPrimes at h
  split at h
  · cases h
  rename_i p r1 h1
  split at h
  · cases h
  rename_i q r2 h2
  split at h
  · cases h
  rename_i hne
  cases h
  obtain ⟨hp, hn, ho⟩ := primeSearch_ok _ _ _ _ h1
  obtain ⟨hq, hm, _⟩ := primeSearch_ok _ _ _ _ h2
  exact ⟨hp, hq, hne, hn, ho ▸ hm⟩

/-! ## Inverses the CRT key holds (R234) -/

theorem negMod_lt (x m : Nat) (hm : 0 < m) : negMod x m < m := by
  have h1 := Int.emod_nonneg (-(x : Int)) (show (m : Int) ≠ 0 by omega)
  have h2 := Int.emod_lt_of_pos (-(x : Int)) (show (0 : Int) < m by omega)
  unfold negMod
  omega

/-- The negated inverse of a modulo m is a factor that gives m - 1. -/
theorem mul_negMod_modInv (a m : Nat) (hm : 1 < m) (h : Nat.gcd a m = 1) : a * negMod (modInv a m) m % m = m - 1 := by
  have hinv := (modInv_spec a m (by omega) h).2
  rw [Nat.mod_eq_of_lt hm] at hinv
  have hneg : ((negMod (modInv a m) m : Nat) : Int) = -(modInv a m : Int) % m := by
    unfold negMod
    exact Int.toNat_of_nonneg (Int.emod_nonneg _ (by omega))
  have hz : ((a * negMod (modInv a m) m : Nat) : Int) ≡ -1 [ZMOD m] := by
    push_cast
    rw [hneg]
    have h1 : (a : Int) * (-(modInv a m : Int) % m) ≡ a * -(modInv a m : Int) [ZMOD m] := (Int.mod_modEq _ _).mul_left _
    have h2 : ((a * modInv a m : Nat) : Int) ≡ 1 [ZMOD m] := by
      have : a * modInv a m ≡ 1 [MOD m] := by
        unfold Nat.ModEq
        rw [hinv, Nat.mod_eq_of_lt hm]
      exact_mod_cast (Int.natCast_modEq_iff.2 this)
    have h3 := h2.neg
    push_cast at h3
    rw [← mul_neg] at h3
    exact h1.trans h3
  have hm1 : (-1 : Int) ≡ ((m - 1 : Nat) : Int) [ZMOD m] := by
    rw [Nat.cast_sub (by omega)]
    have := (Int.modEq_iff_dvd (n := (m : Int)) (a := -1) (b := (m : Int) - 1)).2 ⟨1, by ring⟩
    simpa using this
  have := Int.natCast_modEq_iff.1 (hz.trans hm1)
  unfold Nat.ModEq at this
  rw [this, Nat.mod_eq_of_lt (by omega)]

/-- The CRT key of two coprime odd numbers satisfies R236. -/
theorem crtSk_for (p q : Nat) (hp : 1 < p) (hq : 1 < q) (hp2 : p % 2 = 1) (hq2 : q % 2 = 1) (h : Nat.gcd p q = 1) :
    CrtKeyFor p q (crtSk p q) := by
  have one : (1 : Nat) < 2 ^ 2048 := Nat.one_lt_two_pow (by decide)
  have i1 := modInv_spec p (2 ^ 2048) (by omega) (Nat.Coprime.pow_right _ (Nat.coprime_two_right.2 (Nat.odd_iff.2 hp2)))
  have i2 := modInv_spec q (2 ^ 2048) (by omega) (Nat.Coprime.pow_right _ (Nat.coprime_two_right.2 (Nat.odd_iff.2 hq2)))
  have i3 := modInv_spec p q (by omega) h
  unfold CrtKeyFor crtSk
  exact ⟨rfl, rfl, rfl, rfl, rfl, rfl, rfl, rfl, rfl, rfl, rfl, rfl,
    ⟨negMod_lt _ _ (by omega), mul_negMod_modInv q p hp ((Nat.gcd_comm q p).trans h)⟩,
    ⟨negMod_lt _ _ (by omega), mul_negMod_modInv p q hq h⟩, ⟨i1.1, i1.2.trans (Nat.mod_eq_of_lt one)⟩,
    ⟨i2.1, i2.2.trans (Nat.mod_eq_of_lt one)⟩, ⟨i3.1, i3.2.trans (Nat.mod_eq_of_lt hq)⟩⟩

/-! ## The keys of two primes (R230) -/

/-- All that the end of key generation can answer with keys. -/
theorem keysFromPrimes_ok (scheme : Scheme) (p q : Nat) (keys : PubKey × PrivKey) (h : keysFromPrimes scheme p q = .ok keys) :
    Nat.gcd ((p - 1) * (q - 1)) (p * q) = 1 ∧
      ((scheme = .plain ∧ keys = (plainPk (p * q), plainSk (p * q) ((p - 1) * (q - 1)) (modInv ((p - 1) * (q - 1)) (p * q)))) ∨
        (scheme = .crt ∧ Nat.gcd p q = 1 ∧ keys = (plainPk (p * q), crtSk p q))) := by
  unfold keysFromPrimes at h
  rw [except_bind_eq_ok] at h
  obtain ⟨_, h1, h2⟩ := h
  have hg : Nat.gcd ((p - 1) * (q - 1)) (p * q) = 1 := by simpa using (require_eq_ok _ _).1 h1
  cases scheme with
  | plain =>
    simp only [except_pure, Except.ok.injEq] at h2
    exact ⟨hg, .inl ⟨rfl, h2.symm⟩⟩
  | crt =>
    simp only [except_bind_eq_ok, except_pure, Except.ok.injEq] at h2
    obtain ⟨_, h3, h4⟩ := h2
    have hpq : Nat.gcd p q = 1 := by simpa using (require_eq_ok _ _).1 h3
    exact ⟨hg, .inr ⟨rfl, hpq, h4.symm⟩⟩

/-- All that SuppliedCheck can pass (R232). -/
theorem suppliedCheck_ok (p q : Nat) (h : suppliedCheck p q = .ok ()) :
    (bitLen p = primeBits ∧ bitLen q = primeBits) ∧ (p % 2 = 1 ∧ q % 2 = 1) ∧ p ≠ q := by
  unfold suppliedCheck at h
  simp only [except_bind_eq_ok] at h
  obtain ⟨_, h1, _, h2, h3⟩ := h
  have h1' := (require_eq_ok _ _).1 h1
  have h2' := (require_eq_ok _ _).1 h2
  have h3' := (require_eq_ok _ _).1 h3
  simp only [Bool.and_eq_true, beq_iff_eq, bne_iff_ne] at h1' h2' h3'
  exact ⟨h1', ⟨by omega, by omega⟩, h3'⟩

end Sys2Proof.Machine
end

