-- ==== Sys2Proof/Laws/PerInstr.lean ====
section
/-! SUPPORT. Statements made of every instruction, one lemma per constructor. -/

namespace Sys2Proof.Laws.EncodeOpcode

/-- The word of a command carries the command's opcode in bits 31:24 (R110, R126). -/
def Statement (i : Instr) : Prop := Word.op (encode i) = i.opcode

theorem octZero (d : OReg) : Statement (.octZero d) := op_encR _ _ _ _ _ _ _

theorem octCopy (d a : OReg) : Statement (.octCopy d a) := op_encR _ _ _ _ _ _ _

theorem octAppend (d a : OReg) : Statement (.octAppend d a) := op_encR _ _ _ _ _ _ _

theorem octPad (d : OReg) (len : BitVec 16) : Statement (.octPad d len) := op_encI _ _ _ _

theorem octTail (d a : OReg) (len : BitVec 16) : Statement (.octTail d a len) := op_encI _ _ _ _

theorem octCteq (a b : OReg) : Statement (.octCteq a b) := op_encR _ _ _ _ _ _ _

theorem bnZero (d : BReg) (w : Width) : Statement (.bnZero d w) := op_encR _ _ _ _ _ _ _

theorem bnOne (d : BReg) (w : Width) : Statement (.bnOne d w) := op_encR _ _ _ _ _ _ _

theorem bnCopy (d a : BReg) (w : Width) : Statement (.bnCopy d a w) := op_encR _ _ _ _ _ _ _

theorem bnAdd (d a b : BReg) (w : Width) : Statement (.bnAdd d a b w) := op_encR _ _ _ _ _ _ _

theorem bnSub (d a b : BReg) (w : Width) : Statement (.bnSub d a b w) := op_encR _ _ _ _ _ _ _

theorem bnNorm (d a : BReg) (w : Width) : Statement (.bnNorm d a w) := op_encR _ _ _ _ _ _ _

theorem bnCmp (a b : BReg) (w : Width) : Statement (.bnCmp a b w) := op_encR _ _ _ _ _ _ _

theorem bnShlw (d a : BReg) (w : Width) : Statement (.bnShlw d a w) := op_encR _ _ _ _ _ _ _

theorem bnShrw (d a : BReg) (w : Width) : Statement (.bnShrw d a w) := op_encR _ _ _ _ _ _ _

theorem bnMul (d a b : BReg) (w : Width) : Statement (.bnMul d a b w) := op_encR _ _ _ _ _ _ _

theorem bnSqr (d a : BReg) (w : Width) : Statement (.bnSqr d a w) := op_encR _ _ _ _ _ _ _

theorem bnMod (d a b : BReg) (w : Width) : Statement (.bnMod d a b w) := op_encR _ _ _ _ _ _ _

theorem bnPow (d a b c : BReg) (w : Width) : Statement (.bnPow d a b c w) := op_encR _ _ _ _ _ _ _

theorem bnInv (d a b : BReg) (w : Width) : Statement (.bnInv d a b w) := op_encR _ _ _ _ _ _ _

theorem bnInv2m (d a : BReg) (w : Width) : Statement (.bnInv2m d a w) := op_encR _ _ _ _ _ _ _

theorem bnRand (d a : BReg) (w : Width) : Statement (.bnRand d a w) := op_encR _ _ _ _ _ _ _

theorem bnPrime (a : BReg) (w : Width) : Statement (.bnPrime a w) := op_encR _ _ _ _ _ _ _

theorem bnLoad (d : BReg) (a : OReg) (w : Width) : Statement (.bnLoad d a w) := op_encR _ _ _ _ _ _ _

theorem bnStore (d : OReg) (a : BReg) (w : Width) : Statement (.bnStore d a w) := op_encR _ _ _ _ _ _ _

theorem wpPromote (d a : BReg) (w : Width) : Statement (.wpPromote d a w) := op_encR _ _ _ _ _ _ _

theorem wpTrunc (d a : BReg) (w : Width) : Statement (.wpTrunc d a w) := op_encR _ _ _ _ _ _ _

theorem ldDiv (d a b : BReg) (rem : Option BReg) (w : Width) : Statement (.ldDiv d a b rem w) := op_encR _ _ _ _ _ _ _

theorem plKeygen (scheme : Scheme) (primes : Option (BReg × BReg)) : Statement (.plKeygen scheme primes) := by
  cases primes with
  | none => exact op_encR _ _ _ _ _ _ _
  | some ab => exact op_encR _ _ _ _ _ _ _

theorem plPkload (a : BReg) : Statement (.plPkload a) := op_encR _ _ _ _ _ _ _

theorem plKeyrd (d : BReg) (field : PkField) : Statement (.plKeyrd d field) := op_encR _ _ _ _ _ _ _

theorem plSkkill : Statement .plSkkill := op_encR _ _ _ _ _ _ _

theorem plEnc (d a : BReg) (r emit : Option BReg) : Statement (.plEnc d a r emit) := op_encR _ _ _ _ _ _ _

theorem plDec (d a : BReg) : Statement (.plDec d a) := op_encR _ _ _ _ _ _ _

theorem plAdd (d a b : BReg) : Statement (.plAdd d a b) := op_encR _ _ _ _ _ _ _

theorem plMul (d a b : BReg) : Statement (.plMul d a b) := op_encR _ _ _ _ _ _ _

theorem rnSeed (a : OReg) : Statement (.rnSeed a) := op_encR _ _ _ _ _ _ _

theorem rnKill : Statement .rnKill := op_encR _ _ _ _ _ _ _

end Sys2Proof.Laws.EncodeOpcode
end

