-- ==== Sys2Proof/Tests/Slice0.lean ====
section
/-! SUPPORT. Tests: the ill-formed terms WellFormed refuses, the words of the spec's encoding vectors, small steps from the
spec's examples (95_test_vectors.md and the example of each rule), and a witness of the hypotheses of each obligation. -/

namespace Sys2Proof.Tests

set_option Elab.async false

open Sys2Proof.Machine

/-! ## WellFormed refuses what R120 refuses -/

theorem test_wf_mul : (Instr.bnMul 2 0 1 .w8192).wf = false := by decide
theorem test_wf_sqr : (Instr.bnSqr 2 0 .w8192).wf = false := by decide
theorem test_wf_mod : (Instr.bnMod 3 2 1 .w8192).wf = false := by decide
theorem test_wf_promote : (Instr.wpPromote 2 1 .w2048).wf = false := by decide
theorem test_wf_trunc : (Instr.wpTrunc 4 3 .w8192).wf = false := by decide

/-! ## Decoding the words of 95_test_vectors.md section 2 -/

theorem test_decode_octet :
    decode 0x01300000 = .ok (.octZero 3) ∧ decode 0x02210000 = .ok (.octCopy 2 1) ∧
    decode 0x03120000 = .ok (.octAppend 1 2) ∧ decode 0x04400004 = .ok (.octPad 4 4) ∧
    decode 0x05650002 = .ok (.octTail 6 5 2) ∧ decode 0x06012000 = .ok (.octCteq 1 2) := by decide

theorem test_decode_field_linear :
    decode 0x10100000 = .ok (.bnZero 1 .w2048) ∧ decode 0x11100080 = .ok (.bnOne 1 .w8192) ∧
    decode 0x12320040 = .ok (.bnCopy 3 2 .w4096) ∧ decode 0x13201000 = .ok (.bnAdd 2 0 1 .w2048) ∧
    decode 0x14201000 = .ok (.bnSub 2 0 1 .w2048) ∧ decode 0x15110000 = .ok (.bnNorm 1 1 .w2048) ∧
    decode 0x16053040 = .ok (.bnCmp 5 3 .w4096) ∧ decode 0x17100000 = .ok (.bnShlw 1 0 .w2048) ∧
    decode 0x18100000 = .ok (.bnShrw 1 0 .w2048) := by decide

theorem test_decode_field_products :
    decode 0x19201040 = .ok (.bnMul 2 0 1 .w4096) ∧ decode 0x1A200000 = .ok (.bnSqr 2 0 .w2048) ∧
    decode 0x1B321000 = .ok (.bnMod 3 2 1 .w2048) ∧ decode 0x1C412300 = .ok (.bnPow 4 1 2 3 .w2048) ∧
    decode 0x1D312000 = .ok (.bnInv 3 1 2 .w2048) ∧ decode 0x1E210000 = .ok (.bnInv2m 2 1 .w2048) ∧
    decode 0x1F210000 = .ok (.bnRand 2 1 .w2048) ∧ decode 0x20010000 = .ok (.bnPrime 1 .w2048) ∧
    decode 0x21000000 = .ok (.bnLoad 0 0 .w2048) ∧ decode 0x22100000 = .ok (.bnStore 1 0 .w2048) := by decide

theorem test_decode_marshal_divide :
    decode 0x30210040 = .ok (.wpPromote 2 1 .w4096) ∧ decode 0x31430000 = .ok (.wpTrunc 4 3 .w2048) ∧
    decode 0x38423040 = .ok (.ldDiv 4 2 3 none .w4096) ∧ decode 0x38423541 = .ok (.ldDiv 4 2 3 (some 5) .w4096) := by decide

theorem test_decode_keys :
    decode 0x40000000 = .ok (.plKeygen .plain none) ∧ decode 0x40000001 = .ok (.plKeygen .crt none) ∧
    decode 0x40001002 = .ok (.plKeygen .plain (some (0, 1))) ∧ decode 0x40001003 = .ok (.plKeygen .crt (some (0, 1))) ∧
    decode 0x41000000 = .ok (.plPkload 0) ∧ decode 0x42500002 = .ok (.plKeyrd 5 .n2) ∧
    decode 0x43000000 = .ok .plSkkill := by decide

theorem test_decode_paillier_rng :
    decode 0x48510000 = .ok (.plEnc 5 1 none none) ∧ decode 0x48826001 = .ok (.plEnc 8 2 (some 6) none) ∧
    decode 0x48423503 = .ok (.plEnc 4 2 (some 3) (some 5)) ∧ decode 0x49A90000 = .ok (.plDec 10 9) ∧
    decode 0x4ACAB000 = .ok (.plAdd 12 10 11) ∧ decode 0x4BA84000 = .ok (.plMul 10 8 4) ∧
    decode 0x50000000 = .ok (.rnSeed 0) ∧ decode 0x51000000 = .ok .rnKill := by decide

theorem test_decode_illegal :
    decode 0x00000000 = .error .reservedOpcode ∧ decode 0x07000000 = .error .reservedOpcode ∧
    decode 0x19201080 = .error .illegalWidth ∧ decode 0x102000C0 = .error .illegalWidth ∧
    decode 0x10210000 = .error .mustBeZero ∧ decode 0x13201001 = .error .undefinedFlag ∧
    decode 0x30210000 = .error .illegalWidth ∧ decode 0x31210080 = .error .illegalWidth ∧
    decode 0x38423500 = .error .mustBeZero ∧ decode 0x40001001 = .error .mustBeZero ∧
    decode 0x42500003 = .error .illegalField ∧ decode 0x48510040 = .error .illegalWidth ∧
    decode 0x04410004 = .error .mustBeZero := by decide

/-! ## A small state -/

/-- Every capacity 1024 but o15's, 2; three candidates a search; words of 64 bits. -/
def smallParams : Params where
  octCap := (Vector.replicate 16 ⟨1024, by decide⟩).set 15 ⟨2, by decide⟩
  primeSearchMax := ⟨3, by decide⟩
  bniWordBits := ⟨64, by decide⟩

/-- A reset machine with those parameters and a command word in flight. -/
def base : State := { State.reset with params := smallParams, cmd := some 0x13201000 }

/-- The toy key of 45_paillier.md: p = 7, q = 11, n = 77, λ = 60, μ = 9. -/
def toyPk : PubKey where
  valid := true
  n := 77
  g := 78
  n2 := 5929

/-- Registers, octets and the toy key for the tests. -/
def demo : State :=
  { base with
    pk := toyPk
    sk := PlainKey 77 60 9
    rngs := true
    octLen := (((Vector.replicate 16 0).set 0 2).set 1 2).set 2 1
    mem := [(0x10000, 1), (0x11000, 1), (0x11001, 2), (0x12000, 3)]
    regs := (((((((((((Vector.replicate 16 WideReg.unwritten).set 0 (.normal .w2048 5)).set 1 (.normal .w2048 3)).set 2
      (.normal .w4096 100)).set 3 (.denormal .w2048 (-2))).set 4 (.normal .w2048 0)).set 5 (.normal .w8192 7)).set 6
      (.normal .w4096 3840)).set 7 (.normal .w2048 42)).set 8 (.normal .w2048 23)).set 10 (.normal .w4096 35)).set 11
      (.normal .w2048 77) }

/-- The toy key's CRT form (R234). -/
def toyCrt : PrivKey := crtSk 7 11

/-- The state with given tables of the random source's answers. -/
def sourced (fails : List (Nat × Bool)) (rands : List (Nat × Nat)) (primes : List ((Nat × Width × Nat) × Bool)) (s : State) :
    State :=
  { s with rng := { s.rng with failAnswers := fails, randAnswers := rands, primeAnswers := primes } }

/-- The state a command leaves, if it answers one. -/
def after (i : Instr) (s : State) : Option State :=
  match exec i s with
  | .next t => some t
  | _ => none

/-- A wide register after a command. -/
def regAfter (i : Instr) (s : State) (d : BReg) : Option WideReg := (after i s).map (fun t => reg t d)

/-- An octet's string after a command. -/
def octAfter (i : Instr) (s : State) (d : OReg) : Option (List Byte) := (after i s).map (fun t => octStr t d)

/-- FAULT with its code, after a command. -/
def faultAfter (i : Instr) (s : State) : Option (Bool × FaultCode × Word) :=
  (after i s).map (fun t => (t.status.fault, t.status.fcode, t.faultCmd))

/-- What the fault of the command in flight in `base` reads as. -/
def faulted (code : FaultCode) : Option (Bool × FaultCode × Word) := some (true, code, 0x13201000)

/-! ## Steps: octet commands (the examples of R140 to R146) -/

theorem test_octZero : octAfter (.octZero 1) demo 1 = some [] ∧
    (after (.octZero 1) demo).map (fun t => octByte t 1 1) = some 0 := by decide +kernel
theorem test_octCopy : octAfter (.octCopy 2 1) demo 2 = some [1, 2] := by decide +kernel
theorem test_octAppend : octAfter (.octAppend 1 2) demo 1 = some [1, 2, 3] := by decide +kernel
theorem test_octAppend_self : octAfter (.octAppend 1 1) demo 1 = some [1, 2, 1, 2] := by decide +kernel
theorem test_octPad : octAfter (.octPad 1 4) demo 1 = some [0, 0, 1, 2] := by decide +kernel
theorem test_octPad_range : faultAfter (.octPad 1 1) demo = faulted .octRange := by decide +kernel
theorem test_octTail : octAfter (.octTail 3 1 1) demo 3 = some [2] := by decide +kernel
theorem test_octTail_range : faultAfter (.octTail 3 1 3) demo = faulted .octRange := by decide +kernel
theorem test_octCteq_unequal : (after (.octCteq 0 1) demo).map (fun t => t.status.eq) = some false := by decide +kernel
theorem test_octCteq_equal : (after (.octCteq 1 1) demo).map (fun t => t.status.eq) = some true := by decide +kernel

/-! ## Steps: field commands (the examples of R162 to R180) -/

theorem test_bnZero : regAfter (.bnZero 9 .w2048) demo 9 = some (.normal .w2048 0) := by decide +kernel
theorem test_bnOne : regAfter (.bnOne 9 .w8192) demo 9 = some (.normal .w8192 1) := by decide +kernel
theorem test_bnCopy : regAfter (.bnCopy 9 3 .w2048) demo 9 = some (.denormal .w2048 (-2)) := by decide +kernel
theorem test_bnCopy_width : faultAfter (.bnCopy 9 2 .w2048) demo = faulted .widthMismatch := by decide +kernel
theorem test_bnAdd : regAfter (.bnAdd 9 0 1 .w2048) demo 9 = some (.denormal .w2048 8) := by decide +kernel
theorem test_bnAdd_denorm : faultAfter (.bnAdd 9 3 1 .w2048) demo = faulted .denorm := by decide +kernel
theorem test_bnSub : regAfter (.bnSub 9 1 0 .w2048) demo 9 = some (.denormal .w2048 (-2)) := by decide +kernel
theorem test_bnNorm : regAfter (.bnNorm 9 3 .w2048) demo 9 = some (.normal .w2048 (2 ^ 2048 - 2)) := by decide +kernel
theorem test_bnCmp : (after (.bnCmp 0 1 .w2048) demo).map (fun t => t.status.cmp) = some .greater := by decide +kernel
theorem test_bnCmp_less : (after (.bnCmp 1 0 .w2048) demo).map (fun t => t.status.cmp) = some .less := by decide +kernel
theorem test_bnShlw : regAfter (.bnShlw 9 0 .w2048) demo 9 = some (.normal .w2048 (5 * 2 ^ 64)) := by decide +kernel
theorem test_bnShrw : regAfter (.bnShrw 9 0 .w2048) demo 9 = some (.normal .w2048 0) := by decide +kernel
theorem test_bnMul : regAfter (.bnMul 9 0 1 .w2048) demo 9 = some (.normal .w4096 15) := by decide +kernel
theorem test_bnSqr : regAfter (.bnSqr 9 2 .w4096) demo 9 = some (.normal .w8192 10000) := by decide +kernel
theorem test_bnMod : regAfter (.bnMod 9 2 1 .w2048) demo 9 = some (.normal .w2048 1) := by decide +kernel
theorem test_bnMod_zero : faultAfter (.bnMod 9 2 4 .w2048) demo = faulted .divZero := by decide +kernel
theorem test_bnPow : regAfter (.bnPow 9 0 1 11 .w2048) demo 9 = some (.normal .w2048 48) := by decide +kernel
theorem test_bnPow_even : faultAfter (.bnPow 9 0 1 7 .w2048) demo = faulted .evenModulus := by decide +kernel
theorem test_bnInv : regAfter (.bnInv 9 1 0 .w2048) demo 9 = some (.normal .w2048 2) := by decide +kernel
theorem test_bnInv_none : faultAfter (.bnInv 9 7 11 .w2048) demo = faulted .noInverse := by decide +kernel
theorem test_bnInv2m : regAfter (.bnInv2m 9 1 .w2048) demo 9 = some (.normal .w2048 ((2 ^ 2049 + 1) / 3)) := by
  decide +kernel
theorem test_bnInv2m_even : faultAfter (.bnInv2m 9 7 .w2048) demo = faulted .noInverse := by decide +kernel
theorem test_bnRand : regAfter (.bnRand 9 0 .w2048) (sourced [(0, false)] [(1, 4)] [] demo) 9 =
    some (.normal .w2048 4) := by decide +kernel
theorem test_bnRand_fail : faultAfter (.bnRand 9 0 .w2048) (sourced [(0, true)] [] [] demo) =
    faulted .rngFail := by decide +kernel
theorem test_bnPrime : (after (.bnPrime 0 .w2048) (sourced [(0, false)] [] [((1, .w2048, 5), true)] demo)).map
    (fun t => (t.status.prime, t.rng.drawn)) = some (true, 2) := by decide +kernel
theorem test_bnPrime_unseeded : faultAfter (.bnPrime 0 .w2048) { demo with rngs := false } = faulted .rngUnseeded := by
  decide +kernel
theorem test_bnLoad : regAfter (.bnLoad 9 0 .w2048) demo 9 = some (.normal .w2048 256) := by decide +kernel
theorem test_bnStore : (after (.bnStore 3 0 .w2048) demo).map (fun t => (t.octLen[3], octByte t 3 255, octByte t 3 0)) =
    some (256, 5, 0) := by decide +kernel
theorem test_bnStore_capacity : faultAfter (.bnStore 15 0 .w2048) demo = faulted .octCapacity := by decide +kernel

/-! ## Steps: marshaler and divider (the examples of R210 to R220) -/

theorem test_wpPromote : regAfter (.wpPromote 9 0 .w8192) demo 9 = some (.normal .w8192 5) := by decide +kernel
theorem test_wpPromote_narrow : faultAfter (.wpPromote 9 2 .w4096) demo = faulted .widthMismatch := by decide +kernel
theorem test_wpTrunc : regAfter (.wpTrunc 9 9 .w2048)
    { demo with regs := demo.regs.set 9 (.normal .w4096 (2 ^ 2048 + 5)) } 9 = some (.normal .w2048 5) := by decide +kernel
theorem test_wpTrunc_wide : faultAfter (.wpTrunc 9 0 .w2048) demo = faulted .widthMismatch := by decide +kernel
theorem test_ldDiv : regAfter (.ldDiv 9 7 0 (some 12) .w2048) demo 9 = some (.normal .w2048 8) ∧
    regAfter (.ldDiv 9 7 0 (some 12) .w2048) demo 12 = some (.normal .w2048 2) := by decide +kernel
theorem test_ldDiv_conflict : faultAfter (.ldDiv 9 7 4 (some 9) .w2048) demo = faulted .regConflict := by decide +kernel

/-! ## Steps: Paillier and RNG commands (the toy examples of R230 to R249, R270, R272) -/

/-- Two 1024-bit numbers congruent to 3 modulo 4, coprime to each other and with an inverse of λ; not primes. -/
def bigP : Nat := 2 ^ 1023 + 3
def bigQ : Nat := 2 ^ 1023 + 11

/-- The demo state with those numbers in b12 and b13. -/
def keyed : State := { demo with regs := (demo.regs.set 12 (.normal .w2048 bigP)).set 13 (.normal .w2048 bigQ) }

theorem test_plKeygen_plain : (after (.plKeygen .plain (some (12, 13))) keyed).map
    (fun t => (decide (t.pk.n = bigP * bigQ), t.sk.kind, decide (t.sk.l * t.sk.m % t.sk.n = 1))) = some (true, .plain, true) := by
  decide +kernel
theorem test_plKeygen_small : faultAfter (.plKeygen .crt (some (0, 1))) demo = faulted .keyInvalid := by decide +kernel
theorem test_plPkload : (after (.plPkload 11) demo).map (fun t => t.pk) = some toyPk := by decide +kernel
theorem test_plPkload_even : faultAfter (.plPkload 7) demo = faulted .keyInvalid := by decide +kernel
theorem test_plKeyrd : regAfter (.plKeyrd 9 .n2) demo 9 = some (.normal .w4096 5929) := by decide +kernel
theorem test_plKeyrd_none : faultAfter (.plKeyrd 9 .n) base = faulted .noPubkey := by decide +kernel
theorem test_plSkkill : (after .plSkkill demo).map (fun t => (t.sk, t.pk.valid)) = some (NoKey, true) := by decide +kernel
theorem test_plEnc : regAfter (.plEnc 9 7 (some 8) none) demo 9 = some (.normal .w4096 3840) := by decide +kernel
theorem test_plEnc_drawn : regAfter (.plEnc 9 7 none (some 12)) (sourced [(0, false)] [(1, 23)] [] demo) 12 =
    some (.normal .w2048 23) := by decide +kernel
theorem test_plDec_plain : regAfter (.plDec 9 6) demo 9 = some (.normal .w2048 42) := by decide +kernel
theorem test_plDec_crt : regAfter (.plDec 9 6) { demo with sk := toyCrt } 9 = some (.normal .w2048 42) ∧
    faultAfter (.plDec 9 10) { demo with sk := toyCrt } = faulted .ctInvalid := by decide +kernel
theorem test_plAdd : regAfter (.plAdd 9 6 10) demo 9 = some (.normal .w4096 (3840 * 35 % 5929)) := by decide +kernel
theorem test_plMul : regAfter (.plMul 9 6 1) demo 9 = some (.normal .w4096 (3840 ^ 3 % 5929)) := by decide +kernel
theorem test_rnSeed : (after (.rnSeed 1) demo).map (fun t => (t.rngs, t.rng.calls)) = some (true, [.seed [1, 2]]) := by
  decide +kernel
theorem test_rnSeed_empty : faultAfter (.rnSeed 3) demo = faulted .octRange := by decide +kernel
theorem test_rnKill : (after .rnKill demo).map (fun t => (t.rngs, t.rng.calls)) = some (false, [.destroy]) := by decide +kernel

/-! ## Steps: the bus and the engine (R43, R86, R90) -/

theorem test_bus_lanes : (hostAccess (.read32 0x11000) demo).replies = [.word 0x00000201] := by decide +kernel
theorem test_status_fault : (after (.plKeyrd 9 .n) base).map statusWord = some 0x00000E04 := by decide +kernel
theorem test_step_issues : (match step { base with cmd := none, inputs := [.issue (.write32 0x00000 0x10100000)] } with
    | .next t => t.cmd
    | _ => none) = some 0x10100000 := by decide +kernel
theorem test_step_runs : (match step (base.withFetchWord 32 0x10100000) with
    | .next t => some (reg t 1, t.status.done, t.cmd)
    | _ => none) = some (.normal .w2048 0, true, none) := by decide +kernel

/-! ## Witnesses: for each obligation with hypotheses, states and operands that meet them, clause by clause -/

theorem witness_DecodeOfEncodeIsTheCommand : (Instr.ldDiv 15 15 15 (some 0) .w8192).wf = true := by decide

theorem witness_EncodeOfDecodeIsTheWord : decode 0x19201040 = .ok (.bnMul 2 0 1 .w4096) := by decide

theorem witness_EveryIllegalWordFaults :
    (Word.op 0xFF000000 ∉ mappedOpcodes) ∧ BadZeroField 0x10210000 ∧ BadZeroField 0x38423500 ∧ BadWidth 0x19201080 ∧
    BadWidth 0x30210000 ∧ BadFlags 0x13201001 ∧ BadFlags 0x42500003 ∧
    ({ base with cmd := some 0x42500003 } : State).cmd = some 0x42500003 := by
  refine ⟨by decide, ?_, ?_, ?_, ?_, ?_, ?_, rfl⟩
  · unfold BadZeroField
    decide
  · unfold BadZeroField
    decide
  · unfold BadWidth
    decide
  · unfold BadWidth
    decide
  · unfold BadFlags
    decide
  · unfold BadFlags
    decide

theorem witness_StepRunsThePendingCommand :
    base.cmd = some 0x13201000 ∧ ({ base with inputs := [.quiet] } : State).inputs = .quiet :: [] ∧ base.inputs = [] ∧
    ({ base with port := [.read8 0x10000] } : State).port.head? ≠ some (.read32 0x00004) ∧
    decode 0x13201000 = .ok (.bnAdd 2 0 1 .w2048) ∧
    ({ base with cmd := some 0 } : State).cmd = some 0 ∧ decode 0 = .error .reservedOpcode := by decide +kernel

theorem witness_CommandCompletesOrFaultsPrecisely : demo.cmd = some 0x13201000 := by decide +kernel

theorem witness_OperandCheckReportsByCategory :
    (Instr.bnAdd 2 9 1 .w2048).wf = true ∧ ¬ RegConflict (.bnAdd 2 9 1 .w2048) ∧
    (∃ e ∈ operandsOf (.bnAdd 2 9 1 .w2048), reg demo e.reg = .unwritten) ∧
    (∀ e ∈ operandsOf (.bnAdd 9 2 3 .w2048), reg demo e.reg ≠ .unwritten) ∧
    (∃ e ∈ operandsOf (.bnAdd 9 2 3 .w2048), (reg demo e.reg).tag ≠ some e.width) ∧
    (∀ e ∈ operandsOf (.bnAdd 9 0 3 .w2048), (reg demo e.reg).tag = some e.width) ∧
    (∃ e ∈ operandsOf (.bnAdd 9 0 3 .w2048), e.normalized = true ∧ (reg demo e.reg).norm = false) := by
  unfold RegConflict
  decide +kernel

theorem witness_KeyStoreChangesOnlyByItsCommands : ∃ t, exec .plSkkill demo = .next t := ⟨_, rfl⟩

theorem witness_ResultFlagsChangeOnlyByTheirCommands : ∃ t, exec (.octCteq 0 1) demo = .next t := ⟨_, rfl⟩

theorem witness_OnlyDestinationRegistersChange : ∃ t, exec (.bnZero 1 .w2048) demo = .next t ∧
    (2 : BReg) ∉ destRegs (.bnZero 1 .w2048) := ⟨_, rfl, by decide⟩

theorem witness_OnlyDestinationOctetChanges : ∃ t, exec (.octZero 1) demo = .next t ∧ (0 : OReg) ∉ destOctets (.octZero 1) ∧
    ∀ d ∈ destOctets (.octZero 1), octAddr 1 1024 < octAddr d 0 ∨ octAddr d 0 + octCap demo d ≤ octAddr 1 1024 :=
  ⟨_, rfl, by decide, by decide +kernel⟩

/-- Two states that differ in a register's value and in a private-key field only. -/
theorem witness_HostAccessReachesNoSecretState :
    (∀ i : BReg, (demo.regs.set 0 (.normal .w2048 6))[i].tag = (reg demo i).tag ∧
      (demo.regs.set 0 (.normal .w2048 6))[i].norm = (reg demo i).norm) ∧
    demo.regs.set 0 (.normal .w2048 6) ≠ demo.regs ∧ ({ demo.sk with l := 77 } : PrivKey).kind = demo.sk.kind := by
  decide +kernel

theorem witness_CommandWriteIsLatchedUnlessFault :
    demo.status.fault = false ∧ ({ demo with status := { demo.status with fault := true } } : State).status.fault = true := by
  decide +kernel

theorem witness_OctLenIsReadAndBounded :
    demo.octLen[(0 : OReg)] ≤ octCap demo 0 ∧ ((0xFFFFE400 : Word).extractLsb' 0 13).toNat ≤ octCap demo 0 ∧
    octCap demo 0 < ((0x00000401 : Word).extractLsb' 0 13).toNat := by decide +kernel

theorem witness_WindowAccessesReadAndWriteBytes :
    1023 < octCap demo 0 ∧ 1 < octCap demo 15 ∧ 1020 % 4 = 0 ∧ 1020 + 3 < octCap demo 0 := by decide +kernel

theorem witness_RefusedAccessOnlySetsBerr :
    (∀ i k, ¬ WindowByte demo (0x00014 : Offset).toNat i k) ∧
    ¬ ControlOffset (0x1F000 : Offset).toNat ∧ ¬ WindowWord demo (0x1F000 : Offset).toNat ∧
    ReadOnlyOffset (0x00008 : Offset).toNat ∧ ReadOnlyOffset (0x0033C : Offset).toNat ∧
    (0x0013C : Offset).toNat = 0x00100 + 4 * (15 : OReg).val ∧ octCap demo 15 < ((3 : Word).extractLsb' 0 13).toNat ∧
    ({ demo with status := { demo.status with fault := true } } : State).status.fault = true := by
  refine ⟨fun i k h => ?_, ?_, ?_, ?_, ?_, by decide, by decide +kernel, rfl⟩
  · have h1 := h.1
    rw [show (0x00014 : Offset).toNat = 0x14 from rfl] at h1
    omega
  · unfold ControlOffset
    decide
  · rintro ⟨i, k, h1, _, h2⟩
    rw [show (0x1F000 : Offset).toNat = 0x1F000 from rfl] at h1
    have hi := i.isLt
    have hk : k < 4096 := by
      have := (demo.params.octCap[i]).property.2
      unfold octCap at h2
      omega
    have : i = 15 := Fin.ext (show i.val = 15 by omega)
    subst this
    have : octCap demo 15 = 2 := by decide +kernel
    omega
  · unfold ReadOnlyOffset
    decide
  · unfold ReadOnlyOffset
    decide

theorem witness_AccessesStallWhileBusy :
    ({ base with cmd := none, inputs := [.issue (.read8 0x10000)] } : State).inputs = .issue (.read8 0x10000) :: [] ∧
    base.port = [] ∧ ({ base with cmd := none } : State).cmd = none ∧
    ({ base with inputs := [.issue (.read32 0x00004)] } : State).inputs = .issue (.read32 0x00004) :: [] ∧
    base.cmd.isSome = true ∧ (HostAccess.write32 0x00004 4) ≠ .read32 0x00004 ∧ base.inputs = [] ∧
    ({ base with port := [.read8 0x10000] } : State).port = .read8 0x10000 :: [] := by decide +kernel

theorem witness_ResetGivesTheResetValues : ({ demo with inputs := [.reset] } : State).inputs = .reset :: [] := by decide

theorem witness_OctZeroAndPadWriteTheirOctet :
    demo.octLen[(1 : OReg)] ≤ (2 : BitVec 16).toNat ∧ (1024 : BitVec 16).toNat ≤ octCap demo 1 ∧
    demo.octLen[(3 : OReg)] ≤ (0 : BitVec 16).toNat := by decide +kernel

theorem witness_StoringCommandsWriteTheString :
    demo.octLen[(1 : OReg)] ≤ octCap demo 15 ∧ demo.octLen[(1 : OReg)] + demo.octLen[(2 : OReg)] ≤ octCap demo 1 ∧
    (2 : BitVec 16).toNat ≤ demo.octLen[(1 : OReg)] ∧ (2 : BitVec 16).toNat ≤ octCap demo 15 ∧
    reg demo 0 = .normal .w2048 5 ∧ 5 < 2 ^ Width.w2048.bits ∧ Width.w2048.bytes ≤ octCap demo 3 := by decide +kernel

/-- A state whose o1 holds three bytes, one past the capacity of o15. -/
def longOctet : State := { demo with octLen := demo.octLen.set 1 3 }

theorem witness_StoringCommandsPastCapacity :
    octCap longOctet 15 < longOctet.octLen[(1 : OReg)] ∧ longOctet.cappol = .fault ∧
    ({ longOctet with cappol := .truncate } : State).cappol = .truncate ∧
    octCap longOctet 15 < longOctet.octLen[(15 : OReg)] + longOctet.octLen[(1 : OReg)] ∧
    (3 : BitVec 16).toNat ≤ longOctet.octLen[(1 : OReg)] ∧ octCap longOctet 15 < (3 : BitVec 16).toNat ∧
    reg longOctet 0 = .normal .w2048 5 ∧ 5 < 2 ^ Width.w2048.bits ∧ octCap longOctet 15 < Width.w2048.bytes := by decide +kernel

theorem witness_OctetLaws : demo.octLen[(1 : OReg)] ≤ (1024 : BitVec 16).toNat ∧ (1024 : BitVec 16).toNat ≤ octCap demo 1 := by
  decide +kernel

theorem witness_LengthOutOfRangeFaults :
    (1 : BitVec 16).toNat < demo.octLen[(1 : OReg)] ∧ octCap demo 1 < (1025 : BitVec 16).toNat ∧
    demo.octLen[(1 : OReg)] < (3 : BitVec 16).toNat ∧
    Width.w2048.bytes < ({ demo with octLen := demo.octLen.set 1 257 } : State).octLen[(1 : OReg)] ∧
    demo.octLen[(3 : OReg)] = 0 := by decide +kernel

theorem witness_BnConstantsAndCopy : (reg demo 3).tag = some .w2048 := by decide +kernel

theorem witness_BnAddSubAndNorm :
    reg demo 0 = .normal .w2048 5 ∧ reg demo 1 = .normal .w2048 3 ∧ reg demo 3 = .denormal .w2048 (-2) := by decide +kernel

theorem witness_BnCmpWritesTheOrder : reg demo 0 = .normal .w2048 5 ∧ reg demo 4 = .normal .w2048 0 := by decide +kernel

theorem witness_BnWordShifts : reg demo 5 = .normal .w8192 7 := by decide +kernel

theorem witness_BnMulSqrAndModUseTheDoubleWidth :
    Width.w4096.bits = 2 * Width.w2048.bits ∧ reg demo 1 = .normal .w2048 3 ∧ reg demo 0 = .normal .w2048 5 ∧
    reg demo 2 = .normal .w4096 100 ∧ reg demo 4 = .normal .w2048 0 ∧ Width.w8192.bits = 2 * Width.w4096.bits := by decide +kernel

theorem witness_BnPowIsModularExponentiation :
    reg demo 0 = .normal .w2048 5 ∧ reg demo 1 = .normal .w2048 3 ∧ reg demo 11 = .normal .w2048 77 ∧ 77 % 2 = 1 ∧
    reg demo 4 = .normal .w2048 0 ∧ reg demo 7 = .normal .w2048 42 ∧ 42 ≠ 0 ∧ 42 % 2 = 0 := by decide +kernel

theorem witness_BnInvAndInv2mLeaveTheInverse :
    reg demo 1 = .normal .w2048 3 ∧ reg demo 0 = .normal .w2048 5 ∧ 5 ≠ 0 ∧ Nat.gcd 3 5 = 1 ∧ reg demo 4 = .normal .w2048 0 ∧
    reg demo 7 = .normal .w2048 42 ∧ reg demo 11 = .normal .w2048 77 ∧ Nat.gcd 42 77 ≠ 1 ∧ 3 % 2 = 1 ∧ 42 % 2 = 0 := by
  decide +kernel

theorem witness_BnRandAndPrimeFollowTheOracle :
    reg demo 0 = .normal .w2048 5 ∧ demo.rngs = true ∧ 5 ≠ 0 ∧ 4 < 5 ∧
    (sourced [(0, false)] [] [] demo).rng.failAt (sourced [(0, false)] [] [] demo).rng.drawn = false ∧
    (sourced [(0, true)] [] [] demo).rng.failAt (sourced [(0, true)] [] [] demo).rng.drawn = true ∧
    ({ demo with rngs := false } : State).rngs = false ∧ reg demo 4 = .normal .w2048 0 := by decide +kernel

theorem witness_BnLoadReadsBigEndian :
    demo.octLen[(0 : OReg)] ≤ Width.w2048.bytes ∧
    ({ demo with octLen := demo.octLen.set 0 256 } : State).octLen[(0 : OReg)] ≤ Width.w2048.bytes := by decide +kernel

theorem witness_FieldCommandLaws :
    reg demo 0 = .normal .w2048 5 ∧ 5 < 2 ^ Width.w2048.bits ∧ demo.cappol = .fault ∧
    (after (.bnStore 3 0 .w2048) demo).map (fun t => t.status.done) = some true ∧ reg demo 1 = .normal .w2048 3 ∧
    Width.w4096.bits = 2 * Width.w2048.bits ∧ reg demo 11 = .normal .w2048 77 ∧ 77 ≠ 0 ∧ (11 : BReg) ≠ 9 ∧ 2 ≤ 3 ∧
    Nat.gcd 5 3 = 1 := by decide +kernel

theorem witness_PromoteKeepsAndTruncReducesTheValue :
    Width.w2048.bits < Width.w8192.bits ∧ reg demo 0 = .normal .w2048 5 ∧ 5 < 2 ^ Width.w2048.bits ∧
    reg demo 5 = .normal .w8192 7 ∧ 7 < 2 ^ Width.w8192.bits := by decide +kernel

theorem witness_PromoteThenTruncIsIdentity :
    reg demo 0 = .normal .w2048 5 ∧ 5 < 2 ^ Width.w2048.bits ∧ Width.w2048.bits < Width.w4096.bits ∧
    Width.w2048.bytes ≤ octCap demo 3 := by decide +kernel

theorem witness_MarshalerChecksItsSource :
    reg demo 9 = .unwritten ∧ (reg demo 2).tag = some .w4096 ∧ Width.w4096.bits ≤ Width.w4096.bits ∧
    (reg demo 3).tag = some .w2048 ∧ Width.w2048.bits < Width.w4096.bits ∧ (reg demo 3).norm = false ∧
    Width.w2048.bits ≤ Width.w2048.bits ∧
    (reg { demo with regs := demo.regs.set 9 (.denormal .w4096 1) } 9).norm = false := by decide +kernel

theorem witness_LdDivLeavesQuotientAndRemainder :
    reg demo 7 = .normal .w2048 42 ∧ reg demo 0 = .normal .w2048 5 ∧ 5 ≠ 0 ∧ (12 : BReg) ≠ 9 ∧ reg demo 4 = .normal .w2048 0 ∧
    (some 12 : Option BReg) ≠ some 9 := by decide +kernel

theorem witness_KeygenFromSuppliedPrimes :
    reg keyed 12 = .normal .w2048 bigP ∧ reg keyed 13 = .normal .w2048 bigQ ∧ PrimeSized bigP ∧ PrimeSized bigQ ∧
    bigP ≠ bigQ ∧ Nat.gcd ((bigP - 1) * (bigQ - 1)) (bigP * bigQ) = 1 ∧ Nat.gcd bigP bigQ = 1 ∧ ¬ PrimeSized 7 := by
  unfold PrimeSized
  decide +kernel

/-- A source whose two searches accept their first candidates, p and q. -/
def keySource (p q : Nat) : State :=
  sourced [(0, false), (2, false), (4, false), (6, false)] [(1, p - 2 ^ 1023), (5, q - 2 ^ 1023)]
    [((3, .w2048, p), true), ((7, .w2048, q), true)] demo

/-- A source that fails at a given draw only. -/
def failingSource (n : Nat) : State :=
  sourced ((n, true) :: [(0, false), (2, false), (4, false), (6, false)]) [(1, 5), (5, 2 ^ 1023 - 1)]
    [((3, .w2048, 2 ^ 1023 + 7), true), ((7, .w2048, 2 ^ 1024 - 1), false)] demo

/-- A source that rejects the candidates from 2^1023 + 7 on, all but the third if `third`. -/
def rejectingSource (third : Bool) : State :=
  sourced [(0, false), (2, false), (4, false), (6, false)] [(1, 5)]
    [((3, .w2048, 2 ^ 1023 + 7), false), ((5, .w2048, 2 ^ 1023 + 11), false), ((7, .w2048, 2 ^ 1023 + 15), third)] demo

theorem searchEnds_bigP : SearchEnds 3 (keySource bigP bigQ).rng (.ok bigP) 4 := by
  refine .inr ⟨bigP, 0, ?_, .inr (.inr (by decide +kernel))⟩
  unfold RejectsCandidates
  decide +kernel

theorem searchEnds_bigQ : SearchEnds 3 ((keySource bigP bigQ).rng.afterDraws 4) (.ok bigQ) 4 := by
  refine .inr ⟨bigQ, 0, ?_, .inr (.inr (by decide +kernel))⟩
  unfold RejectsCandidates
  decide +kernel

theorem searchEnds_twice : SearchEnds 3 (keySource bigP bigP).rng (.ok bigP) 4 ∧
    SearchEnds 3 ((keySource bigP bigP).rng.afterDraws 4) (.ok bigP) 4 := by
  constructor <;> refine .inr ⟨bigP, 0, ?_, .inr (.inr (by decide +kernel))⟩ <;> unfold RejectsCandidates <;> decide +kernel

/-- Two candidates with 3 a common divisor of (p-1)(q-1) and pq. -/
theorem searchEnds_noInverse : SearchEnds 3 (keySource (2 ^ 1023 + 7) bigQ).rng (.ok (2 ^ 1023 + 7)) 4 ∧
    SearchEnds 3 ((keySource (2 ^ 1023 + 7) bigQ).rng.afterDraws 4) (.ok bigQ) 4 ∧
    Nat.gcd ((2 ^ 1023 + 7 - 1) * (bigQ - 1)) ((2 ^ 1023 + 7) * bigQ) ≠ 1 := by
  refine ⟨.inr ⟨2 ^ 1023 + 7, 0, ?_, .inr (.inr (by decide +kernel))⟩, .inr ⟨bigQ, 0, ?_, .inr (.inr (by decide +kernel))⟩,
    by decide +kernel⟩ <;> unfold RejectsCandidates <;> decide +kernel

/-- A failure at the first draw, and one before the first candidate. -/
theorem searchEnds_fails : SearchEnds 3 (failingSource 0).rng (.error .rngFail) 1 ∧
    SearchEnds 3 (failingSource 2).rng (.error .rngFail) 3 := by
  refine ⟨.inl (by decide +kernel), .inr ⟨2 ^ 1023 + 7, 0, ?_, .inr (.inl (by decide +kernel))⟩⟩
  unfold RejectsCandidates
  decide +kernel

/-- The second search failing, and the second search exhausted at 2^1024 after one candidate. -/
theorem searchEnds_second : SearchEnds 3 (failingSource 9).rng (.ok (2 ^ 1023 + 7)) 4 ∧
    SearchEnds 3 ((failingSource 4).rng.afterDraws 4) (.error .rngFail) 1 ∧
    SearchEnds 3 ((failingSource 9).rng.afterDraws 4) (.error .primeSearchExhausted) 4 := by
  refine ⟨.inr ⟨2 ^ 1023 + 7, 0, ?_, .inr (.inr (by decide +kernel))⟩, .inl (by decide +kernel),
    .inr ⟨2 ^ 1024 - 1, 1, ?_, .inl (by decide +kernel)⟩⟩ <;> unfold RejectsCandidates <;> decide +kernel

/-- The third candidate accepted, and all three rejected. -/
theorem searchEnds_third : SearchEnds 3 (rejectingSource true).rng (.ok (2 ^ 1023 + 15)) 8 ∧
    SearchEnds 3 (rejectingSource false).rng (.error .primeSearchExhausted) 8 := by
  refine ⟨.inr ⟨2 ^ 1023 + 7, 2, ?_, .inr (.inr (by decide +kernel))⟩, .inr ⟨2 ^ 1023 + 7, 3, ?_, .inl (by decide +kernel)⟩⟩ <;>
    unfold RejectsCandidates <;> decide +kernel

/-- Every clause: both searches answer, with and without keys; the first or the second ends in a fault; no seed. -/
theorem witness_KeygenFromDrawnPrimes :
    demo.params.primeSearchMax.val = 3 ∧ demo.rngs = true ∧ base.rngs = false ∧
    (SearchEnds 3 (keySource bigP bigQ).rng (.ok bigP) 4 ∧ SearchEnds 3 ((keySource bigP bigQ).rng.afterDraws 4) (.ok bigQ) 4 ∧
      bigP ≠ bigQ ∧ Nat.gcd ((bigP - 1) * (bigQ - 1)) (bigP * bigQ) = 1 ∧ Nat.gcd bigP bigQ = 1) ∧
    (SearchEnds 3 (keySource bigP bigP).rng (.ok bigP) 4 ∧
      SearchEnds 3 ((keySource bigP bigP).rng.afterDraws 4) (.ok bigP) 4) ∧
    SearchEnds 3 (failingSource 0).rng (.error .rngFail) 1 ∧
    SearchEnds 3 (failingSource 9).rng (.ok (2 ^ 1023 + 7)) 4 ∧
    SearchEnds 3 ((failingSource 9).rng.afterDraws 4) (.error .primeSearchExhausted) 4 :=
  ⟨by decide +kernel, by decide +kernel, by decide +kernel,
    ⟨searchEnds_bigP, searchEnds_bigQ, by decide +kernel, by decide +kernel, by decide +kernel⟩, searchEnds_twice,
    searchEnds_fails.1, searchEnds_second.1, searchEnds_second.2.2⟩

/-- Every way a search ends, at its boundary: the last candidate of the limit, 2^1024, the first draw. -/
theorem witness_PrimeSearchTakesTheFirstAccepted :
    SearchEnds 3 (rejectingSource true).rng (.ok (2 ^ 1023 + 15)) 8 ∧
    SearchEnds 3 (rejectingSource false).rng (.error .primeSearchExhausted) 8 ∧
    SearchEnds 3 ((failingSource 9).rng.afterDraws 4) (.error .primeSearchExhausted) 4 ∧
    SearchEnds 3 (failingSource 0).rng (.error .rngFail) 1 ∧ SearchEnds 3 (failingSource 2).rng (.error .rngFail) 3 :=
  ⟨searchEnds_third.1, searchEnds_third.2, searchEnds_second.2.2, searchEnds_fails.1, searchEnds_fails.2⟩

theorem witness_GeneratedKeysAreConsistent :
    (after (.plKeygen .crt (some (12, 13))) keyed).map (fun t => t.status.done) = some true ∧
    (after (.plKeygen .plain none) (keySource bigP bigQ)).map (fun t => t.status.done) = some true := by decide +kernel

theorem witness_KeyManagementCommands :
    reg demo 11 = .normal .w2048 77 ∧ 3 ≤ 77 ∧ 77 % 2 = 1 ∧ reg demo 7 = .normal .w2048 42 ∧ 42 % 2 = 0 ∧
    demo.pk.valid = true ∧ base.pk.valid = false := by decide +kernel

theorem witness_EncryptionIsThePaillierFormula :
    (some 12 : Option BReg) ≠ some 9 ∧ reg demo 7 = .normal .w2048 42 ∧ demo.pk.valid = true ∧ 42 < demo.pk.n ∧
    reg demo 8 = .normal .w2048 23 ∧ 23 < demo.pk.n ∧ demo.rngs = true ∧
    (sourced [(0, false)] [] [] demo).rng.failAt (sourced [(0, false)] [] [] demo).rng.drawn = false := by decide +kernel

theorem witness_EncryptionFaultsInOrder :
    (none : Option BReg) ≠ some 9 ∧ reg demo 11 = .normal .w2048 77 ∧
    ({ demo with pk := base.pk } : State).pk.valid = false ∧ ({ demo with rngs := false } : State).rngs = false ∧
    demo.pk.valid = true ∧ demo.pk.n ≤ 77 ∧ reg demo 7 = .normal .w2048 42 ∧ 42 < demo.pk.n ∧ demo.rngs = true ∧
    (sourced [(0, true)] [] [] demo).rng.failAt (sourced [(0, true)] [] [] demo).rng.drawn = true ∧ (∀ b, some 11 = some b → ∃ v, reg demo b = .normal .w2048 v) := by
  refine ⟨by decide, ?_⟩
  refine ⟨by decide +kernel, rfl, rfl, rfl, by decide, by decide +kernel, by decide, rfl, by decide, ?_⟩
  intro b hb
  cases hb
  exact ⟨77, by decide +kernel⟩

theorem witness_PlainDecryptionFormula :
    reg demo 6 = .normal .w4096 3840 ∧ demo.sk.kind = .plain ∧ 3840 < demo.sk.n2 ∧ 0 < demo.sk.n ∧ demo.sk.n ≤ 2 ^ 2048 ∧
    3840 ^ demo.sk.l % demo.sk.n2 ≠ 0 ∧
    reg { demo with regs := demo.regs.set 6 (.normal .w4096 0) } 6 = .normal .w4096 0 ∧ 0 ^ demo.sk.l % demo.sk.n2 = 0 := by
  decide +kernel

/-- The demo state under the toy CRT key. -/
def crtDemo : State := { demo with sk := toyCrt }

theorem witness_CrtDecryptionFormula :
    reg crtDemo 6 = .normal .w4096 3840 ∧ crtDemo.sk.kind = .crt ∧ 3840 < crtDemo.sk.p2 * crtDemo.sk.q2 ∧ 0 < crtDemo.sk.p ∧
    0 < crtDemo.sk.q ∧ crtDemo.sk.p * crtDemo.sk.q ≤ 2 ^ 2048 ∧
    1 = (3840 % crtDemo.sk.p2) ^ crtDemo.sk.lp % crtDemo.sk.p2 ∧ 34 = (3840 % crtDemo.sk.q2) ^ crtDemo.sk.lq % crtDemo.sk.q2 ∧
    0 = (1 - 1) * crtDemo.sk.invp % 2 ^ 2048 * crtDemo.sk.mp % crtDemo.sk.p ∧
    9 = (34 - 1) * crtDemo.sk.invq % 2 ^ 2048 * crtDemo.sk.mq % crtDemo.sk.q ∧
    ((6 : Nat) : Int) = (((9 : Nat) : Int) - (0 : Nat)) * crtDemo.sk.invpq % crtDemo.sk.q ∧
    reg crtDemo 10 = .normal .w4096 35 ∧ 0 = (35 % crtDemo.sk.p2) ^ crtDemo.sk.lp % crtDemo.sk.p2 := by decide +kernel

theorem witness_CiphertextCommandsComputeOrFault :
    reg demo 6 = .normal .w4096 3840 ∧ reg demo 10 = .normal .w4096 35 ∧ demo.pk.valid = true ∧ 3840 < demo.pk.n2 ∧
    35 < demo.pk.n2 ∧ base.pk.valid = false ∧ reg demo 7 = .normal .w2048 42 ∧ 42 < 2 ^ 2048 ∧ 42 < demo.pk.n ∧
    reg { demo with regs := demo.regs.set 6 (.normal .w4096 5929) } 6 = .normal .w4096 5929 ∧ demo.pk.n2 ≤ 5929 ∧
    reg demo 11 = .normal .w2048 77 ∧ demo.pk.n ≤ 77 ∧ base.sk.kind = .none ∧ demo.sk.kind = .plain ∧ demo.sk.n2 ≤ 5929 ∧
    crtDemo.sk.kind = .crt ∧ crtDemo.sk.p2 * crtDemo.sk.q2 ≤ 5929 := by decide +kernel

theorem toyCrt_for : CrtKeyFor 7 11 toyCrt := by
  unfold CrtKeyFor
  decide +kernel

theorem witness_DecryptionInvertsEncryption :
    Nat.Prime 7 ∧ Nat.Prime 11 ∧ 7 ≠ 11 ∧ 7 * 11 < 2 ^ 2048 ∧
    demo.pk = { valid := true, n := 7 * 11, g := 7 * 11 + 1, n2 := 7 * 11 * (7 * 11) } ∧
    (9 < 7 * 11 ∧ (7 - 1) * (11 - 1) * 9 % (7 * 11) = 1 ∧ demo.sk = PlainKey (7 * 11) ((7 - 1) * (11 - 1)) 9) ∧
    CrtKeyFor 7 11 crtDemo.sk ∧ reg demo 7 = .normal .w2048 42 ∧ reg demo 8 = .normal .w2048 23 ∧ 42 < 7 * 11 ∧ 23 < 7 * 11 ∧
    Nat.gcd 23 (7 * 11) = 1 :=
  ⟨by norm_num, by norm_num, by decide, by decide +kernel, by decide +kernel, by decide +kernel, toyCrt_for, by decide +kernel,
    by decide +kernel, by decide, by decide, by decide⟩

theorem witness_PlainAndCrtDecryptionLaws :
    Nat.Prime 7 ∧ Nat.Prime 11 ∧ 7 ≠ 11 ∧ 7 * 11 < 2 ^ 2048 ∧ 7 % 2 = 1 ∧ 11 % 2 = 1 ∧
    (7 - 1) * (11 - 1) * 9 % (7 * 11) = 1 ∧ 9 < 7 * 11 ∧ CrtKeyFor 7 11 toyCrt ∧
    (reg demo 6 = .normal .w4096 3840 ∧ 3840 < 7 * 11 * (7 * 11) ∧ Nat.gcd 3840 (7 * 11) = 1) ∧
    (reg { demo with regs := demo.regs.set 6 (.normal .w4096 0) } 6 = .normal .w4096 0 ∧ Nat.gcd 0 (7 * 11) = 7 * 11) ∧
    (reg demo 10 = .normal .w4096 35 ∧ Nat.gcd 35 (7 * 11) = 7) ∧
    (reg { demo with regs := demo.regs.set 6 (.normal .w4096 22) } 6 = .normal .w4096 22 ∧ Nat.gcd 22 (7 * 11) = 11) :=
  ⟨by norm_num, by norm_num, by decide, by decide +kernel, by decide, by decide, by decide, by decide, toyCrt_for,
    by decide +kernel, by decide +kernel, by decide +kernel, by decide +kernel⟩

/-- The hypotheses under a plain key and under a CRT key. -/
theorem witness_HomomorphicSumAndProductDecrypt :
    Nat.Prime 7 ∧ Nat.Prime 11 ∧ 7 ≠ 11 ∧ 7 * 11 < 2 ^ 2048 ∧ 9 < 7 * 11 ∧ (7 - 1) * (11 - 1) * 9 % (7 * 11) = 1 ∧
    demo.pk = { valid := true, n := 7 * 11, g := 7 * 11 + 1, n2 := 7 * 11 * (7 * 11) } ∧ crtDemo.pk = demo.pk ∧
    demo.sk = PlainKey (7 * 11) ((7 - 1) * (11 - 1)) 9 ∧ CrtKeyFor 7 11 crtDemo.sk ∧ 42 < 7 * 11 ∧ 3 < 7 * 11 ∧
    Nat.gcd (23 * 23) (7 * 11) = 1 ∧
    reg demo 6 = .normal .w4096 ((1 + 42 * (7 * 11)) * 23 ^ (7 * 11) % (7 * 11 * (7 * 11))) ∧
    reg demo 1 = .normal .w2048 3 ∧ crtDemo.regs = demo.regs :=
  ⟨by norm_num, by norm_num, by decide, by decide +kernel, by decide, by decide, by decide +kernel, by decide +kernel,
    by decide +kernel, toyCrt_for, by decide, by decide, by decide, by decide +kernel, by decide +kernel, by decide +kernel⟩

theorem witness_SeedAndKillDriveTheRngPort : demo.octLen[(1 : OReg)] ≠ 0 := by decide +kernel

/-- The demo state meets the octet and status invariants, and steps. -/
theorem witness_EveryStepKeepsOctetsWithinCapacity :
    (∀ i : OReg, demo.octLen[i] ≤ octCap demo i) ∧ Memory.wf demo.mem ∧
    (∀ c ∈ demo.mem, ∃ (i : OReg) (k : Nat), k < octCap demo i ∧ c.1 = octAddr i k) ∧ ∃ t, step demo = .next t := by
  refine ⟨by decide +kernel, by decide +kernel, fun c hc => ?_, ⟨_, rfl⟩⟩
  simp only [demo, List.mem_cons, List.not_mem_nil, or_false] at hc
  rcases hc with rfl | rfl | rfl | rfl
  · exact ⟨0, 0, by decide +kernel, by decide⟩
  · exact ⟨1, 0, by decide +kernel, by decide⟩
  · exact ⟨1, 1, by decide +kernel, by decide⟩
  · exact ⟨2, 0, by decide +kernel, by decide⟩

/-- The bounds of R30, decided. -/
def inRange (r : WideReg) : Bool :=
  match r with
  | .unwritten => true
  | .normal t v => v < 2 ^ t.bits
  | .denormal t v => -(2 ^ t.bits : Int) < v && v < (2 ^ (t.bits + 1) : Int)

theorem inRange_ok (r : WideReg) (h : inRange r = true) : r.ok := by
  cases r with
  | unwritten => trivial
  | normal t v =>
    simp only [inRange, decide_eq_true_eq] at h
    exact h
  | denormal t v =>
    simp only [inRange, Bool.and_eq_true, decide_eq_true_eq] at h
    exact h

/-- A state with registers of every kind and a valid public key meets the value invariant, and steps. -/
theorem witness_EveryStepKeepsValuesAndKeysConsistent :
    ValuesOk { demo with sk := PrivKey.reset } ∧ ∃ t, step { demo with sk := PrivKey.reset } = .next t := by
  refine ⟨⟨?_, ?_, rfl⟩, ⟨_, rfl⟩⟩
  · have h : ∀ i : BReg, inRange (reg demo i) = true := by decide +kernel
    exact fun i => inRange_ok _ (h i)
  · unfold PubKey.ok
    decide +kernel

theorem witness_EveryStepKeepsStatusConsistent : StatusOk demo ∧ ∃ t, step demo = .next t := by
  refine ⟨?_, ⟨_, rfl⟩⟩
  unfold StatusOk
  decide +kernel

end Sys2Proof.Tests
end

section
/-! PROOFS. The host bus's data windows (R85, R86, R88) and its refusals (R84, R85, R87): what each access answers, when an
access is admitted, and the two obligations of 20_memory.md on them. -/

namespace Sys2Proof.Machine

/-! ## Accesses, performed and refused (R87) -/

section
variable {s t : State} {off : Offset}

theorem hostAccess_read8_of_some {b : Byte} (h : readByte s off.toNat = some b) :
    hostAccess (.read8 off) s = { s with replies := s.replies ++ [.byte b] } := by
  simp only [hostAccess, h, reply]

theorem hostAccess_read8_of_none (h : readByte s off.toNat = none) :
    hostAccess (.read8 off) s =
      { s with status := { s.status with berr := true }, replies := s.replies ++ [.byte 0] } := by
  simp only [hostAccess, h, reply, setBerr]

theorem hostAccess_read32_of_some {w : Word} (h : readWord s off.toNat = some w) :
    hostAccess (.read32 off) s = { s with replies := s.replies ++ [.word w] } := by
  simp only [hostAccess, h, reply]

theorem hostAccess_read32_of_none (h : readWord s off.toNat = none) :
    hostAccess (.read32 off) s =
      { s with status := { s.status with berr := true }, replies := s.replies ++ [.word 0] } := by
  simp only [hostAccess, h, reply, setBerr]

theorem hostAccess_write8_of_some {v : Byte} (h : writeByte v s off.toNat = some t) :
    hostAccess (.write8 off v) s = t := by
  simp only [hostAccess, h, Option.getD_some]

theorem hostAccess_write8_of_none {v : Byte} (h : writeByte v s off.toNat = none) :
    hostAccess (.write8 off v) s = { s with status := { s.status with berr := true } } := by
  simp only [hostAccess, h, Option.getD_none, setBerr]

theorem hostAccess_write32_of_some {v : Word} (h : writeWord v s off.toNat = some t) :
    hostAccess (.write32 off v) s = t := by
  simp only [hostAccess, h, Option.getD_some]

theorem hostAccess_write32_of_none {v : Word} (h : writeWord v s off.toNat = none) :
    hostAccess (.write32 off v) s = { s with status := { s.status with berr := true } } := by
  simp only [hostAccess, h, Option.getD_none, setBerr]

end

/-! ## Window bytes and words below the capacity (R85, R86, R88) -/

theorem octAddr_add (i : OReg) (k j : Nat) : octAddr i (k + j) = octAddr i k + j :=
  (Nat.add_assoc _ k j).symm

/-- A window byte's address fits the 20-bit aperture offset (R83, R84). -/
theorem toNat_ofNat_octAddr (i : OReg) (k : Nat) (hk : k < 4096) :
    (BitVec.ofNat 20 (octAddr i k)).toNat = octAddr i k := by
  rw [BitVec.toNat_ofNat, Nat.mod_eq_of_lt]
  unfold octAddr
  omega

theorem wordAdmitted_iff (s : State) (i : OReg) (k : Nat) :
    wordAdmitted s i k = true ↔ k % 4 = 0 ∧ k + 3 < octCap s i := by
  rw [wordAdmitted, Bool.and_eq_true, beq_iff_eq, decide_eq_true_iff]
  rfl

/-- An aligned four-byte group below the capacity is a word the window admits. -/
theorem windowWord_octAddr {s : State} {i : OReg} {k : Nat} (ha : k % 4 = 0) (hk : k + 3 < octCap s i) :
    WindowWord s (octAddr i k) :=
  ⟨i, k, rfl, by unfold octAddr; omega, hk⟩

section
variable {s : State} {i : OReg} {k : Nat}

theorem target_ofNat_octAddr (hk : k < octCap s i) :
    target (BitVec.ofNat 20 (octAddr i k)).toNat = .data i k := by
  have hk' : k < 4096 := hk.trans_le (octCap_le s i)
  rw [toNat_ofNat_octAddr i k hk', target_window i k hk']

theorem hostAccess_read8_window (hk : k < octCap s i) :
    hostAccess (.read8 (BitVec.ofNat 20 (octAddr i k))) s = { s with replies := s.replies ++ [.byte (octByte s i k)] } :=
  hostAccess_read8_of_some (by simp only [readByte, target_ofNat_octAddr hk, if_pos hk])

theorem hostAccess_write8_window (hk : k < octCap s i) (v : Byte) :
    hostAccess (.write8 (BitVec.ofNat 20 (octAddr i k)) v) s =
      { s with mem := Memory.write s.mem (octAddr i k) [v] } :=
  hostAccess_write8_of_some (by simp only [writeByte, target_ofNat_octAddr hk, if_pos hk])

theorem hostAccess_read32_window (ha : k % 4 = 0) (hk : k + 3 < octCap s i) :
    hostAccess (.read32 (BitVec.ofNat 20 (octAddr i k))) s =
      { s with replies := s.replies ++ [.word (laneWord s i k)] } :=
  have hadm : wordAdmitted s i k = true := (wordAdmitted_iff s i k).mpr ⟨ha, hk⟩
  hostAccess_read32_of_some (by simp only [readWord, target_ofNat_octAddr (Nat.lt_of_add_right_lt hk), if_pos hadm])

theorem hostAccess_write32_window (ha : k % 4 = 0) (hk : k + 3 < octCap s i) (v : Word) :
    hostAccess (.write32 (BitVec.ofNat 20 (octAddr i k)) v) s =
      { s with mem := Memory.write s.mem (octAddr i k) (laneBytes v) } :=
  have hadm : wordAdmitted s i k = true := (wordAdmitted_iff s i k).mpr ⟨ha, hk⟩
  hostAccess_write32_of_some (by simp only [writeWord, target_ofNat_octAddr (Nat.lt_of_add_right_lt hk), if_pos hadm])

end

/-- Byte j of a bus word written to a window is the word's lane j (R86, R88). -/
theorem read_write_laneBytes (m : Memory) (i : OReg) (k j : Nat) (v : Word) (hj : j < 4) :
    Memory.read (Memory.write m (octAddr i k) (laneBytes v)) (octAddr i (k + j)) = v.extractLsb' (8 * j) 8 := by
  rw [octAddr_add, Memory.read_write_inside _ _ _ _ (show j < (laneBytes v).length from hj), laneBytes_getElem v j hj]

/-- Settles O17: the window equations give the next states, and the laws of octet memory give the bytes. -/
theorem windowAccessesReadAndWriteBytes : Obligations.WindowAccessesReadAndWriteBytes := by
  constructor
  · intro s i k v hk
    refine ⟨hostAccess_read8_window hk, Memory.write s.mem (octAddr i k) [v], hostAccess_write8_window hk v, ?_, ?_⟩
    · exact Memory.read_write_inside s.mem (octAddr i k) 0 [v] Nat.one_pos
    · intro a hne
      exact Memory.read_write_outside s.mem (octAddr i k) a [v] (by rw [List.length_singleton]; omega)
  · intro s i k v ha hk
    constructor
    · exact ⟨laneWord s i k, hostAccess_read32_window ha hk, fun j hj => laneWord_lane s i k j hj⟩
    · refine ⟨Memory.write s.mem (octAddr i k) (laneBytes v), hostAccess_write32_window ha hk v, ?_, ?_, ?_⟩
      · exact fun j hj => read_write_laneBytes s.mem i k j v hj
      · intro j hj
        have hcap : k + j < octCap s i := by omega
        rw [hostAccess_read8_window (s := { s with mem := Memory.write s.mem (octAddr i k) (laneBytes v) }) hcap,
          octByte, read_write_laneBytes s.mem i k j v hj]
      · exact fun a hout => Memory.read_write_outside s.mem (octAddr i k) a (laneBytes v) hout

/-! ## What is refused (R84, R85, R87) -/

section
variable {s : State} {off : Nat}

/-- An 8-bit read is performed at window bytes below the capacity only. -/
theorem windowByte_of_readByte {b : Byte} (h : readByte s off = some b) : ∃ i k, WindowByte s off i k := by
  have ho := target_offset off
  unfold readByte at h
  split at h
  next i k ht =>
    rw [ht] at ho
    split at h
    next hk => exact ⟨i, k, ho.1, hk⟩
    next => cases h
  next => cases h

theorem windowByte_of_writeByte {v : Byte} {t : State} (h : writeByte v s off = some t) :
    ∃ i k, WindowByte s off i k := by
  obtain ⟨i, k, hoff, hk, -⟩ := writeByte_cases v s t off h
  exact ⟨i, k, hoff, hk⟩

theorem controlOffset_indexed (i : Fin 16)
    (h : off = 0x00100 + 4 * i.val ∨ off = 0x00200 + 4 * i.val ∨ off = 0x00300 + 4 * i.val) : ControlOffset off :=
  .inr (.inr (.inr (.inr (.inr ⟨i, h⟩))))

/-- A 32-bit read is performed at control registers and admitted window words only. -/
theorem mapped_of_readWord {w : Word} (h : readWord s off = some w) : ControlOffset off ∨ WindowWord s off := by
  have ho := target_offset off
  unfold readWord at h
  cases ht : target off <;> simp only [ht] at h ho
  case data i k =>
    simp only [Option.ite_none_right_eq_some, wordAdmitted_iff] at h
    obtain ⟨⟨ha, hk⟩, -⟩ := h
    obtain ⟨hoff, -⟩ := ho
    exact .inr (hoff ▸ windowWord_octAddr ha hk)
  case unmapped => cases h
  case octLen i => exact .inl (controlOffset_indexed i (.inl ho))
  case regInfo i => exact .inl (controlOffset_indexed i (.inr (.inl ho)))
  case octCap i => exact .inl (controlOffset_indexed i (.inr (.inr ho)))
  all_goals exact .inl (by simp [ControlOffset, ho])

/-- A 32-bit write is performed at control registers and admitted window words only. -/
theorem mapped_of_writeWord {v : Word} {t : State} (h : writeWord v s off = some t) :
    ControlOffset off ∨ WindowWord s off := by
  obtain ⟨hoff, -, -⟩ | ⟨hoff, -⟩ | ⟨hoff, -⟩ | ⟨i, hoff, -, -⟩ | ⟨i, k, hoff, ha, hk, -⟩ := writeWord_cases v s t off h
  · exact .inl (.inl hoff)
  · exact .inl (.inr (.inl hoff))
  · exact .inl (.inr (.inr (.inr (.inl hoff))))
  · exact .inl (controlOffset_indexed i (.inl hoff))
  · exact .inr (hoff ▸ windowWord_octAddr ha hk)

/-- A read-only register takes no write. -/
theorem writeWord_readOnly (h : ReadOnlyOffset off) (v : Word) : writeWord v s off = none := by
  obtain rfl | rfl | ⟨i, rfl | rfl⟩ := h
  · rfl
  · rfl
  · simp only [writeWord, target_regInfo]
  · simp only [writeWord, target_octCap]

/-- OCTLEN takes no length above the capacity (R49). -/
theorem writeWord_octLen_above (i : OReg) (v : Word) (h : octCap s i < (v.extractLsb' 0 13).toNat) :
    writeWord v s (0x00100 + 4 * i.val) = none := by
  simp only [writeWord, target_octLen, if_neg (Nat.not_le.mpr h)]

/-- CMD takes no write while FAULT is 1 (R287). -/
theorem writeWord_cmd_faulted (h : s.status.fault = true) (v : Word) : writeWord v s 0 = none :=
  if_pos h

end

/-- Settles O18: where nothing performs the access, it is refused, and a refusal sets BERR and replies 0 to a read. -/
theorem refusedAccessOnlySetsBerr : Obligations.RefusedAccessOnlySetsBerr := by
  intro s off
  refine ⟨fun hbyte => ⟨hostAccess_read8_of_none ?_, fun v => hostAccess_write8_of_none ?_⟩,
    fun hctl hword => ⟨hostAccess_read32_of_none ?_, fun v => hostAccess_write32_of_none ?_⟩, ?_, ?_, ?_, ?_⟩
  · refine Option.eq_none_iff_forall_ne_some.mpr fun b hb => ?_
    obtain ⟨i, k, hik⟩ := windowByte_of_readByte hb
    exact hbyte i k hik
  · refine Option.eq_none_iff_forall_ne_some.mpr fun t ht => ?_
    obtain ⟨i, k, hik⟩ := windowByte_of_writeByte ht
    exact hbyte i k hik
  · exact Option.eq_none_iff_forall_ne_some.mpr fun w hw => (mapped_of_readWord hw).elim hctl hword
  · exact Option.eq_none_iff_forall_ne_some.mpr fun t ht => (mapped_of_writeWord ht).elim hctl hword
  · exact fun hro v => hostAccess_write32_of_none (writeWord_readOnly hro v)
  · exact fun i v hoff hlen => hostAccess_write32_of_none (hoff ▸ writeWord_octLen_above i v hlen)
  · rintro rfl hfault v
    exact hostAccess_write32_of_none (writeWord_cmd_faulted hfault v)
  · rintro rfl
    exact hostAccess_read32_of_some rfl

end Sys2Proof.Machine
end

section
/-! PROOFS. Illegal command words (R118 to R121): what the decoder asks of a word it accepts, and that no word of a class the
spec calls illegal meets it. -/

namespace Sys2Proof

/-! ## What a column admits (R119) -/

theorem Column.zero_admits_iff (f : BitVec 6) (x : BitVec 4) : Column.zero.admits f x = true ↔ x = 0 := beq_iff_eq

theorem Column.flagged_admits_iff (bit : Nat) (f : BitVec 6) (x : BitVec 4) :
    (Column.flagged bit).admits f x = true ↔ f.getLsbD bit = true ∨ x = 0 := by
  rw [Column.admits, Bool.or_eq_true, beq_iff_eq]

/-- The flag bits are the low bits of the word (R115). -/
theorem Word.getLsbD_fieldF (w : Word) (k : Nat) (hk : k < 6) : (Word.fieldF w).getLsbD k = w.getLsbD k := by
  simp [Word.fieldF, hk]

/-! ## What the decoder accepts (R122) -/

/-- The word's fields meet the columns of a format R row (R119 to R121). -/
structure Row.AcceptsR (r : Row) (w : Word) : Prop where
  flags : Word.fieldF w &&& ~~~r.flags = 0
  field : r.op = 0x42 → (Word.fieldF w).toNat ≤ 2
  d : r.d.admits (Word.fieldF w) (Word.fieldD w) = true
  a : r.a.admits (Word.fieldF w) (Word.fieldA w) = true
  b : r.b.admits (Word.fieldF w) (Word.fieldB w) = true
  c : r.c.admits (Word.fieldF w) (Word.fieldC w) = true
  width : ∃ width ∈ r.widths, width.code = Word.fieldWs w

theorem Row.acceptsR_of_checkR {r : Row} {w : Word} {x : Fields} (h : r.checkR w = .ok x) : r.AcceptsR w := by
  unfold Row.checkR at h
  split at h
  · cases h
  next hflags =>
  split at h
  · cases h
  next hfield =>
  split at h
  · cases h
  next hcols =>
  split at h
  · cases h
  next width hwidth =>
  split at h
  next hmem =>
    simp only [Bool.not_eq_true', Bool.not_eq_false, Bool.and_eq_true] at hcols
    obtain ⟨⟨⟨hd, ha⟩, hb⟩, hc⟩ := hcols
    refine ⟨by simpa using hflags, fun hop => ?_, hd, ha, hb, hc,
      width, List.contains_iff_mem.mp hmem, code_of_ofCode _ _ hwidth⟩
    simpa [hop, BitVec.ult] using hfield
  next => cases h

theorem Row.admits_a_of_checkI {r : Row} {w : Word} {x : Fields} (h : r.checkI w = .ok x) :
    r.a.admits 0 (Word.fieldA w) = true := by
  unfold Row.checkI at h
  split at h
  · cases h
  next ha => simpa using ha

/-- A word the decoder accepts has a row of the map, and its fields meet that row's columns. -/
theorem row_of_decode_ok {w : Word} {i : Instr} (h : decode w = .ok i) :
    ∃ r ∈ opcodeMap, r.op = Word.op w ∧
      ((r.fmt = .I ∧ r.a.admits 0 (Word.fieldA w) = true) ∨ (r.fmt = .R ∧ r.AcceptsR w)) := by
  unfold decode at h
  split at h
  · cases h
  next r hrow =>
  split at h
  · cases h
  next x hcheck =>
  refine ⟨r, List.mem_of_find?_eq_some hrow, by simpa using List.find?_some hrow, ?_⟩
  unfold Row.check at hcheck
  split at hcheck
  next hfmt => exact .inl ⟨hfmt, r.admits_a_of_checkI hcheck⟩
  next hfmt => exact .inr ⟨hfmt, Row.acceptsR_of_checkR hcheck⟩

end Sys2Proof

namespace Sys2Proof.Machine

/-! ## The rows of the map, column by column (R117) -/

theorem op_mem_mappedOpcodes : ∀ r ∈ opcodeMap, r.op ∈ mappedOpcodes := by decide

/-- OCT.PAD and OCT.TAIL are the commands of format I. -/
theorem op_of_fmt_I : ∀ r ∈ opcodeMap, r.fmt = .I → r.op = 0x04 ∧ r.a = .zero ∨ r.op = 0x05 := by decide

theorem column_zero_of_op : ∀ r ∈ opcodeMap,
    (r.op ∈ zeroDOpcodes → r.d = .zero) ∧ (r.op ∈ zeroAOpcodes → r.a = .zero) ∧
    (r.op ∈ zeroBOpcodes → r.b = .zero) ∧ (r.op ∈ zeroCOpcodes → r.c = .zero) := by decide

theorem column_flagged_of_op : ∀ r ∈ opcodeMap,
    (r.op = 0x38 → r.c = .flagged 0) ∧ (r.op = 0x40 → r.a = .flagged 1 ∧ r.b = .flagged 1) ∧
    (r.op = 0x48 → r.b = .flagged 0 ∧ r.c = .flagged 1) := by decide

theorem width_code_of_op : ∀ r ∈ opcodeMap, ∀ width ∈ r.widths,
    (r.op ∈ noWidthOpcodes → width.code = 0b00) ∧ (r.op ∈ anyWidthOpcodes → width.code ≠ 0b11) ∧
    (r.op ∈ lowWidthOpcodes → width.code = 0b00 ∨ width.code = 0b01) ∧
    (r.op = 0x30 → width.code = 0b01 ∨ width.code = 0b10) := by decide

theorem undefined_flags_of_op : ∀ r ∈ opcodeMap,
    (r.op ∉ [0x04, 0x05, 0x38, 0x40, 0x42, 0x48] → ~~~r.flags = BitVec.allOnes 6) ∧
    (r.op = 0x38 → ~~~r.flags = 0b111110) ∧ (r.op = 0x40 → ~~~r.flags = 0b111100) ∧
    (r.op = 0x48 → ~~~r.flags = 0b111100) := by decide

/-! ## The fields an accepted word leaves 0 (R119) -/

theorem eq_zero_of_column_zero {k : Column} {f : BitVec 6} {x : BitVec 4} (hk : k = .zero)
    (h : k.admits f x = true) : x = 0 := by
  rwa [hk, Column.zero_admits_iff] at h

/-- A field its flag switches off is 0 in an accepted word. -/
theorem eq_zero_of_flag_off {k : Column} {w : Word} {bit : Nat} {x : BitVec 4} (hk : k = .flagged bit) (hbit : bit < 6)
    (hoff : w.getLsbD bit = false) (h : k.admits (Word.fieldF w) x = true) : x = 0 := by
  rw [hk, Column.flagged_admits_iff, Word.getLsbD_fieldF w bit hbit, hoff] at h
  exact h.resolve_left Bool.false_ne_true

/-! ## A format I word: the a field of OCT.PAD is its only check -/

section
variable {r : Row} {w : Word}

theorem not_badZeroField_of_fmt_I (hr : r ∈ opcodeMap) (hop : r.op = Word.op w) (hfmt : r.fmt = .I)
    (ha : r.a.admits 0 (Word.fieldA w) = true) : ¬ BadZeroField w := by
  obtain ⟨hpad, hzero⟩ | htail := op_of_fmt_I r hr hfmt
  · have hfield := eq_zero_of_column_zero hzero ha
    simp [BadZeroField, ← hop, hpad, hfield, zeroDOpcodes, zeroBOpcodes, zeroCOpcodes]
  · simp [BadZeroField, ← hop, htail, zeroDOpcodes, zeroAOpcodes, zeroBOpcodes, zeroCOpcodes]

theorem not_badWidth_of_fmt_I (hr : r ∈ opcodeMap) (hop : r.op = Word.op w) (hfmt : r.fmt = .I) : ¬ BadWidth w := by
  obtain ⟨hI, -⟩ | hI := op_of_fmt_I r hr hfmt <;>
    simp [BadWidth, ← hop, hI, noWidthOpcodes, anyWidthOpcodes, lowWidthOpcodes]

theorem not_badFlags_of_fmt_I (hr : r ∈ opcodeMap) (hop : r.op = Word.op w) (hfmt : r.fmt = .I) : ¬ BadFlags w := by
  obtain ⟨hI, -⟩ | hI := op_of_fmt_I r hr hfmt <;> simp [BadFlags, ← hop, hI]

/-! ## A format R word, class by class (R119 to R121) -/

theorem not_badZeroField_of_acceptsR (hr : r ∈ opcodeMap) (hop : r.op = Word.op w) (h : r.AcceptsR w) :
    ¬ BadZeroField w := by
  obtain ⟨zeroD, zeroA, zeroB, zeroC⟩ := column_zero_of_op r hr
  obtain ⟨divC, keygenAB, encBC⟩ := column_flagged_of_op r hr
  unfold BadZeroField
  rw [← hop]
  rintro (⟨hm, hne⟩ | ⟨hm, hne⟩ | ⟨hm, hne⟩ | ⟨hm, hne⟩ | ⟨hm, hoff, hne⟩ | ⟨hm, hoff, hne | hne⟩ | ⟨hm, hoff, hne⟩ |
    ⟨hm, hoff, hne⟩)
  · exact hne (eq_zero_of_column_zero (zeroD hm) h.d)
  · exact hne (eq_zero_of_column_zero (zeroA hm) h.a)
  · exact hne (eq_zero_of_column_zero (zeroB hm) h.b)
  · exact hne (eq_zero_of_column_zero (zeroC hm) h.c)
  · exact hne (eq_zero_of_flag_off (divC hm) (by decide) hoff h.c)
  · exact hne (eq_zero_of_flag_off (keygenAB hm).1 (by decide) hoff h.a)
  · exact hne (eq_zero_of_flag_off (keygenAB hm).2 (by decide) hoff h.b)
  · exact hne (eq_zero_of_flag_off (encBC hm).1 (by decide) hoff h.b)
  · exact hne (eq_zero_of_flag_off (encBC hm).2 (by decide) hoff h.c)

theorem not_badWidth_of_acceptsR (hr : r ∈ opcodeMap) (hop : r.op = Word.op w) (h : r.AcceptsR w) : ¬ BadWidth w := by
  obtain ⟨width, hmem, hws⟩ := h.width
  obtain ⟨hno, hany, hlow, hpromote⟩ := width_code_of_op r hr width hmem
  unfold BadWidth
  rw [← hop, ← hws]
  rintro (⟨hm, hne⟩ | ⟨hm, heq⟩ | ⟨hm, hne₀, hne₁⟩ | ⟨hm, hne₁, hne₂⟩)
  · exact hne (hno hm)
  · exact hany hm heq
  · exact (hlow hm).elim hne₀ hne₁
  · exact (hpromote hm).elim hne₁ hne₂

theorem not_badFlags_of_acceptsR (hr : r ∈ opcodeMap) (hop : r.op = Word.op w) (h : r.AcceptsR w) : ¬ BadFlags w := by
  obtain ⟨hnone, hdiv, hkeygen, henc⟩ := undefined_flags_of_op r hr
  have hflags := h.flags
  unfold BadFlags
  rw [← hop]
  rintro (⟨-, hm, hne⟩ | ⟨hm, hne⟩ | ⟨hm, hne⟩ | ⟨hm, hne⟩ | ⟨hm, hlt⟩)
  · rw [hnone hm, BitVec.and_allOnes] at hflags
    exact hne hflags
  · exact hne (hdiv hm ▸ hflags)
  · exact hne (hkeygen hm ▸ hflags)
  · exact hne (henc hm ▸ hflags)
  · exact absurd (h.field hm) (Nat.not_le.mpr hlt)

end

/-- A word the decoder accepts is in none of the classes of R118 to R121. -/
theorem legal_of_decode_ok {w : Word} {i : Instr} (h : decode w = .ok i) :
    Word.op w ∈ mappedOpcodes ∧ ¬ BadZeroField w ∧ ¬ BadWidth w ∧ ¬ BadFlags w := by
  obtain ⟨r, hr, hop, ⟨hfmt, ha⟩ | ⟨-, haccepts⟩⟩ := row_of_decode_ok h
  · exact ⟨hop ▸ op_mem_mappedOpcodes r hr, not_badZeroField_of_fmt_I hr hop hfmt ha,
      not_badWidth_of_fmt_I hr hop hfmt, not_badFlags_of_fmt_I hr hop hfmt⟩
  · exact ⟨hop ▸ op_mem_mappedOpcodes r hr, not_badZeroField_of_acceptsR hr hop haccepts,
      not_badWidth_of_acceptsR hr hop haccepts, not_badFlags_of_acceptsR hr hop haccepts⟩

/-! ## The fault of a word without a command (R122, R284) -/

theorem raise_eq_afterFault {s : State} {cw : Word} (h : s.cmd = some cw) (code : FaultCode) :
    raise code s = afterFault cw code s := by
  simp only [raise, afterFault, h, Option.getD_some]

theorem runCommand_of_decode_error {s : State} {cw : Word} {e : Illegal} (hcmd : s.cmd = some cw)
    (h : decode cw = .error e) : runCommand cw s = .next (afterFault cw .illegalCmd s) := by
  simp only [runCommand, h, raise_eq_afterFault hcmd]

/-- Settles O4: the decoder accepts no word of an illegal class, and what it refuses faults ILLEGAL_CMD. -/
theorem everyIllegalWordFaults : Obligations.EveryIllegalWordFaults := by
  refine ⟨by decide, fun cw s hcmd hbad => ?_⟩
  cases hdec : decode cw with
  | error e => exact runCommand_of_decode_error hcmd hdec
  | ok i =>
    obtain ⟨hop, hzero, hwidth, hflags⟩ := legal_of_decode_ok hdec
    obtain hout | hbad | hbad | hbad := hbad
    · exact absurd hop hout
    · exact absurd hbad hzero
    · exact absurd hbad hwidth
    · exact absurd hbad hflags

end Sys2Proof.Machine
end

section
/-! PROOFS. The control registers through which the host sees a fault: CMD writes while FAULT is 0 and 1 (R43, R287), the
STATUS word and the STATUS write (R44, R288). -/

namespace Sys2Proof.Machine

/-! ## CMD (R43, R287) -/

/-- CMD takes a write while FAULT is 0 (R43). -/
theorem writeWord_cmd_accepted {s : State} (h : s.status.fault = false) (v : Word) : writeWord v s 0 = some (accept v s) :=
  if_neg (Bool.eq_false_iff.mp h)

/-- Settles O13: FAULT alone decides whether the write is performed. -/
theorem commandWriteIsLatchedUnlessFault : Obligations.CommandWriteIsLatchedUnlessFault := by
  intro s v
  constructor
  · intro hfault
    exact hostAccess_write32_of_some (writeWord_cmd_accepted hfault v)
  · intro hfault
    exact hostAccess_write32_of_none (writeWord_cmd_faulted hfault v)

/-! ## The STATUS word (R44) -/

/-- A field of a word is what its bits are. -/
theorem extractLsb'_eq_of_getLsbD {w start len : Nat} {v : BitVec w} {x : BitVec len}
    (h : ∀ j < len, v.getLsbD (start + j) = x.getLsbD j) : v.extractLsb' start len = x := by
  refine BitVec.eq_of_getLsbD_eq fun j hj => ?_
  rw [BitVec.getLsbD_extractLsb', decide_eq_true hj, Bool.true_and, h j hj]

section
variable (s : State)

/-- Bit by bit, the STATUS word is R44's table. -/
theorem statusWord_getLsbD (k : Nat) (hk : k < 32) :
    (statusWord s).getLsbD k =
      if k = 0 then s.cmd.isSome
      else if k = 1 then s.status.done
      else if k = 2 then s.status.fault
      else if k < 5 then s.status.cmp.code.getLsbD (k - 3)
      else if k = 5 then s.status.eq
      else if k = 6 then s.status.prime
      else if k = 7 then s.status.berr
      else if k < 16 then s.status.fcode.toByte.getLsbD (k - 8)
      else false := by
  -- `getLsbD_append` needs the word's width as the sum of its fields' widths
  show BitVec.getLsbD (w := 16 + 8 + 1 + 1 + 1 + 2 + 1 + 1 + 1) _ k = _
  simp only [statusWord, BitVec.getLsbD_append, busy]
  interval_cases k <;> simp

theorem statusWord_cmp : (statusWord s).extractLsb' 3 2 = s.status.cmp.code :=
  extractLsb'_eq_of_getLsbD fun j hj => by
    rw [statusWord_getLsbD s (3 + j) (by omega)]
    interval_cases j <;> simp

theorem statusWord_fcode : (statusWord s).extractLsb' 8 8 = s.status.fcode.toByte :=
  extractLsb'_eq_of_getLsbD fun j hj => by
    rw [statusWord_getLsbD s (8 + j) (by omega)]
    interval_cases j <;> simp

theorem statusWord_reserved : (statusWord s).extractLsb' 16 16 = 0 :=
  extractLsb'_eq_of_getLsbD fun j hj => by
    rw [statusWord_getLsbD s (16 + j) (by omega)]
    interval_cases j <;> simp

end

/-- Settles O14: the table's bits and fields, and what a STATUS write clears. -/
theorem statusRegisterReadAndWrite : Obligations.StatusRegisterReadAndWrite := by
  constructor
  · intro s
    have hbit := statusWord_getLsbD s
    exact ⟨statusWord s, hostAccess_read32_of_some rfl, hbit 0 (by decide), hbit 1 (by decide), hbit 2 (by decide),
      statusWord_cmp s, hbit 5 (by decide), hbit 6 (by decide), hbit 7 (by decide), statusWord_fcode s,
      statusWord_reserved s⟩
  · intro s v
    exact (hostAccess_write32_of_some rfl).trans (writeStatus_eq v s)

end Sys2Proof.Machine
end

section
/-! PROOFS. The operand check (R282): what it answers in each category, and that nothing but a command's test of its width
(R120) or of its destinations (REG_CONFLICT) comes before its check. -/

namespace Sys2Proof.Machine

/-! ## What the check answers, by category -/

section
variable {s : State} {es : List Operand} {code : FaultCode}

theorem check_nil_ne_error : check s [] ≠ .error code := nofun

theorem check_unwritten (h : ∃ e ∈ es, reg s e.reg = .unwritten) : check s es = .error .regUnwritten := by
  obtain ⟨e, he, hreg⟩ := h
  have hany : es.any (fun e => (reg s e.reg).tag == none) = true :=
    List.any_eq_true.mpr ⟨e, he, by simp [hreg, WideReg.tag]⟩
  exact if_pos hany

theorem not_any_unwritten (h : ∀ e ∈ es, reg s e.reg ≠ .unwritten) :
    ¬ es.any (fun e => (reg s e.reg).tag == none) = true := by
  simpa using h

theorem check_widthMismatch (hwritten : ∀ e ∈ es, reg s e.reg ≠ .unwritten)
    (h : ∃ e ∈ es, (reg s e.reg).tag ≠ some e.width) : check s es = .error .widthMismatch := by
  have hany : es.any (fun e => (reg s e.reg).tag != some e.width) = true := by simpa using h
  rw [check, if_neg (not_any_unwritten hwritten), if_pos hany]

theorem check_denorm (htags : ∀ e ∈ es, (reg s e.reg).tag = some e.width)
    (h : ∃ e ∈ es, e.normalized = true ∧ (reg s e.reg).norm = false) : check s es = .error .denorm := by
  have hwritten : ∀ e ∈ es, reg s e.reg ≠ .unwritten := by
    intro e he hreg
    have htag := htags e he
    rw [hreg] at htag
    cases htag
  have hnone : ¬ es.any (fun e => (reg s e.reg).tag != some e.width) = true := by simpa using htags
  have hany : es.any (fun e => e.normalized && !(reg s e.reg).norm) = true := by simpa using h
  rw [check, if_neg (not_any_unwritten hwritten), if_neg hnone, if_pos hany]

/-! ## A failing check ends the command -/

theorem commit_check_error {f : Unit → Except FaultCode State} (h : check s es = .error code) :
    commit s (check s es >>= f) = .next (raise code s) := by
  rw [h, except_error_bind, commit_error]

/-- A test that the command passes leaves the check first. -/
theorem commit_require_check_error {b : Bool} {c : FaultCode} {f : Unit → Except FaultCode State} (hb : b = true)
    (h : check s es = .error code) :
    commit s (require b c >>= fun _ => check s es >>= f) = .next (raise code s) := by
  rw [hb, require_true, except_ok_bind, commit_check_error h]

end

/-! ## The commands, each with its check first -/

/-- BN.MOD's dividend is checked at the double width (R173). -/
theorem operandsOf_bnMod (d a b : BReg) (w : Width) :
    operandsOf (.bnMod d a b w) = [normalAt a (doubleWidth w), normalAt b w] := by
  cases w <;> rfl

theorem operandsOf_plEnc (d a : BReg) (r emit : Option BReg) : operandsOf (.plEnc d a r emit) = encOperands a r := by
  cases r <;> rfl

/-- A command whose operand check fails faults with the check's code, if it is well-formed and its destinations differ. -/
theorem exec_of_check_error {i : Instr} {s : State} {code : FaultCode} (hwf : i.wf = true) (hconf : ¬ RegConflict i)
    (h : check s (operandsOf i) = .error code) : exec i s = .next (raise code s) := by
  cases i
  case bnCopy | bnAdd | bnSub | bnNorm | bnCmp | bnShlw | bnShrw | bnPow | bnInv | bnInv2m | bnStore | plPkload | plDec |
      plAdd | plMul =>
    exact commit_check_error h
  case bnMul | bnSqr => exact commit_require_check_error hwf h
  case bnMod =>
    rw [operandsOf_bnMod] at h
    exact commit_require_check_error hwf h
  case ldDiv => exact commit_require_check_error (bne_iff_ne.mpr hconf) h
  case plKeygen scheme primes =>
    cases primes with
    | none => exact absurd h check_nil_ne_error
    | some ab => exact commit_check_error h
  case bnRand d a w =>
    have hcheck : check s [normalAt a w] = .error code := h
    simp only [exec, execBnRand, hcheck, except_error_bind, commitDrawn_error]
  case bnPrime a w =>
    have hcheck : check s [normalAt a w] = .error code := h
    simp only [exec, execBnPrime, hcheck, except_error_bind, commitDrawn_error]
  case plEnc d a r emit =>
    rw [operandsOf_plEnc] at h
    have hemit : (emit != some d) = true := bne_iff_ne.mpr hconf
    simp only [exec, execPlEnc, hemit, require_true, except_ok_bind, h, except_error_bind, commitDrawn_error]
  all_goals exact absurd h check_nil_ne_error

theorem faultsWith_of_check_error {i : Instr} {s : State} {code : FaultCode} (hwf : i.wf = true) (hconf : ¬ RegConflict i)
    (h : check s (operandsOf i) = .error code) : FaultsWith i s code := by
  intro cw hcmd
  rw [exec_of_check_error hwf hconf h, raise_eq_afterFault hcmd]

/-- Settles O7: the check's own answer in each category, carried to every command that calls it. -/
theorem operandCheckReportsByCategory : Obligations.OperandCheckReportsByCategory := by
  intro i s hwf hconf
  refine ⟨fun hunwritten => ?_, fun hwritten htag => ?_, fun htags hnorm => ?_⟩
  · exact faultsWith_of_check_error hwf hconf (check_unwritten hunwritten)
  · exact faultsWith_of_check_error hwf hconf (check_widthMismatch hwritten htag)
  · exact faultsWith_of_check_error hwf hconf (check_denorm htags hnorm)

end Sys2Proof.Machine
end

section
/-! PROOFS. The decoder and the encoder undo each other (R110 to R126): each row of the opcode map writes the word it reads. -/

namespace Sys2Proof

/-! ## A row's word and the words it reads -/

/-- The word a row of the map writes for its operand fields (R126). -/
def Row.word (r : Row) (x : Fields) : Word :=
  match r.fmt with
  | .R => encR r.op x.d x.a x.b x.c x.w.code x.f
  | .I => encI r.op x.d x.a x.imm

/-- Operand fields the decode check of the row passes (R119 to R121); the fields the format has no place for are 0. -/
def Row.Takes (r : Row) (x : Fields) : Prop :=
  match r.fmt with
  | .R =>
    x.f &&& ~~~r.flags = 0 ∧ (r.op = 0x42 → x.f.toNat ≤ 2) ∧
    r.d.admits x.f (.ofFin x.d) = true ∧ r.a.admits x.f (.ofFin x.a) = true ∧
    r.b.admits x.f (.ofFin x.b) = true ∧ r.c.admits x.f (.ofFin x.c) = true ∧ x.w ∈ r.widths ∧ x.imm = 0
  | .I => r.a.admits 0 (.ofFin x.a) = true ∧ x.b = 0 ∧ x.c = 0 ∧ x.w = .w2048 ∧ x.f = 0

theorem Row.check_word {r : Row} {x : Fields} (h : r.Takes x) : r.check (r.word x) = .ok x := by
  unfold Row.Takes at h
  unfold Row.check Row.word
  split at h
  next hfmt =>
    obtain ⟨hf, hfield, hd, ha, hb, hc, hw, himm⟩ := h
    have hop : ¬ (r.op == 0x42 && (2#6).ult x.f) = true := by
      simpa [BitVec.ult] using hfield
    simp only [hfmt, Row.checkR, f_encR, d_encR, a_encR, b_encR, c_encR, ws_encR, ofCode_code, hf, hd, ha, hb, hc,
      if_neg hop, List.contains_iff_mem.mpr hw]
    simp [← himm]
  next hfmt =>
    obtain ⟨ha, hb, hc, hw, hf⟩ := h
    obtain ⟨d, a, b, c, w, f, imm⟩ := x
    obtain ⟨rfl, rfl, rfl, rfl⟩ : b = 0 ∧ c = 0 ∧ w = .w2048 ∧ f = 0 := ⟨hb, hc, hw, hf⟩
    simp only [hfmt, Row.checkI, d_encI, a_encI, imm_encI, ha]
    simp

/-- A word is its fields, put back at their positions (R111). -/
theorem encR_fields (w : Word) :
    encR (Word.op w) (Word.fieldD w).toFin (Word.fieldA w).toFin (Word.fieldB w).toFin (Word.fieldC w).toFin
      (Word.fieldWs w) (Word.fieldF w) = w := by
  simp only [encR, Word.op, Word.fieldD, Word.fieldA, Word.fieldB, Word.fieldC, Word.fieldWs, Word.fieldF,
    BitVec.ofFin_toFin]
  refine BitVec.eq_of_getLsbD_eq fun k hk => ?_
  show BitVec.getLsbD (w := 8 + 4 + 4 + 4 + 4 + 2 + 6) _ k = _
  simp only [BitVec.getLsbD_append, BitVec.getLsbD_extractLsb']
  interval_cases k <;> simp

theorem encI_fields (w : Word) :
    encI (Word.op w) (Word.fieldD w).toFin (Word.fieldA w).toFin (Word.fieldImm w) = w := by
  simp only [encI, Word.op, Word.fieldD, Word.fieldA, Word.fieldImm, BitVec.ofFin_toFin]
  refine BitVec.eq_of_getLsbD_eq fun k hk => ?_
  show BitVec.getLsbD (w := 8 + 4 + 4 + 16) _ k = _
  simp only [BitVec.getLsbD_append, BitVec.getLsbD_extractLsb']
  interval_cases k <;> simp

/-- What the check passes are the word's own fields, and they meet the row's columns. -/
theorem Row.of_check_ok {r : Row} {w : Word} {x : Fields} (hop : r.op = Word.op w) (h : r.check w = .ok x) :
    r.Takes x ∧ r.word x = w := by
  unfold Row.check at h
  unfold Row.Takes Row.word
  split at h <;> rename_i hfmt <;> simp only [hfmt]
  next =>
    have ha := r.admits_a_of_checkI h
    unfold Row.checkI at h
    rw [if_neg (by rw [ha]; exact Bool.false_ne_true)] at h
    cases h
    exact ⟨⟨ha, rfl, rfl, rfl, rfl⟩, hop ▸ encI_fields w⟩
  next =>
    have hacc := Row.acceptsR_of_checkR h
    unfold Row.checkR at h
    split at h
    · cases h
    split at h
    · cases h
    split at h
    · cases h
    split at h
    · cases h
    next width hwidth =>
    split at h
    next hmem =>
      cases h
      refine ⟨⟨hacc.flags, hacc.field, hacc.d, hacc.a, hacc.b, hacc.c, List.contains_iff_mem.mp hmem, rfl⟩, ?_⟩
      rw [code_of_ofCode _ _ hwidth, hop]
      exact encR_fields w
    next => cases h

/-! ## The rows of the map (R117) -/

@[simp] theorem ofFin_eq_zero_iff (x : Fin 16) : (BitVec.ofFin x : BitVec 4) = 0#4 ↔ x = 0 :=
  ⟨congrArg BitVec.toFin, fun h => h ▸ rfl⟩

@[simp] theorem mem_noWidth_iff (w : Width) : w ∈ noWidth ↔ w = .w2048 := List.mem_singleton

@[simp] theorem mem_anyWidth (w : Width) : w ∈ anyWidth := by cases w <;> decide

/-- Which flag fields leave the undefined bits 0, by the defined bits: none, one, two (R115, R121). -/
theorem no_flags_iff (f : BitVec 6) : f &&& 63#6 = 0#6 ↔ f = 0 := by revert f; decide

theorem one_flag_iff (f : BitVec 6) : f &&& 62#6 = 0#6 ↔ f = 0 ∨ f = 1 := by revert f; decide

theorem two_flags_iff (f : BitVec 6) : f &&& 60#6 = 0#6 ↔ f = 0 ∨ f = 1 ∨ f = 2 ∨ f = 3 := by revert f; decide

theorem field_values (f : BitVec 6) : f.toNat ≤ 2 ↔ f = 0 ∨ f = 1 ∨ f = 2 := by revert f; decide

/-- The command of a row, of fields the row takes, is well-formed and its word is the row's word. -/
theorem encode_command : ∀ r ∈ opcodeMap, ∀ x, r.Takes x →
    (r.command x).wf = true ∧ encode (r.command x) = r.word x := by
  simp only [opcodeMap, List.forall_mem_cons, List.not_mem_nil, false_imp_iff, implies_true, and_true]
  refine ⟨?_, ?_, ?_, ?_, ?_, ?_, ?_, ?_, ?_, ?_, ?_, ?_, ?_, ?_, ?_, ?_, ?_, ?_, ?_, ?_, ?_, ?_, ?_, ?_, ?_, ?_, ?_, ?_, ?_,
    ?_, ?_, ?_, ?_, ?_, ?_, ?_, ?_, ?_⟩
  all_goals
    rintro ⟨d, a, b, c, w, f, imm⟩ h
    simp [Row.Takes, Column.admits, no_flags_iff, one_flag_iff, two_flags_iff, field_values] at h
  -- BN.MUL, BN.SQR, BN.MOD, WP.PROMOTE and WP.TRUNC: two of the three widths
  case refine_16 | refine_17 | refine_18 | refine_26 | refine_27 =>
    obtain ⟨rfl, h⟩ := h
    cases w <;> simp [Row.word, encode, Instr.opcode, Instr.wf, Width.code] at h ⊢ <;> simp [h]
  -- LD.DIV, flag by flag
  case refine_28 =>
    obtain ⟨rfl | rfl, h⟩ := h <;> simp [Fields.flag] at h ⊢ <;>
      simp [Row.word, encode, Instr.opcode, Instr.wf, optIndex, presence, h]
  -- PL.KEYGEN, flag by flag
  case refine_29 =>
    obtain ⟨rfl | rfl | rfl | rfl, h⟩ := h <;> simp [Fields.flag] at h ⊢ <;>
      simp [Row.word, encode, Instr.opcode, Instr.wf, schemeOf, Scheme.flag, Fields.flag, h, Width.code]
  -- PL.ENC, flag by flag
  case refine_33 =>
    obtain ⟨rfl | rfl | rfl | rfl, h⟩ := h <;> simp [Fields.flag] at h ⊢ <;>
      simp [Row.word, encode, Instr.opcode, Instr.wf, optIndex, presence, h, Width.code]
  -- PL.KEYRD, FIELD by FIELD
  case refine_31 =>
    obtain ⟨rfl | rfl | rfl, h⟩ := h <;>
      simp [Row.word, encode, Instr.opcode, Instr.wf, pkFieldOf, PkField.code, h, Width.code]
  -- the commands without flags, of one width or of any
  all_goals simp [Row.word, encode, Instr.opcode, Instr.wf, Width.code, h]

/-! ## The row and the fields of a command -/

/-- The operand fields a command's word carries; a field the command has no operand for is 0 (R119, R126). -/
def Instr.fields : Instr → Fields
  | .octZero d => ⟨d, 0, 0, 0, .w2048, 0, 0⟩
  | .octCopy d a => ⟨d, a, 0, 0, .w2048, 0, 0⟩
  | .octAppend d a => ⟨d, a, 0, 0, .w2048, 0, 0⟩
  | .octPad d len => ⟨d, 0, 0, 0, .w2048, 0, len⟩
  | .octTail d a len => ⟨d, a, 0, 0, .w2048, 0, len⟩
  | .octCteq a b => ⟨0, a, b, 0, .w2048, 0, 0⟩
  | .bnZero d w => ⟨d, 0, 0, 0, w, 0, 0⟩
  | .bnOne d w => ⟨d, 0, 0, 0, w, 0, 0⟩
  | .bnCopy d a w => ⟨d, a, 0, 0, w, 0, 0⟩
  | .bnAdd d a b w => ⟨d, a, b, 0, w, 0, 0⟩
  | .bnSub d a b w => ⟨d, a, b, 0, w, 0, 0⟩
  | .bnNorm d a w => ⟨d, a, 0, 0, w, 0, 0⟩
  | .bnCmp a b w => ⟨0, a, b, 0, w, 0, 0⟩
  | .bnShlw d a w => ⟨d, a, 0, 0, w, 0, 0⟩
  | .bnShrw d a w => ⟨d, a, 0, 0, w, 0, 0⟩
  | .bnMul d a b w => ⟨d, a, b, 0, w, 0, 0⟩
  | .bnSqr d a w => ⟨d, a, 0, 0, w, 0, 0⟩
  | .bnMod d a b w => ⟨d, a, b, 0, w, 0, 0⟩
  | .bnPow d a b c w => ⟨d, a, b, c, w, 0, 0⟩
  | .bnInv d a b w => ⟨d, a, b, 0, w, 0, 0⟩
  | .bnInv2m d a w => ⟨d, a, 0, 0, w, 0, 0⟩
  | .bnRand d a w => ⟨d, a, 0, 0, w, 0, 0⟩
  | .bnPrime a w => ⟨0, a, 0, 0, w, 0, 0⟩
  | .bnLoad d a w => ⟨d, a, 0, 0, w, 0, 0⟩
  | .bnStore d a w => ⟨d, a, 0, 0, w, 0, 0⟩
  | .wpPromote d a w => ⟨d, a, 0, 0, w, 0, 0⟩
  | .wpTrunc d a w => ⟨d, a, 0, 0, w, 0, 0⟩
  | .ldDiv d a b rem w => ⟨d, a, b, optIndex rem, w, presence 0b000001 rem, 0⟩
  | .plKeygen s none => ⟨0, 0, 0, 0, .w2048, s.flag, 0⟩
  | .plKeygen s (some (a, b)) => ⟨0, a, b, 0, .w2048, s.flag ||| 0b000010, 0⟩
  | .plPkload a => ⟨0, a, 0, 0, .w2048, 0, 0⟩
  | .plKeyrd d field => ⟨d, 0, 0, 0, .w2048, field.code, 0⟩
  | .plSkkill => ⟨0, 0, 0, 0, .w2048, 0, 0⟩
  | .plEnc d a r emit => ⟨d, a, optIndex r, optIndex emit, .w2048, presence 0b000001 r ||| presence 0b000010 emit, 0⟩
  | .plDec d a => ⟨d, a, 0, 0, .w2048, 0, 0⟩
  | .plAdd d a b => ⟨d, a, b, 0, .w2048, 0, 0⟩
  | .plMul d a b => ⟨d, a, b, 0, .w2048, 0, 0⟩
  | .rnSeed a => ⟨0, a, 0, 0, .w2048, 0, 0⟩
  | .rnKill => ⟨0, 0, 0, 0, .w2048, 0, 0⟩

theorem row_of_command (i : Instr) (h : i.wf = true) :
    ∃ r, rowOf i.opcode = some r ∧ r.Takes i.fields ∧ r.command i.fields = i := by
  cases i
  case bnMul w | bnSqr w | bnMod w | wpPromote w | wpTrunc w =>
    refine ⟨_, rfl, ?_, rfl⟩
    cases w <;> simp [Instr.wf, Row.Takes, Instr.fields, Column.admits] at h ⊢
  case ldDiv rem w =>
    cases rem <;> refine ⟨_, rfl, ?_, ?_⟩ <;>
      simp [Row.Takes, Instr.fields, Column.admits, Fields.flag, presence, optIndex]
  case plKeygen scheme primes =>
    cases scheme <;> cases primes <;> refine ⟨_, rfl, ?_, ?_⟩ <;>
      simp [Row.Takes, Instr.fields, Column.admits, Fields.flag, Scheme.flag, schemeOf]
  case plKeyrd field =>
    cases field <;> exact ⟨_, rfl, by simp [Row.Takes, Instr.fields, Column.admits, PkField.code], rfl⟩
  case plEnc r emit =>
    cases r <;> cases emit <;> refine ⟨_, rfl, ?_, ?_⟩ <;>
      simp [Row.Takes, Instr.fields, Column.admits, Fields.flag, presence, optIndex]
  all_goals exact ⟨_, rfl, by simp [Row.Takes, Instr.fields, Column.admits], rfl⟩

theorem op_word (r : Row) (x : Fields) : Word.op (r.word x) = r.op := by
  unfold Row.word
  split
  · exact op_encR _ _ _ _ _ _ _
  · exact op_encI _ _ _ _

end Sys2Proof

namespace Sys2Proof.Machine

/-- Settles O1: the command's row writes its word, and the decoder finds that row and its fields again. -/
theorem decodeOfEncodeIsTheCommand : Obligations.DecodeOfEncodeIsTheCommand := by
  intro i hwf
  obtain ⟨r, hrow, htakes, hi⟩ := row_of_command i hwf
  have hop : r.op = i.opcode := by simpa using List.find?_some hrow
  have hword : encode i = r.word i.fields := by
    rw [← (encode_command r (List.mem_of_find?_eq_some hrow) _ htakes).2, hi]
  rw [hword]
  simp only [decode, op_word, hop, hrow, Row.check_word htakes, hi]

/-- Settles O2: the row the decoder finds takes the word's own fields, so that it writes the word back. -/
theorem encodeOfDecodeIsTheWord : Obligations.EncodeOfDecodeIsTheWord := by
  intro cw i h
  unfold decode at h
  split at h
  · cases h
  next r hrow =>
  split at h
  · cases h
  next x hcheck =>
  cases h
  have hop : r.op = Word.op cw := by simpa using List.find?_some hrow
  obtain ⟨htakes, hword⟩ := Row.of_check_ok hop hcheck
  obtain ⟨hwf, henc⟩ := encode_command r (List.mem_of_find?_eq_some hrow) x htakes
  exact ⟨hwf, henc.trans hword⟩

/-- Settles O3: each word is its command's encoding. -/
theorem sampleWordsDecode : Obligations.SampleWordsDecode :=
  ⟨decodeOfEncodeIsTheCommand (.octAppend 1 2) rfl, decodeOfEncodeIsTheCommand (.octTail 6 5 2) rfl,
    decodeOfEncodeIsTheCommand (.bnMul 2 0 1 .w4096) rfl, decodeOfEncodeIsTheCommand (.bnPow 4 1 2 3 .w2048) rfl,
    decodeOfEncodeIsTheCommand (.wpPromote 2 1 .w4096) rfl, decodeOfEncodeIsTheCommand (.ldDiv 4 2 3 (some 5) .w4096) rfl,
    decodeOfEncodeIsTheCommand (.plKeygen .crt (some (0, 1))) rfl,
    decodeOfEncodeIsTheCommand (.plEnc 4 2 (some 3) (some 5)) rfl, decodeOfEncodeIsTheCommand (.rnSeed 0) rfl,
    decodeOfEncodeIsTheCommand .plSkkill rfl⟩

end Sys2Proof.Machine
end

section
/-! PROOFS. What a command can do (R284 to R286), said once: each command completes with one kind of write, or faults with a
code other than NONE and nothing changed but the draws made. Every frame and every invariant below is read off this. -/

namespace Sys2Proof.Machine

/-! ## Bodies of commands: an answer, or a fault code -/

/-- `x` answers something `P` holds of, or a fault code other than NONE. -/
def Answers {α : Type} (x : Except FaultCode α) (P : α → Prop) : Prop :=
  match x with
  | .ok a => P a
  | .error code => code ≠ .none

theorem Answers.bind {α β : Type} {x : Except FaultCode α} {f : α → Except FaultCode β} {P : α → Prop} {Q : β → Prop}
    (hx : Answers x P) (hf : ∀ a, P a → Answers (f a) Q) : Answers (x >>= f) Q := by
  cases x with
  | ok a => exact hf a hx
  | error code => exact hx

theorem Answers.imp {α : Type} {x : Except FaultCode α} {P Q : α → Prop} (hx : Answers x P) (h : ∀ a, P a → Q a) :
    Answers x Q := by
  cases x with
  | ok a => exact h a hx
  | error code => exact hx

theorem Answers.of_ok {α : Type} {x : Except FaultCode α} {P : α → Prop} {a : α} (hx : Answers x P) (h : x = .ok a) : P a := by
  subst h
  exact hx

theorem Answers.of_error {α : Type} {x : Except FaultCode α} {P : α → Prop} {code : FaultCode} (hx : Answers x P)
    (h : x = .error code) : code ≠ .none := by
  subst h
  exact hx

theorem answers_require {c : Bool} {code : FaultCode} (hcode : code ≠ .none) :
    Answers (require c code) fun _ => c = true := by
  cases c with
  | true => exact rfl
  | false => exact hcode

theorem answers_check (s : State) (es : List Operand) : Answers (check s es) fun _ => check s es = .ok () := by
  cases h : check s es with
  | ok => exact rfl
  | error code =>
    show code ≠ .none
    rintro rfl
    unfold check at h
    split_ifs at h <;> cases h

/-! ## What a passed check says of an operand (R282) -/

section
variable {s : State} {es : List Operand} {a : BReg} {w : Width}

theorem reg_of_check (h : check s es = .ok ()) (ha : normalAt a w ∈ es) : reg s a = .normal w (regNat s a) := by
  obtain ⟨htag, hnorm⟩ := (check_eq_ok s es).mp h _ ha
  obtain ⟨v, hv⟩ := WideReg.normal_of _ w htag (hnorm rfl)
  rw [regNat_normal s a w v hv]
  exact hv

theorem regNat_lt_of_reg (hs : ValuesOk s) (h : reg s a = .normal w (regNat s a)) : regNat s a < 2 ^ w.bits := by
  have hok := hs.1 a
  rwa [h] at hok

theorem regNat_lt (hs : ValuesOk s) (h : check s es = .ok ()) (ha : normalAt a w ∈ es) : regNat s a < 2 ^ w.bits :=
  regNat_lt_of_reg hs (reg_of_check h ha)

theorem regVal_of_check (h : check s es = .ok ()) (ha : normalAt a w ∈ es) : regVal s a = regNat s a :=
  regVal_normal s a w _ (reg_of_check h ha)

end

/-! ## The kinds of write a command completes with -/

/-- What a command has made of the state when it completes, before DONE is set: one constructor per kind of write, with the
commands that make it and what it keeps in range. -/
inductive Writes (i : Instr) (s : State) : State → Prop
  | regs (r : Vector WideReg 16) (n : Nat) (frame : ∀ j : BReg, j ∉ destRegs i → r[j] = s.regs[j])
      (ok : ValuesOk s → ∀ j : BReg, r[j].ok) : Writes i s { s with regs := r, rng := s.rng.afterDraws n }
  | octet (d : OReg) (pos : Nat) (bytes : List Byte) (len : Nat) (dest : d ∈ destOctets i)
      (window : bytes = [] ∨ pos + bytes.length ≤ octCap s d) (le_cap : len ≤ octCap s d) :
      Writes i s (putOctet s d pos bytes len)
  | cmp (c : CmpResult) (ne : c ≠ .none) (by_ : ∃ a b w, i = .bnCmp a b w) : Writes i s (setCmp s c)
  | eq (v : Bool) (by_ : ∃ a b, i = .octCteq a b) : Writes i s (setEq s v)
  | prime (v : Bool) (n : Nat) (by_ : ∃ a w, i = .bnPrime a w) :
      Writes i s { setPrime s v with rng := s.rng.afterDraws n }
  | keys (k : PubKey × PrivKey) (n : Nat) (by_ : ∃ scheme primes, i = .plKeygen scheme primes) (ok : k.1.ok ∧ k.2.ok) :
      Writes i s { setKeys s k with rng := s.rng.afterDraws n }
  | pubKey (k : PubKey) (by_ : ∃ a, i = .plPkload a) (ok : ValuesOk s → k.ok) : Writes i s { s with pk := k }
  | noPrivKey (by_ : i = .plSkkill) : Writes i s { s with sk := PrivKey.reset }
  | rngCall (c : RngCall) (seeded : Bool) (by_ : i = .rnKill ∨ ∃ a, i = .rnSeed a) :
      Writes i s { s with rng := s.rng.call c, rngs := seeded }

/-- `out` completes with a state `P` holds of, or faults with a code other than NONE after some draws. -/
def EndsAs (s : State) (P : State → Prop) (out : Out) : Prop :=
  (∃ u, P u ∧ out = .next (complete u)) ∨
    ∃ code n, code ≠ .none ∧ out = .next (raise code { s with rng := s.rng.afterDraws n })

theorem endsAs_commit {s : State} {P : State → Prop} {body : Except FaultCode State} (h : Answers body P) :
    EndsAs s P (commit s body) := by
  cases body with
  | ok u => exact .inl ⟨u, h, rfl⟩
  | error code => exact .inr ⟨code, 0, h, rfl⟩

theorem endsAs_complete {s u : State} {P : State → Prop} (h : P u) : EndsAs s P (commit s (.ok u)) :=
  .inl ⟨u, h, rfl⟩

theorem endsAs_commitDrawn {s : State} {P : State → Prop} {body : Except FaultCode State} (n : Nat)
    (h : Answers body fun u => P { u with rng := s.rng.afterDraws n }) :
    EndsAs s P (commitDrawn s (body, s.rng.afterDraws n)) := by
  cases body with
  | ok u => exact .inl ⟨_, h, rfl⟩
  | error code => exact .inr ⟨code, n, h, rfl⟩

/-- How a command ends, in the kinds of write above. -/
def Ends (i : Instr) (s : State) : Prop := EndsAs s (Writes i s) (exec i s)

/-! ## Register writes -/

theorem set_getElem_of_ne {d j : BReg} (v : Vector WideReg 16) (r : WideReg) (h : d ≠ j) : (v.set d r)[j] = v[j] := by
  have h' : d.val ≠ j.val := fun e => h (Fin.ext e)
  simp [h']

theorem set_ok {d : BReg} {v : Vector WideReg 16} {r : WideReg} (hv : ∀ j : BReg, v[j].ok) (hr : r.ok) (j : BReg) :
    ((v.set d r)[j]).ok := by
  by_cases h : d = j
  · subst h
    simpa using hr
  · rw [set_getElem_of_ne v r h]
    exact hv j

section
variable {i : Instr} {s : State} {d : BReg} {r : WideReg}

theorem writes_setReg_drawn (n : Nat) (hd : d ∈ destRegs i) (hr : ValuesOk s → r.ok) :
    Writes i s { setReg s d r with rng := s.rng.afterDraws n } :=
  .regs _ n (fun _ hj => set_getElem_of_ne s.regs r fun e => hj (e ▸ hd)) fun hs => set_ok hs.1 (hr hs)

theorem writes_setReg (hd : d ∈ destRegs i) (hr : ValuesOk s → r.ok) : Writes i s (setReg s d r) :=
  writes_setReg_drawn 0 hd hr

/-- A second destination (LD.DIV's remainder, PL.ENC's r). -/
theorem writes_setReg_two {e : BReg} {q : WideReg} (n : Nat) (hd : d ∈ destRegs i) (he : e ∈ destRegs i)
    (hr : ValuesOk s → r.ok) (hq : ValuesOk s → q.ok) :
    Writes i s { setReg (setReg s d r) e q with rng := s.rng.afterDraws n } := by
  refine .regs _ n (fun j hj => ?_) fun hs => set_ok (set_ok hs.1 (hr hs)) (hq hs)
  have hdj : d ≠ j := fun h => hj (h ▸ hd)
  have hej : e ≠ j := fun h => hj (h ▸ he)
  exact (set_getElem_of_ne _ q hej).trans (set_getElem_of_ne s.regs r hdj)

end

/-! ## Octet commands (41_octet.md) -/

theorem answers_octStore {i : Instr} {s : State} {d : OReg} (hd : d ∈ destOctets i) (pos : Nat) (bytes : List Byte) :
    Answers (octStore s d pos bytes) (Writes i s) := by
  cases h : octStore s d pos bytes with
  | error code =>
    show code ≠ .none
    rintro rfl
    unfold octStore at h
    split_ifs at h
    split at h <;> cases h
  | ok t =>
    obtain ⟨hfit, rfl⟩ | ⟨hpast, -, rfl⟩ := octStore_cases s t d pos bytes h
    · exact .octet d pos bytes _ hd (.inr hfit) hfit
    · refine .octet d pos _ _ hd ?_ le_rfl
      by_cases hpos : pos ≤ octCap s d
      · right
        rw [List.length_take]
        omega
      · left
        rw [Nat.sub_eq_zero_of_le (by omega), List.take_zero]

section
variable (s : State)

theorem ends_octZero (d : OReg) : Ends (.octZero d) s :=
  endsAs_complete (.octet d 0 _ 0 (by simp [destOctets]) (.inr (by simp)) (Nat.zero_le _))

theorem ends_octCopy (d a : OReg) : Ends (.octCopy d a) s :=
  endsAs_commit (answers_octStore (by simp [destOctets]) _ _)

theorem ends_octAppend (d a : OReg) : Ends (.octAppend d a) s :=
  endsAs_commit (answers_octStore (by simp [destOctets]) _ _)

theorem ends_octPad (d : OReg) (len : BitVec 16) : Ends (.octPad d len) s := by
  refine endsAs_commit ((answers_require (by decide)).bind fun _ h => ?_)
  simp only [Bool.and_eq_true, decide_eq_true_eq] at h
  refine .octet d 0 _ _ (by simp [destOctets]) (.inr ?_) h.2
  rw [List.length_append, zeroBytes_length, octStr_length]
  omega

theorem ends_octTail (d a : OReg) (len : BitVec 16) : Ends (.octTail d a len) s :=
  endsAs_commit ((answers_require (by decide)).bind fun _ _ => answers_octStore (by simp [destOctets]) _ _)

theorem ends_octCteq (a b : OReg) : Ends (.octCteq a b) s :=
  endsAs_complete (.eq _ ⟨a, b, rfl⟩)

/-! ## Field commands (42_bni.md) -/

theorem Width.pow_bits_pos (w : Width) : 0 < 2 ^ w.bits := Nat.pow_pos (by decide)

theorem Width.one_lt_pow_bits (w : Width) : 1 < 2 ^ w.bits := Nat.one_lt_two_pow (by cases w <;> decide)

theorem compareNat_ne_none (a b : Nat) : compareNat a b ≠ .none := by
  unfold compareNat
  split_ifs <;> decide

theorem ends_bnZero (d : BReg) (w : Width) : Ends (.bnZero d w) s :=
  endsAs_complete (writes_setReg (by simp [destRegs]) fun _ => Width.pow_bits_pos w)

theorem ends_bnOne (d : BReg) (w : Width) : Ends (.bnOne d w) s :=
  endsAs_complete (writes_setReg (by simp [destRegs]) fun _ => Width.one_lt_pow_bits w)

theorem ends_bnCopy (d a : BReg) (w : Width) : Ends (.bnCopy d a w) s :=
  endsAs_commit ((answers_check _ _).bind fun _ _ => writes_setReg (by simp [destRegs]) fun hs => hs.1 a)

theorem ends_bnAdd (d a b : BReg) (w : Width) : Ends (.bnAdd d a b w) s := by
  refine endsAs_commit ((answers_check _ _).bind fun _ h => writes_setReg (by simp [destRegs]) fun hs => ?_)
  have ha := regNat_lt (a := a) (w := w) hs h (by simp)
  have hb := regNat_lt (a := b) (w := w) hs h (by simp)
  rw [regVal_of_check (a := a) (w := w) h (by simp), regVal_of_check (a := b) (w := w) h (by simp)]
  show -(2 ^ w.bits : Int) < _ ∧ _ < (2 ^ (w.bits + 1) : Int)
  zify at ha hb
  rw [pow_succ]
  constructor <;> linarith

theorem ends_bnSub (d a b : BReg) (w : Width) : Ends (.bnSub d a b w) s := by
  refine endsAs_commit ((answers_check _ _).bind fun _ h => writes_setReg (by simp [destRegs]) fun hs => ?_)
  have ha := regNat_lt (a := a) (w := w) hs h (by simp)
  have hb := regNat_lt (a := b) (w := w) hs h (by simp)
  rw [regVal_of_check (a := a) (w := w) h (by simp), regVal_of_check (a := b) (w := w) h (by simp)]
  show -(2 ^ w.bits : Int) < _ ∧ _ < (2 ^ (w.bits + 1) : Int)
  zify at ha hb
  rw [pow_succ]
  constructor <;> linarith

theorem ends_bnNorm (d a : BReg) (w : Width) : Ends (.bnNorm d a w) s := by
  refine endsAs_commit ((answers_check _ _).bind fun _ h => writes_setReg (by simp [destRegs]) fun hs => ?_)
  have hpos : (0 : Int) < (2 ^ w.bits : Nat) := by exact_mod_cast Width.pow_bits_pos w
  exact (Int.toNat_lt (Int.emod_nonneg _ hpos.ne')).mpr (Int.emod_lt_of_pos _ hpos)

theorem ends_bnCmp (a b : BReg) (w : Width) : Ends (.bnCmp a b w) s :=
  endsAs_commit ((answers_check _ _).bind fun _ _ => .cmp _ (compareNat_ne_none _ _) ⟨a, b, w, rfl⟩)

theorem ends_bnShlw (d a : BReg) (w : Width) : Ends (.bnShlw d a w) s :=
  endsAs_commit ((answers_check _ _).bind fun _ _ =>
    writes_setReg (by simp [destRegs]) fun _ => Nat.mod_lt _ (Width.pow_bits_pos w))

theorem ends_bnShrw (d a : BReg) (w : Width) : Ends (.bnShrw d a w) s :=
  endsAs_commit ((answers_check _ _).bind fun _ h => writes_setReg (by simp [destRegs]) fun hs =>
    (Nat.div_le_self _ _).trans_lt (regNat_lt hs h (by simp)))

/-- A product of two values of a width below 8192 fits the double width (R171). -/
theorem mul_lt_pow_doubleWidth {w : Width} {x y : Nat} (hw : w ≠ .w8192) (hx : x < 2 ^ w.bits) (hy : y < 2 ^ w.bits) :
    x * y < 2 ^ (doubleWidth w).bits := by
  have hbits : (doubleWidth w).bits = w.bits + w.bits := by
    cases w
    · rfl
    · rfl
    · exact absurd rfl hw
  rw [hbits, pow_add]
  exact Nat.mul_lt_mul'' hx hy

theorem ends_bnMul (d a b : BReg) (w : Width) : Ends (.bnMul d a b w) s :=
  endsAs_commit ((answers_require (by decide)).bind fun _ hw => (answers_check _ _).bind fun _ h =>
    writes_setReg (by simp [destRegs]) fun hs =>
      mul_lt_pow_doubleWidth (bne_iff_ne.mp hw) (regNat_lt hs h (by simp)) (regNat_lt hs h (by simp)))

theorem ends_bnSqr (d a : BReg) (w : Width) : Ends (.bnSqr d a w) s :=
  endsAs_commit ((answers_require (by decide)).bind fun _ hw => (answers_check _ _).bind fun _ h =>
    writes_setReg (by simp [destRegs]) fun hs =>
      mul_lt_pow_doubleWidth (bne_iff_ne.mp hw) (regNat_lt hs h (by simp)) (regNat_lt hs h (by simp)))

theorem ends_bnMod (d a b : BReg) (w : Width) : Ends (.bnMod d a b w) s :=
  endsAs_commit ((answers_require (by decide)).bind fun _ _ => (answers_check _ _).bind fun _ h =>
    (answers_require (by decide)).bind fun _ hb => writes_setReg (by simp [destRegs]) fun hs =>
      (Nat.mod_lt _ (Nat.pos_of_ne_zero (bne_iff_ne.mp hb))).trans (regNat_lt hs h (by simp)))

theorem ends_bnPow (d a b c : BReg) (w : Width) : Ends (.bnPow d a b c w) s :=
  endsAs_commit ((answers_check _ _).bind fun _ h => (answers_require (by decide)).bind fun _ hc =>
    (answers_require (by decide)).bind fun _ _ => writes_setReg (by simp [destRegs]) fun hs =>
      (powMod_lt _ _ _ (Nat.pos_of_ne_zero (bne_iff_ne.mp hc))).trans (regNat_lt hs h (by simp)))

theorem ends_bnInv (d a b : BReg) (w : Width) : Ends (.bnInv d a b w) s :=
  endsAs_commit ((answers_check _ _).bind fun _ h => (answers_require (by decide)).bind fun _ hb =>
    (answers_require (by decide)).bind fun _ hg => writes_setReg (by simp [destRegs]) fun hs =>
      (modInv_spec _ _ (Nat.pos_of_ne_zero (bne_iff_ne.mp hb)) (beq_iff_eq.mp hg)).1.trans (regNat_lt hs h (by simp)))

/-- An odd number has no factor in common with a power of two (R176). -/
theorem gcd_two_pow {v k : Nat} (h : v % 2 = 1) : Nat.gcd v (2 ^ k) = 1 :=
  Nat.Coprime.pow_right _ (Nat.coprime_two_right.mpr (Nat.odd_iff.mpr h))

theorem ends_bnInv2m (d a : BReg) (w : Width) : Ends (.bnInv2m d a w) s :=
  endsAs_commit ((answers_check _ _).bind fun _ _ => (answers_require (by decide)).bind fun _ hodd =>
    writes_setReg (by simp [destRegs]) fun _ =>
      (modInv_spec _ _ (Width.pow_bits_pos w) (gcd_two_pow (Nat.mod_two_ne_zero.mp (bne_iff_ne.mp hodd)))).1)

/-- The checks of BN.RAND before its first draw (R177). -/
def bnRandChecks (a : BReg) (w : Width) : Except FaultCode Unit := do
  check s [normalAt a w]
  require s.rngs .rngUnseeded
  require (regNat s a != 0) .boundZero

theorem answers_bnRandChecks (a : BReg) (w : Width) :
    Answers (bnRandChecks s a w) fun _ => check s [normalAt a w] = .ok () ∧ regNat s a ≠ 0 :=
  (answers_check _ _).bind fun _ h => (answers_require (by decide)).bind fun _ _ =>
    (answers_require (by decide)).imp fun _ hb => ⟨h, bne_iff_ne.mp hb⟩

theorem ends_bnRand (d a : BReg) (w : Width) : Ends (.bnRand d a w) s := by
  show EndsAs s _ (execBnRand d a w s)
  unfold execBnRand
  split
  next code hc => exact endsAs_commitDrawn 0 ((answers_bnRandChecks s a w).of_error hc)
  next hc =>
  obtain ⟨h, hb⟩ := (answers_bnRandChecks s a w).of_ok hc
  split
  · exact endsAs_commitDrawn 1 (body := .error .rngFail) (by decide : FaultCode.rngFail ≠ .none)
  · refine endsAs_commitDrawn 2 (body := .ok _) (writes_setReg_drawn 2 (by simp [destRegs]) fun hs => ?_)
    exact (randAt_lt _ _ _ _ (Nat.pos_of_ne_zero hb)).trans (regNat_lt hs h (by simp))

/-- The checks of BN.PRIME before its first draw (R178). -/
def bnPrimeChecks (a : BReg) (w : Width) : Except FaultCode Unit := do
  check s [normalAt a w]
  require s.rngs .rngUnseeded

theorem answers_bnPrimeChecks (a : BReg) (w : Width) : Answers (bnPrimeChecks s a w) fun _ => s.rngs = true :=
  (answers_check _ _).bind fun _ _ => answers_require (by decide)

theorem ends_bnPrime (a : BReg) (w : Width) : Ends (.bnPrime a w) s := by
  show EndsAs s _ (execBnPrime a w s)
  unfold execBnPrime
  split
  next code hc => exact endsAs_commitDrawn 0 ((answers_bnPrimeChecks s a w).of_error hc)
  next hc =>
  split
  · exact endsAs_commitDrawn 1 (body := .error .rngFail) (by decide : FaultCode.rngFail ≠ .none)
  · exact endsAs_commitDrawn 2 (body := .ok _) (.prime _ 2 ⟨a, w, rfl⟩)

theorem ends_bnLoad (d : BReg) (a : OReg) (w : Width) : Ends (.bnLoad d a w) s := by
  refine endsAs_commit ((answers_require (by decide)).bind fun _ h => writes_setReg (by simp [destRegs]) fun _ => ?_)
  show bigEndian (octStr s a) < 2 ^ w.bits
  rw [← Width.pow_bytes]
  refine (bigEndian_lt _).trans_le (Nat.pow_le_pow_right (by decide) ?_)
  rw [octStr_length]
  exact of_decide_eq_true h

theorem ends_bnStore (d : OReg) (a : BReg) (w : Width) : Ends (.bnStore d a w) s :=
  endsAs_commit ((answers_check _ _).bind fun _ _ => answers_octStore (by simp [destOctets]) _ _)

/-! ## The marshaler and the divider (43_marshal.md, 44_ldiv.md) -/

theorem answers_checkMarshal (a : BReg) (direction : Width → Bool) :
    Answers (checkMarshal s a direction) fun t => direction t = true ∧ reg s a = .normal t (regNat s a) := by
  unfold checkMarshal
  split
  next => exact (by decide : FaultCode.regUnwritten ≠ .none)
  next t ht =>
  split_ifs with hdir hnorm
  · obtain ⟨v, hv⟩ := WideReg.normal_of _ t ht hnorm
    exact ⟨hdir, by rw [regNat_normal s a t v hv, hv]⟩
  · exact (by decide : FaultCode.denorm ≠ .none)
  · exact (by decide : FaultCode.widthMismatch ≠ .none)

theorem Width.bits_eq (w : Width) : w.bits = 8 * w.bytes := by cases w <;> rfl

theorem ends_wpPromote (d a : BReg) (w : Width) : Ends (.wpPromote d a w) s := by
  refine endsAs_commit ((answers_require (by decide)).bind fun _ _ => (answers_checkMarshal s a _).bind fun t h =>
    writes_setReg (by simp [destRegs]) fun hs => ?_)
  obtain ⟨hlt, hreg⟩ := h
  have hv := regNat_lt_of_reg hs hreg
  show promote (regNat s a) t w < 2 ^ w.bits
  rw [promote_eq _ _ _ hv]
  exact hv.trans (Nat.pow_lt_pow_right (by decide) (of_decide_eq_true hlt))

theorem ends_wpTrunc (d a : BReg) (w : Width) : Ends (.wpTrunc d a w) s := by
  refine endsAs_commit ((answers_require (by decide)).bind fun _ _ => (answers_checkMarshal s a _).bind fun t h =>
    writes_setReg (by simp [destRegs]) fun _ => trunc_lt _ _ _ ?_)
  have hlt : w.bits < t.bits := of_decide_eq_true h.1
  rw [Width.bits_eq, Width.bits_eq] at hlt
  omega

theorem ends_ldDiv (d a b : BReg) (rem : Option BReg) (w : Width) : Ends (.ldDiv d a b rem w) s := by
  refine endsAs_commit ((answers_require (by decide)).bind fun _ _ => (answers_check _ _).bind fun _ h =>
    (answers_require (by decide)).bind fun _ hb => ?_)
  have hpos : 0 < regNat s b := Nat.pos_of_ne_zero (bne_iff_ne.mp hb)
  have hq : ValuesOk s → (WideReg.normal w (divCore (regNat s a) (regNat s b)).1).ok := fun hs => by
    rw [divCore_eq _ _ hpos]
    exact (Nat.div_le_self _ _).trans_lt (regNat_lt hs h (by simp))
  have hr : ValuesOk s → (WideReg.normal w (divCore (regNat s a) (regNat s b)).2).ok := fun hs => by
    rw [divCore_eq _ _ hpos]
    exact (Nat.mod_lt _ hpos).trans (regNat_lt hs h (by simp))
  cases rem with
  | none => exact writes_setReg (by simp [destRegs]) hq
  | some c => exact writes_setReg_two 0 (by simp [destRegs]) (by simp [destRegs]) hq hr

end

end Sys2Proof.Machine
end

section
/-! PROOFS. The prime search (R231, R273): it makes its draws candidate by candidate, and ends at the first candidate it
cannot pass over. -/

set_option exponentiation.threshold 8200

namespace Sys2Proof.Machine

/-- The loop passes over candidate `j` of the progression from `c`: below 2^1024, tested without a failure, rejected. -/
def PassesOver (c : Nat) (r : RngPort) (j : Nat) : Prop :=
  c + 4 * j < 2 ^ 1024 ∧ r.failAt (r.drawn + 2 * j) = false ∧ r.primeAt (r.drawn + 1 + 2 * j) .w2048 (c + 4 * j) = false

section
variable (tries c : Nat) (r : RngPort)

theorem primeSearchLoop_exhausted (h : tries = 0 ∨ 2 ^ 1024 ≤ c) :
    primeSearchLoop tries c r = (.error .primeSearchExhausted, r) := by
  cases tries with
  | zero => rfl
  | succ k =>
    rw [primeSearchLoop]
    exact if_pos (h.resolve_left (Nat.succ_ne_zero k))

theorem primeSearchLoop_fails (ht : tries ≠ 0) (hc : c < 2 ^ 1024) (hf : r.failAt r.drawn = true) :
    primeSearchLoop tries c r = (.error .rngFail, r.afterDraws 1) := by
  obtain ⟨k, rfl⟩ := Nat.exists_eq_succ_of_ne_zero ht
  rw [primeSearchLoop, if_neg (show ¬ 2 ^ primeBits ≤ c from Nat.not_le.mpr hc)]
  simp only [drawRngFail_eq, hf, if_true]
  rfl

theorem primeSearchLoop_tests (ht : tries ≠ 0) (hc : c < 2 ^ 1024) (hf : r.failAt r.drawn = false) :
    primeSearchLoop tries c r =
      if r.primeAt (r.drawn + 1) .w2048 c = true then (.ok c, r.afterDraws 2)
      else primeSearchLoop (tries - 1) (c + 4) (r.afterDraws 2) := by
  obtain ⟨k, rfl⟩ := Nat.exists_eq_succ_of_ne_zero ht
  rw [primeSearchLoop, if_neg (show ¬ 2 ^ primeBits ≤ c from Nat.not_le.mpr hc)]
  simp only [drawRngFail_eq, hf, Bool.false_eq_true, if_false]
  rfl

theorem primeSearchLoop_passesOver (k : Nat) (hk : k ≤ tries) (h : ∀ j < k, PassesOver c r j) :
    primeSearchLoop tries c r = primeSearchLoop (tries - k) (c + 4 * k) (r.afterDraws (2 * k)) := by
  induction k with
  | zero => rfl
  | succ k ih =>
    obtain ⟨hc, hf, hp⟩ := h k (Nat.lt_succ_self k)
    rw [ih (by omega) fun j hj => h j (by omega),
      primeSearchLoop_tests _ _ (r.afterDraws (2 * k)) (by omega) hc hf,
      if_neg (by rw [afterDraws_primeAt, afterDraws_drawn, Nat.add_right_comm, hp]; exact Bool.false_ne_true),
      afterDraws_afterDraws]
    rfl

/-- Some candidate is the first the loop does not pass over, or the last one tried. -/
theorem exists_passesOver : ∃ k ≤ tries, (∀ j < k, PassesOver c r j) ∧ (k = tries ∨ ¬ PassesOver c r k) := by
  classical
  have hex : ∃ k, k = tries ∨ ¬ PassesOver c r k := ⟨tries, .inl rfl⟩
  refine ⟨Nat.find hex, Nat.find_min' hex (.inl rfl), fun j hj => ?_, Nat.find_spec hex⟩
  have hmin := Nat.find_min hex hj
  push Not at hmin
  exact hmin.2

end

/-! ## The search and `SearchEnds` -/

section
variable {limit c k n : Nat} {r : RngPort} {result : Except FaultCode Nat}

/-- The first candidate is the only number R231 admits. -/
theorem eq_firstCandidate {x : Nat} (h1 : x + 2 ^ 1023 ≤ c) (h2 : c < x + 2 ^ 1023 + 4) (h3 : c % 4 = 3) :
    c = firstCandidate x := by
  obtain ⟨f1, f2, f3⟩ := firstCandidate_spec x
  change x + 2 ^ 1023 ≤ firstCandidate x at f1
  change firstCandidate x < x + 2 ^ 1023 + 4 at f2
  generalize x + 2 ^ 1023 = m at *
  omega

/-- Past its first two draws the search is the loop from its first candidate. -/
theorem primeSearch_eq_loop (hf : r.failAt r.drawn = false) :
    primeSearch limit r =
      primeSearchLoop limit (firstCandidate (r.randAt (r.drawn + 1) .w2048 (2 ^ 1023))) (r.afterDraws 2) := by
  unfold primeSearch
  simp only [drawRngFail_eq, hf, Bool.false_eq_true, if_false]
  rfl

theorem rejectsCandidates_iff :
    RejectsCandidates limit r c k ↔ r.failAt r.drawn = false ∧
      c = firstCandidate (r.randAt (r.drawn + 1) .w2048 (2 ^ 1023)) ∧ k ≤ limit ∧
      ∀ j < k, PassesOver c (r.afterDraws 2) j := by
  unfold RejectsCandidates PassesOver
  simp only [afterDraws_failAt, afterDraws_primeAt, afterDraws_drawn]
  constructor
  · rintro ⟨hf, h1, h2, h3, hk, hj⟩
    exact ⟨hf, eq_firstCandidate h1 h2 h3, hk, hj⟩
  · rintro ⟨hf, rfl, hk, hj⟩
    obtain ⟨f1, f2, f3⟩ := firstCandidate_spec (r.randAt (r.drawn + 1) .w2048 (2 ^ 1023))
    exact ⟨hf, f1, f2, f3, hk, hj⟩

/-- A search that has passed over `k` candidates goes on with the next. -/
theorem primeSearch_of_rejects (h : RejectsCandidates limit r c k) :
    primeSearch limit r = primeSearchLoop (limit - k) (c + 4 * k) (r.afterDraws (2 * k + 2)) := by
  obtain ⟨hf, rfl, hk, hj⟩ := rejectsCandidates_iff.mp h
  rw [primeSearch_eq_loop hf, primeSearchLoop_passesOver _ _ _ k hk hj, afterDraws_afterDraws, Nat.add_comm 2]

theorem primeSearch_of_searchEnds (h : SearchEnds limit r result n) : primeSearch limit r = (result, r.afterDraws n) := by
  obtain ⟨hf, rfl, rfl⟩ | ⟨c, k, hrej, hend⟩ := h
  · unfold primeSearch
    simp only [drawRngFail_eq, hf, if_true]
    rfl
  rw [primeSearch_of_rejects hrej]
  obtain ⟨hlast, rfl, rfl⟩ | ⟨hk, hc, hf, rfl, rfl⟩ | ⟨hk, hc, hf, hp, rfl, rfl⟩ := hend
  · exact primeSearchLoop_exhausted _ _ _ (hlast.imp_left fun h => by omega)
  · rw [primeSearchLoop_fails _ _ _ (by omega) hc (by rw [← hf, afterDraws_failAt, afterDraws_drawn]; congr 1; omega),
      afterDraws_afterDraws]
  · rw [primeSearchLoop_tests _ _ _ (by omega) hc (by rw [← hf, afterDraws_failAt, afterDraws_drawn]; congr 1; omega),
      if_pos (by rw [← hp, afterDraws_primeAt, afterDraws_drawn]; congr 1; omega), afterDraws_afterDraws]

theorem exists_searchEnds (limit : Nat) (r : RngPort) : ∃ result n, SearchEnds limit r result n := by
  cases hf : r.failAt r.drawn with
  | true => exact ⟨_, _, .inl ⟨hf, rfl, rfl⟩⟩
  | false =>
    obtain ⟨k, hk, hpass, hstop⟩ :=
      exists_passesOver limit (firstCandidate (r.randAt (r.drawn + 1) .w2048 (2 ^ 1023))) (r.afterDraws 2)
    have hrej := rejectsCandidates_iff.mpr ⟨hf, rfl, hk, hpass⟩
    generalize firstCandidate (r.randAt (r.drawn + 1) .w2048 (2 ^ 1023)) = c at hrej hstop
    by_cases hlast : k = limit ∨ 2 ^ 1024 ≤ c + 4 * k
    · exact ⟨_, _, .inr ⟨c, k, hrej, .inl ⟨hlast, rfl, rfl⟩⟩⟩
    obtain ⟨hne, hc⟩ := not_or.mp hlast
    have hk' : k < limit := lt_of_le_of_ne hk hne
    have hc' : c + 4 * k < 2 ^ 1024 := Nat.not_le.mp hc
    cases hfk : r.failAt (r.drawn + 2 + 2 * k) with
    | true => exact ⟨_, _, .inr ⟨c, k, hrej, .inr (.inl ⟨hk', hc', hfk, rfl, rfl⟩)⟩⟩
    | false =>
      cases hpk : r.primeAt (r.drawn + 3 + 2 * k) .w2048 (c + 4 * k) with
      | true => exact ⟨_, _, .inr ⟨c, k, hrej, .inr (.inr ⟨hk', hc', hfk, hpk, rfl, rfl⟩)⟩⟩
      | false => exact absurd ⟨hc', hfk, hpk⟩ (hstop.resolve_left hne)

/-- A number of R231's form is a 1024-bit number congruent to 3 modulo 4. -/
theorem primeSized_of_primeSearch_ok {p : Nat} {r' : RngPort} (h : primeSearch limit r = (.ok p, r')) :
    PrimeSized p ∧ p % 4 = 3 := by
  obtain ⟨⟨h1, h2, h3⟩, -⟩ := primeSearch_ok limit p r r' h
  exact ⟨⟨h1, h2, by omega⟩, h3⟩

end

/-- Settles O43: the candidates passed over give the draws made, and the next one gives the end. -/
theorem primeSearchTakesTheFirstAccepted : Obligations.PrimeSearchTakesTheFirstAccepted := by
  refine fun limit r => ⟨exists_searchEnds limit r, fun result n h => ?_⟩
  have heq := primeSearch_of_searchEnds h
  refine ⟨heq, ?_⟩
  rintro p rfl
  exact primeSized_of_primeSearch_ok heq

/-- A prime search's fault code is RNG_FAIL or PRIME_SEARCH_EXHAUSTED (R231). -/
theorem primeSearch_answers (limit : Nat) (r : RngPort) :
    ∃ n, (primeSearch limit r).2 = r.afterDraws n ∧ Answers (primeSearch limit r).1 PrimeSized := by
  obtain ⟨result, n, h⟩ := exists_searchEnds limit r
  have heq := primeSearch_of_searchEnds h
  refine ⟨n, by rw [heq], ?_⟩
  rw [heq]
  cases result with
  | ok p => exact (primeSized_of_primeSearch_ok heq).1
  | error code =>
    show code ≠ .none
    rintro rfl
    obtain ⟨_, hres, _⟩ | ⟨_, _, _, ⟨_, hres, _⟩ | ⟨_, _, _, hres, _⟩ | ⟨_, _, _, _, hres, _⟩⟩ := h <;> cases hres

end Sys2Proof.Machine
end

section
/-! PROOFS. How the Paillier and RNG commands end (45_paillier.md, 46_rng.md), and with them every command. -/

set_option exponentiation.threshold 8200

namespace Sys2Proof.Machine

/-! ## Keys of two primes in range (R230 to R236) -/

section
variable {p q : Nat}

theorem PrimeSized.one_lt (hp : PrimeSized p) : 1 < p :=
  (Nat.one_lt_two_pow (by decide)).trans_le hp.1

theorem mul_lt_of_primeSized (hp : PrimeSized p) (hq : PrimeSized q) : p * q < 2 ^ 2048 := by
  rw [show 2048 = 1024 + 1024 by decide, pow_add]
  exact Nat.mul_lt_mul'' hp.2.1 hq.2.1

theorem mul_odd_of_primeSized (hp : PrimeSized p) (hq : PrimeSized q) : p * q % 2 = 1 := by
  rw [Nat.mul_mod, hp.2.2, hq.2.2]

theorem three_le_mul (hp : 1 < p) (hq : 1 < q) : 3 ≤ p * q := by
  have := Nat.mul_le_mul hp hq
  omega

theorem plainPk_ok {n : Nat} (hodd : n % 2 = 1) (h3 : 3 ≤ n) (hlt : n < 2 ^ 2048) : (plainPk n).ok :=
  ⟨hodd, h3, hlt, rfl, rfl⟩

theorem plainPk_mul_ok (hp : PrimeSized p) (hq : PrimeSized q) : (plainPk (p * q)).ok :=
  plainPk_ok (mul_odd_of_primeSized hp hq) (three_le_mul hp.one_lt hq.one_lt) (mul_lt_of_primeSized hp hq)

/-- μ of a plain key is below n and inverts λ (R233). -/
theorem mu_spec {n lam : Nat} (hn : 1 < n) (hg : Nat.gcd lam n = 1) : modInv lam n < n ∧ lam * modInv lam n % n = 1 := by
  obtain ⟨hlt, hinv⟩ := modInv_spec lam n (by omega) hg
  exact ⟨hlt, hinv.trans (Nat.mod_eq_of_lt hn)⟩

theorem one_lt_mul_of_primeSized (hp : PrimeSized p) (hq : PrimeSized q) : 1 < p * q :=
  Nat.lt_of_lt_of_le (by decide) (three_le_mul hp.one_lt hq.one_lt)

theorem plainSk_ok (hp : PrimeSized p) (hq : PrimeSized q) (hne : p ≠ q)
    (hg : Nat.gcd ((p - 1) * (q - 1)) (p * q) = 1) :
    (plainSk (p * q) ((p - 1) * (q - 1)) (modInv ((p - 1) * (q - 1)) (p * q))).ok := by
  obtain ⟨hlt, hinv⟩ := mu_spec (one_lt_mul_of_primeSized hp hq) hg
  exact ⟨p, q, _, hp, hq, hne, hlt, hinv, rfl⟩

theorem crtSk_ok (hp : PrimeSized p) (hq : PrimeSized q) (hne : p ≠ q) (hg : Nat.gcd p q = 1) : (crtSk p q).ok :=
  ⟨p, q, hp, hq, hne, crtSk_for p q hp.one_lt hq.one_lt hp.2.2 hq.2.2 hg⟩

theorem answers_keysFromPrimes (scheme : Scheme) (hp : PrimeSized p) (hq : PrimeSized q) (hne : p ≠ q) :
    Answers (keysFromPrimes scheme p q) fun k => k.1.ok ∧ k.2.ok := by
  refine (answers_require (by decide)).bind fun _ hg => ?_
  cases scheme with
  | plain => exact ⟨plainPk_mul_ok hp hq, plainSk_ok hp hq hne (beq_iff_eq.mp hg)⟩
  | crt =>
    exact (answers_require (by decide)).bind fun _ hpq =>
      show _ ∧ _ from ⟨plainPk_mul_ok hp hq, crtSk_ok hp hq hne (beq_iff_eq.mp hpq)⟩

/-- 1024 bits and odd, in R232's terms. -/
theorem primeSized_iff : PrimeSized p ↔ bitLen p = primeBits ∧ p % 2 = 1 := by
  rw [bitLen_eq p primeBits (by decide)]
  exact and_assoc.symm

theorem answers_suppliedCheck (p q : Nat) :
    Answers (suppliedCheck p q) fun _ => PrimeSized p ∧ PrimeSized q ∧ p ≠ q := by
  refine (answers_require (by decide)).bind fun _ hbits => (answers_require (by decide)).bind fun _ hodd =>
    (answers_require (by decide)).imp fun _ hne => ?_
  simp only [Bool.and_eq_true, beq_iff_eq, bne_iff_ne, Nat.mod_two_ne_zero] at hbits hodd hne
  exact ⟨primeSized_iff.mpr ⟨hbits.1, hodd.1⟩, primeSized_iff.mpr ⟨hbits.2, hodd.2⟩, hne⟩

end

theorem answers_drawPrimes (limit : Nat) (r : RngPort) :
    ∃ n, (drawPrimes limit r).2 = r.afterDraws n ∧
      Answers (drawPrimes limit r).1 fun pq => PrimeSized pq.1 ∧ PrimeSized pq.2 ∧ pq.1 ≠ pq.2 := by
  obtain ⟨n, hport, hp⟩ := primeSearch_answers limit r
  unfold drawPrimes
  split
  next code r1 h1 =>
    rw [h1] at hport hp
    exact ⟨n, hport, hp⟩
  next p r1 h1 =>
    rw [h1] at hport hp
    obtain ⟨m, hport2, hq⟩ := primeSearch_answers limit r1
    have hdraws : ∀ r2, r2 = r1.afterDraws m → r2 = r.afterDraws (n + m) := by
      rintro r2 rfl
      rw [show r1 = r.afterDraws n from hport, afterDraws_afterDraws]
    refine ⟨n + m, ?_⟩
    split
    next code r2 h2 =>
      rw [h2] at hport2 hq
      exact ⟨hdraws r2 hport2, hq⟩
    next q r2 h2 =>
      rw [h2] at hport2 hq
      split_ifs with hpq
      · exact ⟨hdraws r2 hport2, (by decide : FaultCode.keyInvalid ≠ .none)⟩
      · exact ⟨hdraws r2 hport2, hp, hq, hpq⟩

/-! ## Key commands -/

section
variable (s : State)

theorem ends_plKeygen (scheme : Scheme) (primes : Option (BReg × BReg)) : Ends (.plKeygen scheme primes) s := by
  cases primes with
  | some ab =>
    exact endsAs_commit ((answers_check _ _).bind fun _ _ => (answers_suppliedCheck _ _).bind fun _ ⟨hp, hq, hne⟩ =>
      (answers_keysFromPrimes scheme hp hq hne).bind fun k hk => .keys k 0 ⟨scheme, _, rfl⟩ hk)
  | none =>
    show EndsAs s _ (execPlKeygen scheme none s)
    obtain ⟨n, hport, hpq⟩ := answers_drawPrimes s.params.primeSearchMax s.rng
    unfold execPlKeygen
    simp only
    split_ifs
    · split
      next code r h =>
        rw [h] at hport hpq
        obtain rfl : r = s.rng.afterDraws n := hport
        exact endsAs_commitDrawn n hpq
      next pq r h =>
        rw [h] at hport hpq
        obtain rfl : r = s.rng.afterDraws n := hport
        obtain ⟨hp, hq, hne⟩ := hpq
        exact endsAs_commitDrawn n ((answers_keysFromPrimes scheme hp hq hne).bind fun k hk =>
          .keys k n ⟨scheme, none, rfl⟩ hk)
    · exact endsAs_commitDrawn 0 (body := .error .rngUnseeded) (by decide : FaultCode.rngUnseeded ≠ .none)

theorem ends_plPkload (a : BReg) : Ends (.plPkload a) s := by
  refine endsAs_commit ((answers_check _ _).bind fun _ h => (answers_require (by decide)).bind fun _ hn =>
    .pubKey _ ⟨a, rfl⟩ fun hs => ?_)
  simp only [Bool.and_eq_true, decide_eq_true_eq, bne_iff_ne, Nat.mod_two_ne_zero] at hn
  exact plainPk_ok hn.2 hn.1 (regNat_lt (w := .w2048) hs h (by simp))

/-- What a valid PK gives (R37). -/
theorem valid_pk {k : PubKey} (h : k.ok) (hv : k.valid = true) :
    k.n % 2 = 1 ∧ 3 ≤ k.n ∧ k.n < 2 ^ 2048 ∧ k.g = k.n + 1 ∧ k.n2 = k.n * k.n := by
  rwa [PubKey.ok, if_pos hv] at h

/-- The fields of a valid PK fit the tag 4096, and n² is not 0. -/
theorem pk_n2_bounds {k : PubKey} (h : k.ok) (hv : k.valid = true) : 0 < k.n2 ∧ k.n2 < 2 ^ 4096 := by
  obtain ⟨-, h3, hlt, -, hn2⟩ := valid_pk h hv
  rw [hn2, show 4096 = 2048 + 2048 by decide, pow_add]
  exact ⟨Nat.mul_pos (by omega) (by omega), Nat.mul_lt_mul'' hlt hlt⟩

theorem pkField_lt {k : PubKey} (h : k.ok) (hv : k.valid = true) (field : PkField) : pkField k field < 2 ^ 4096 := by
  obtain ⟨-, -, hlt, hg, -⟩ := valid_pk h hv
  have hwide : 2 ^ 2048 + 1 ≤ 2 ^ 4096 := Nat.succ_le_of_lt (Nat.pow_lt_pow_right (by decide) (by decide))
  cases field with
  | n => exact (show k.n < 2 ^ 2048 from hlt).trans (by omega)
  | g =>
    show k.g < 2 ^ 4096
    omega
  | n2 => exact (pk_n2_bounds h hv).2

theorem ends_plKeyrd (d : BReg) (field : PkField) : Ends (.plKeyrd d field) s :=
  endsAs_commit ((answers_require (by decide)).bind fun _ hv =>
    writes_setReg (by simp [destRegs]) fun hs => pkField_lt hs.2.1 hv field)

theorem ends_plSkkill : Ends .plSkkill s := endsAs_complete (.noPrivKey rfl)

/-! ## Encryption, decryption, homomorphic operations -/

/-- The checks of PL.ENC before its randomness (R242). -/
def plEncChecks (d a : BReg) (r emit : Option BReg) : Except FaultCode Unit := do
  require (emit != some d) .regConflict
  check s (encOperands a r)
  require s.pk.valid .noPubkey
  require (r.isSome || s.rngs) .rngUnseeded
  require (regNat s a < s.pk.n) .ptRange

theorem answers_plEncChecks (d a : BReg) (r emit : Option BReg) :
    Answers (plEncChecks s d a r emit) fun _ => s.pk.valid = true ∧ regNat s a < s.pk.n :=
  (answers_require (by decide)).bind fun _ _ => (answers_check _ _).bind fun _ _ =>
    (answers_require (by decide)).bind fun _ hv => (answers_require (by decide)).bind fun _ _ =>
    (answers_require (by decide)).imp fun _ hm => ⟨hv, of_decide_eq_true hm⟩

/-- PL.ENC's writes, of randomness below n. -/
theorem writes_encWrites (d a : BReg) (r emit : Option BReg) (m x n : Nat) (hv : s.pk.valid = true) (hx : x < s.pk.n) :
    Writes (.plEnc d a r emit) s
      { encWrites s d emit (encryptValue s.pk.n s.pk.n2 m x) x with rng := s.rng.afterDraws n } := by
  have hct : ValuesOk s → (WideReg.normal .w4096 (encryptValue s.pk.n s.pk.n2 m x)).ok := fun hs => by
    obtain ⟨hpos, hlt⟩ := pk_n2_bounds hs.2.1 hv
    exact (Nat.mod_lt _ hpos).trans hlt
  have hr : ValuesOk s → (WideReg.normal .w2048 x).ok := fun hs => by
    obtain ⟨-, -, hlt, -⟩ := valid_pk hs.2.1 hv
    exact hx.trans hlt
  cases emit with
  | none => exact writes_setReg_drawn n (by simp [destRegs]) hct
  | some c => exact writes_setReg_two n (by simp [destRegs]) (by simp [destRegs]) hct hr

theorem ends_plEnc (d a : BReg) (r emit : Option BReg) : Ends (.plEnc d a r emit) s := by
  show EndsAs s _ (execPlEnc d a r emit s)
  unfold execPlEnc
  split
  next code hc => exact endsAs_commitDrawn 0 ((answers_plEncChecks s d a r emit).of_error hc)
  next hc =>
  obtain ⟨hv, hm⟩ := (answers_plEncChecks s d a r emit).of_ok hc
  cases r with
  | some b =>
    simp only
    split_ifs with hr
    · exact endsAs_commitDrawn 0 (body := .ok _) (writes_encWrites s d a _ emit _ _ 0 hv hr)
    · exact endsAs_commitDrawn 0 (body := .error .rRange) (by decide : FaultCode.rRange ≠ .none)
  | none =>
    simp only
    split_ifs
    · exact endsAs_commitDrawn 1 (body := .error .rngFail) (by decide : FaultCode.rngFail ≠ .none)
    · exact endsAs_commitDrawn 2 (body := .ok _)
        (writes_encWrites s d a _ emit _ _ 2 hv (randAt_lt _ _ _ _ (Nat.zero_lt_of_lt hm)))

theorem answers_decPlain (k : PrivKey) (c : Nat) : Answers (decPlain k c) fun _ => True := by
  unfold decPlain
  simp only
  split_ifs
  · exact (by decide : FaultCode.ctInvalid ≠ .none)
  · trivial

theorem answers_decHalf (p p2 lp invp mup c : Nat) : Answers (decHalf p p2 lp invp mup c) fun _ => True := by
  unfold decHalf
  simp only
  split_ifs
  · exact (by decide : FaultCode.ctInvalid ≠ .none)
  · trivial

theorem answers_decryptValue (k : PrivKey) (c : Nat) : Answers (decryptValue k c) fun _ => True := by
  unfold decryptValue
  split
  · exact (by decide : FaultCode.noPrivkey ≠ .none)
  · exact answers_decPlain k c
  · exact (answers_decHalf _ _ _ _ _ _).bind fun _ _ => (answers_decHalf _ _ _ _ _ _).bind fun _ _ => trivial

theorem ends_plDec (d a : BReg) : Ends (.plDec d a) s :=
  endsAs_commit ((answers_check _ _).bind fun _ _ => (answers_require (by decide)).bind fun _ _ =>
    (answers_require (by decide)).bind fun _ _ => (answers_decryptValue _ _).bind fun _ _ =>
    writes_setReg (by simp [destRegs]) fun _ => trunc_lt _ .w4096 .w2048 (by decide))

theorem ends_plAdd (d a b : BReg) : Ends (.plAdd d a b) s :=
  endsAs_commit ((answers_check _ _).bind fun _ _ => (answers_require (by decide)).bind fun _ hv =>
    (answers_require (by decide)).bind fun _ _ => writes_setReg (by simp [destRegs]) fun hs =>
      (Nat.mod_lt _ (pk_n2_bounds hs.2.1 hv).1).trans (pk_n2_bounds hs.2.1 hv).2)

theorem ends_plMul (d a b : BReg) : Ends (.plMul d a b) s :=
  endsAs_commit ((answers_check _ _).bind fun _ _ => (answers_require (by decide)).bind fun _ hv =>
    (answers_require (by decide)).bind fun _ _ => (answers_require (by decide)).bind fun _ _ =>
    writes_setReg (by simp [destRegs]) fun hs =>
      (powMod_lt _ _ _ (pk_n2_bounds hs.2.1 hv).1).trans (pk_n2_bounds hs.2.1 hv).2)

/-! ## RNG commands, and all commands -/

theorem ends_rnSeed (a : OReg) : Ends (.rnSeed a) s :=
  endsAs_commit ((answers_require (by decide)).bind fun _ _ => .rngCall _ true (.inr ⟨a, rfl⟩))

theorem ends_rnKill : Ends .rnKill s := endsAs_complete (.rngCall .destroy false (.inl rfl))

end

/-- Every command completes with its kind of write, or faults (R284 to R286). -/
theorem exec_ends (i : Instr) (s : State) : Ends i s := by
  cases i with
  | octZero d => exact ends_octZero s d
  | octCopy d a => exact ends_octCopy s d a
  | octAppend d a => exact ends_octAppend s d a
  | octPad d len => exact ends_octPad s d len
  | octTail d a len => exact ends_octTail s d a len
  | octCteq a b => exact ends_octCteq s a b
  | bnZero d w => exact ends_bnZero s d w
  | bnOne d w => exact ends_bnOne s d w
  | bnCopy d a w => exact ends_bnCopy s d a w
  | bnAdd d a b w => exact ends_bnAdd s d a b w
  | bnSub d a b w => exact ends_bnSub s d a b w
  | bnNorm d a w => exact ends_bnNorm s d a w
  | bnCmp a b w => exact ends_bnCmp s a b w
  | bnShlw d a w => exact ends_bnShlw s d a w
  | bnShrw d a w => exact ends_bnShrw s d a w
  | bnMul d a b w => exact ends_bnMul s d a b w
  | bnSqr d a w => exact ends_bnSqr s d a w
  | bnMod d a b w => exact ends_bnMod s d a b w
  | bnPow d a b c w => exact ends_bnPow s d a b c w
  | bnInv d a b w => exact ends_bnInv s d a b w
  | bnInv2m d a w => exact ends_bnInv2m s d a w
  | bnRand d a w => exact ends_bnRand s d a w
  | bnPrime a w => exact ends_bnPrime s a w
  | bnLoad d a w => exact ends_bnLoad s d a w
  | bnStore d a w => exact ends_bnStore s d a w
  | wpPromote d a w => exact ends_wpPromote s d a w
  | wpTrunc d a w => exact ends_wpTrunc s d a w
  | ldDiv d a b rem w => exact ends_ldDiv s d a b rem w
  | plKeygen scheme primes => exact ends_plKeygen s scheme primes
  | plPkload a => exact ends_plPkload s a
  | plKeyrd d field => exact ends_plKeyrd s d field
  | plSkkill => exact ends_plSkkill s
  | plEnc d a r emit => exact ends_plEnc s d a r emit
  | plDec d a => exact ends_plDec s d a
  | plAdd d a b => exact ends_plAdd s d a b
  | plMul d a b => exact ends_plMul s d a b
  | rnSeed a => exact ends_rnSeed s a
  | rnKill => exact ends_rnKill s

end Sys2Proof.Machine
end

section
/-! PROOFS. Frames and invariants: what every command leaves alone (R32, R34, R37, R40, R42, R52 to R54, R284 to R286), what a
step and a host access can do, and what every step keeps (R30, R34, R36 to R40, R44). -/

set_option exponentiation.threshold 8200

namespace Sys2Proof.Machine

/-! ## What a completed or faulted command leaves alone -/

section
variable {i : Instr} {s t u : State}

theorem exec_next_cases (h : exec i s = .next t) :
    (∃ u, Writes i s u ∧ t = complete u) ∨
      ∃ code n, code ≠ .none ∧ t = raise code { s with rng := s.rng.afterDraws n } := by
  obtain ⟨u, hu, he⟩ | ⟨code, n, hc, he⟩ := exec_ends i s <;> cases he.symm.trans h
  · exact .inl ⟨u, hu, rfl⟩
  · exact .inr ⟨code, n, hc, rfl⟩

/-- No kind of write reaches FAULT, FCODE, FAULTCMD, BERR, CTRL, the parameters or the host's lists. -/
theorem writes_frame (h : Writes i s u) :
    (u.status.fault = s.status.fault ∧ u.status.fcode = s.status.fcode ∧ u.faultCmd = s.faultCmd) ∧
      u.params = s.params ∧ u.cappol = s.cappol ∧ u.status.berr = s.status.berr ∧ u.inputs = s.inputs ∧
      u.port = s.port ∧ u.replies = s.replies := by
  cases h <;> exact ⟨⟨rfl, rfl, rfl⟩, rfl, rfl, rfl, rfl, rfl, rfl⟩

theorem writes_keyStore (h : Writes i s u) :
    (u.sk = s.sk ∨ i = .plSkkill ∨ ∃ scheme primes, i = .plKeygen scheme primes) ∧
      (u.pk = s.pk ∨ (∃ a, i = .plPkload a) ∨ ∃ scheme primes, i = .plKeygen scheme primes) ∧
      (u.rngs = s.rngs ∨ i = .rnKill ∨ ∃ a, i = .rnSeed a) := by
  cases h
  case keys by_ ok => exact ⟨.inr (.inr by_), .inr (.inr by_), .inl rfl⟩
  case pubKey by_ ok => exact ⟨.inl rfl, .inr (.inl by_), .inl rfl⟩
  case noPrivKey by_ => exact ⟨.inr (.inl by_), .inl rfl, .inl rfl⟩
  case rngCall by_ => exact ⟨.inl rfl, .inl rfl, .inr by_⟩
  all_goals exact ⟨.inl rfl, .inl rfl, .inl rfl⟩

theorem writes_results (h : Writes i s u) :
    (u.status.cmp = s.status.cmp ∨ u.status.cmp ≠ .none ∧ ∃ a b w, i = .bnCmp a b w) ∧
      (u.status.eq = s.status.eq ∨ ∃ a b, i = .octCteq a b) ∧
      (u.status.prime = s.status.prime ∨ ∃ a w, i = .bnPrime a w) := by
  cases h
  case cmp ne by_ => exact ⟨.inr ⟨ne, by_⟩, .inl rfl, .inl rfl⟩
  case eq by_ => exact ⟨.inl rfl, .inr by_, .inl rfl⟩
  case prime by_ => exact ⟨.inl rfl, .inl rfl, .inr by_⟩
  all_goals exact ⟨.inl rfl, .inl rfl, .inl rfl⟩

theorem writes_regs (h : Writes i s u) (j : BReg) (hj : j ∉ destRegs i) : reg u j = reg s j := by
  cases h
  case regs frame ok => exact frame j hj
  all_goals rfl

theorem writes_octets (h : Writes i s u) :
    (∀ j : OReg, j ∉ destOctets i → u.octLen[j] = s.octLen[j]) ∧
      ∀ a, (∀ d ∈ destOctets i, a < octAddr d 0 ∨ octAddr d 0 + octCap s d ≤ a) →
        Memory.read u.mem a = Memory.read s.mem a := by
  cases h
  case octet d pos bytes len dest window le_cap =>
    refine ⟨fun j hj => octLen_putOctet_ne s d j pos len bytes fun e => hj (e ▸ dest), fun a ha => ?_⟩
    have hout := ha d dest
    refine Memory.read_write_outside _ _ _ _ ?_
    unfold octAddr at hout ⊢
    obtain rfl | hfit := window
    · rw [List.length_nil]
      omega
    · omega
  all_goals exact ⟨fun _ _ => rfl, fun _ _ => rfl⟩

end

/-- Settles O8: no fault reaches the key store, and each kind of write names the commands that make it. -/
theorem keyStoreChangesOnlyByItsCommands : Obligations.KeyStoreChangesOnlyByItsCommands := by
  intro i s t h
  obtain ⟨u, hu, rfl⟩ | ⟨code, n, -, rfl⟩ := exec_next_cases h
  · obtain ⟨hsk, hpk, hrngs⟩ := writes_keyStore hu
    exact ⟨hsk, hpk, hrngs, (writes_frame hu).2⟩
  · exact ⟨.inl rfl, .inl rfl, .inl rfl, rfl, rfl, rfl, rfl, rfl, rfl⟩

/-- Settles O9: a completed command has DONE set, a faulted one leaves the flags. -/
theorem resultFlagsChangeOnlyByTheirCommands : Obligations.ResultFlagsChangeOnlyByTheirCommands := by
  intro i s t h
  obtain ⟨u, hu, rfl⟩ | ⟨code, n, -, rfl⟩ := exec_next_cases h
  · obtain ⟨hcmp, heq, hprime⟩ := writes_results hu
    exact ⟨hcmp.imp_right fun h => ⟨rfl, h⟩, heq.imp_right fun h => ⟨rfl, h⟩, hprime.imp_right fun h => ⟨rfl, h⟩⟩
  · exact ⟨.inl rfl, .inl rfl, .inl rfl⟩

/-- Settles O10. -/
theorem onlyDestinationRegistersChange : Obligations.OnlyDestinationRegistersChange := by
  intro i s t h j hj
  obtain ⟨u, hu, rfl⟩ | ⟨code, n, -, rfl⟩ := exec_next_cases h
  · exact writes_regs hu j hj
  · rfl

/-- Settles O11: an octet write stays within the capacity of its window. -/
theorem onlyDestinationOctetChanges : Obligations.OnlyDestinationOctetChanges := by
  intro i s t h
  obtain ⟨u, hu, rfl⟩ | ⟨code, n, -, rfl⟩ := exec_next_cases h
  · obtain ⟨hlen, hread⟩ := writes_octets hu
    exact ⟨hlen, hread⟩
  · exact ⟨fun _ _ => rfl, fun _ _ => rfl⟩

/-! ## What a step can do (R57, R81, R82, R320) -/

/-- What a step makes of the state once its input is taken and the port's head, if it takes effect, is removed. -/
inductive StepsTo (s : State) : State → Prop
  | idle : StepsTo s s
  | command (i : Instr) (w : Word) (t : State) (pending : s.cmd = some w) (run : exec i s = .next t) : StepsTo s t
  | illegal (w : Word) (pending : s.cmd = some w) : StepsTo s (raise .illegalCmd s)
  | access (a : HostAccess) : StepsTo s (hostAccess a s)
  | reset : StepsTo s (platformReset s)

theorem exists_exec_next (i : Instr) (s : State) : ∃ t, exec i s = .next t := by
  obtain ⟨u, -, h⟩ | ⟨code, n, -, h⟩ := exec_ends i s
  · exact ⟨_, h⟩
  · exact ⟨_, h⟩

theorem engineStep_stepsTo (s : State) : ∃ t, engineStep s = .next t ∧ StepsTo s t := by
  unfold engineStep
  split
  next w hw =>
    unfold runCommand
    split
    next i _ =>
      obtain ⟨t, ht⟩ := exists_exec_next i s
      exact ⟨t, ht, .command i w t hw ht⟩
    next => exact ⟨_, rfl, .illegal w hw⟩
  next => exact ⟨s, rfl, .idle⟩

theorem blockStep_stepsTo (s : State) : ∃ port t, blockStep s = .next t ∧ StepsTo { s with port := port } t := by
  unfold blockStep
  split
  next => exact ⟨s.port, engineStep_stepsTo s⟩
  next a rest _ =>
  split
  next => exact ⟨rest, _, rfl, .access a⟩
  next => exact ⟨s.port, engineStep_stepsTo s⟩

/-- All that a step can do: it always answers, having taken an input and perhaps moved the port. -/
theorem step_stepsTo (s : State) :
    ∃ inputs port t, step s = .next t ∧ StepsTo { s with inputs := inputs, port := port } t := by
  unfold step inputStep
  split
  next =>
    obtain ⟨port, h⟩ := blockStep_stepsTo s
    exact ⟨s.inputs, port, h⟩
  next rest _ =>
    obtain ⟨port, h⟩ := blockStep_stepsTo { s with inputs := rest }
    exact ⟨rest, port, h⟩
  next a rest _ =>
    unfold hostIssue
    split
    next => exact ⟨rest, s.port, _, rfl, .access a⟩
    next => exact ⟨rest, s.port ++ [a], _, rfl, .idle⟩
  next rest _ => exact ⟨rest, s.port, _, rfl, .reset⟩

/-- An invariant is kept by every step when moving the lists, commands, illegal words, host accesses and reset keep it. -/
theorem step_keeps {Inv : State → Prop} (lists : ∀ s inputs port, Inv s → Inv { s with inputs := inputs, port := port })
    (command : ∀ i s t w, Inv s → s.cmd = some w → exec i s = .next t → Inv t)
    (illegal : ∀ s, Inv s → Inv (raise .illegalCmd s)) (access : ∀ a s, Inv s → Inv (hostAccess a s))
    (reset : ∀ s, Inv s → Inv (platformReset s)) {s t : State} (hs : Inv s) (h : step s = .next t) : Inv t := by
  obtain ⟨inputs, port, t', ht, hto⟩ := step_stepsTo s
  cases ht.symm.trans h
  have hs' := lists s inputs port hs
  cases hto with
  | idle => exact hs'
  | command i w _ pending run => exact command i _ _ w hs' pending run
  | illegal w pending => exact illegal _ hs'
  | access a => exact access a _ hs'
  | reset => exact reset _ hs'

/-- Settles O6: a completed command keeps FAULT, FCODE and FAULTCMD, a faulted one changes nothing else but the draws. -/
theorem commandCompletesOrFaultsPrecisely : Obligations.CommandCompletesOrFaultsPrecisely := by
  constructor
  · intro s
    obtain ⟨-, -, t, ht, -⟩ := step_stepsTo s
    exact ⟨t, ht⟩
  · intro i s cw hcw
    obtain ⟨u, hu, h⟩ | ⟨code, n, hcode, h⟩ := exec_ends i s
    · exact ⟨complete u, h, rfl, rfl, .inl ⟨rfl, (writes_frame hu).1⟩⟩
    · exact ⟨_, h, rfl, rfl, .inr ⟨code, n, hcode,
        raise_eq_afterFault (s := { s with rng := s.rng.afterDraws n }) hcw code⟩⟩

/-- Settles O5: with no input and nothing that can take effect first, the step is the engine's. -/
theorem stepRunsThePendingCommand : Obligations.StepRunsThePendingCommand := by
  intro s cw rest hcmd hin hport
  have hblock : step s = blockStep { s with inputs := rest } := by
    unfold step inputStep
    obtain hq | ⟨hnil, rfl⟩ := hin
    · rw [hq]
    · have hsame : { s with inputs := [] } = s := by rw [← hnil]
      rw [hsame, hnil]
  have hengine : blockStep { s with inputs := rest } = runCommand cw { s with inputs := rest } := by
    unfold blockStep engineStep
    simp only [hcmd]
    split
    · rfl
    next a later hp =>
    rw [if_neg]
    rw [hp] at hport
    simpa [accessEnabled, busy, hcmd] using hport
  rw [hblock, hengine]
  refine ⟨fun i hdec => ?_, fun e hdec => runCommand_of_decode_error hcmd hdec⟩
  simp only [runCommand, hdec]

/-! ## What a host access can do (R43 to R51, R87) -/

/-- What a host access makes of the state. -/
inductive AccessMakes (s : State) : State → Prop
  | reply (r : Reply) : AccessMakes s (reply r s)
  | refusedRead (r : Reply) : AccessMakes s (setBerr (reply r s))
  | refusedWrite : AccessMakes s (setBerr s)
  | accept (v : Word) (idle : s.status.fault = false) : AccessMakes s (accept v s)
  | status (v : Word) : AccessMakes s (writeStatus v s)
  | ctrl (c : CapPolicy) : AccessMakes s { s with cappol := c }
  | octLen (i : OReg) (len : Nat) (le_cap : len ≤ octCap s i) : AccessMakes s { s with octLen := s.octLen.set i len }
  | window (i : OReg) (k : Nat) (bytes : List Byte) (fits : k + bytes.length ≤ octCap s i) :
      AccessMakes s { s with mem := Memory.write s.mem (octAddr i k) bytes }

theorem hostAccess_makes (a : HostAccess) (s : State) : AccessMakes s (hostAccess a s) := by
  cases a with
  | read8 off =>
    cases h : readByte s off.toNat with
    | none =>
      rw [hostAccess_read8_of_none h]
      exact .refusedRead _
    | some b =>
      rw [hostAccess_read8_of_some h]
      exact .reply _
  | read32 off =>
    cases h : readWord s off.toNat with
    | none =>
      rw [hostAccess_read32_of_none h]
      exact .refusedRead _
    | some v =>
      rw [hostAccess_read32_of_some h]
      exact .reply _
  | write8 off v =>
    cases h : writeByte v s off.toNat with
    | none =>
      rw [hostAccess_write8_of_none h]
      exact .refusedWrite
    | some t =>
      rw [hostAccess_write8_of_some h]
      obtain ⟨i, k, -, hk, rfl⟩ := writeByte_cases v s t _ h
      exact .window i k [v] hk
  | write32 off v =>
    cases h : writeWord v s off.toNat with
    | none =>
      rw [hostAccess_write32_of_none h]
      exact .refusedWrite
    | some t =>
      rw [hostAccess_write32_of_some h]
      obtain ⟨-, hidle, rfl⟩ | ⟨-, rfl⟩ | ⟨-, rfl⟩ | ⟨i, -, hlen, rfl⟩ | ⟨i, k, -, -, hk, rfl⟩ :=
        writeWord_cases v s t _ h
      · exact .accept v hidle
      · exact .status v
      · exact .ctrl _
      · exact .octLen i _ hlen
      · exact .window i k _ hk

/-! ## Octets stay within capacity (R34, R49, R143) -/

section
variable {s t : State}

theorem octetsOk_congr (hp : t.params = s.params) (hl : t.octLen = s.octLen) (hm : t.mem = s.mem) (h : OctetsOk s) :
    OctetsOk t := by
  unfold OctetsOk octCap at *
  rw [hp, hl, hm]
  exact h

theorem octetsOk_setLen {i : OReg} {len : Nat} (h : OctetsOk s) (hlen : len ≤ octCap s i) :
    OctetsOk { s with octLen := s.octLen.set i len } := by
  obtain ⟨hle, hwf, hcells⟩ := h
  refine ⟨fun j => ?_, hwf, hcells⟩
  show (s.octLen.set i len)[j] ≤ octCap s j
  by_cases hij : i = j
  · subst hij
    simpa using hlen
  · have hij' : i.val ≠ j.val := fun e => hij (Fin.ext e)
    simpa [hij'] using hle j

theorem octetsOk_write {i : OReg} {pos : Nat} {bytes : List Byte} (h : OctetsOk s)
    (hw : bytes = [] ∨ pos + bytes.length ≤ octCap s i) :
    OctetsOk { s with mem := Memory.write s.mem (octAddr i pos) bytes } := by
  obtain ⟨hle, hwf, hcells⟩ := h
  refine ⟨hle, Memory.write_wf _ _ _ hwf, fun c hc => ?_⟩
  obtain ⟨hold, -⟩ | hnew := Memory.mem_write _ _ _ c hc
  · exact hcells c hold
  · obtain ⟨hlo, hhi, -⟩ := Memory.mem_cells bytes _ c hnew
    obtain rfl | hfit := hw
    · cases hnew
    · unfold octAddr at hlo hhi
      exact ⟨i, c.1 - octAddr i 0, by show _ < octCap s i; unfold octAddr; omega, by unfold octAddr; omega⟩

theorem octetsOk_writes {i : Instr} {u : State} (hs : OctetsOk s) (h : Writes i s u) : OctetsOk u := by
  cases h
  case octet d pos bytes len dest window le_cap => exact octetsOk_setLen (octetsOk_write hs window) le_cap
  all_goals exact octetsOk_congr (s := s) rfl rfl rfl hs

theorem octetsOk_exec {i : Instr} (hs : OctetsOk s) (h : exec i s = .next t) : OctetsOk t := by
  obtain ⟨u, hu, rfl⟩ | ⟨code, n, -, rfl⟩ := exec_next_cases h
  · exact octetsOk_congr (s := u) rfl rfl rfl (octetsOk_writes hs hu)
  · exact octetsOk_congr (s := s) rfl rfl rfl hs

theorem octetsOk_access (hs : OctetsOk s) (h : AccessMakes s t) : OctetsOk t := by
  cases h
  case octLen i len le_cap => exact octetsOk_setLen hs le_cap
  case window i k bytes fits => exact octetsOk_write hs (.inr fits)
  case status v => rw [writeStatus_eq]; exact octetsOk_congr (s := s) rfl rfl rfl hs
  all_goals exact octetsOk_congr (s := s) rfl rfl rfl hs

theorem octetsOk_of_reset (hl : t.octLen = State.reset.octLen) (hm : t.mem = State.reset.mem) : OctetsOk t := by
  unfold OctetsOk
  rw [hl, hm]
  refine ⟨fun i => ?_, Memory.reset_wf, nofun⟩
  simp [State.reset]

theorem params_exec {i : Instr} (h : exec i s = .next t) : t.params = s.params :=
  (keyStoreChangesOnlyByItsCommands i s t h).2.2.2.1

theorem params_access (h : AccessMakes s t) : t.params = s.params := by
  cases h
  case status v => rw [writeStatus_eq]
  all_goals rfl

end

/-- Settles O56: every way a step goes writes lengths and bytes within the capacities, which no step changes. -/
theorem everyStepKeepsOctetsWithinCapacity : Obligations.EveryStepKeepsOctetsWithinCapacity := by
  intro s t hs h
  refine step_keeps (Inv := fun u => OctetsOk u ∧ u.params = s.params) ?_ ?_ ?_ ?_ ?_ ⟨hs, rfl⟩ h
  · exact fun u _ _ ⟨hu, hp⟩ => ⟨octetsOk_congr (s := u) rfl rfl rfl hu, hp⟩
  · exact fun i u v _ ⟨hu, hp⟩ _ hrun => ⟨octetsOk_exec hu hrun, (params_exec hrun).trans hp⟩
  · exact fun u ⟨hu, hp⟩ => ⟨octetsOk_congr (s := u) rfl rfl rfl hu, hp⟩
  · exact fun a u ⟨hu, hp⟩ => ⟨octetsOk_access hu (hostAccess_makes a u), (params_access (hostAccess_makes a u)).trans hp⟩
  · exact fun u ⟨_, hp⟩ => ⟨octetsOk_of_reset rfl rfl, hp⟩

/-! ## Values and keys stay in range (R30, R36 to R40, R236) -/

section
variable {s t : State}

theorem valuesOk_congr (hr : t.regs = s.regs) (hpk : t.pk = s.pk) (hsk : t.sk = s.sk) (h : ValuesOk s) : ValuesOk t := by
  unfold ValuesOk RegsOk reg at *
  rw [hr, hpk, hsk]
  exact h

theorem valuesOk_writes {i : Instr} {u : State} (hs : ValuesOk s) (h : Writes i s u) : ValuesOk u := by
  have ⟨hregs, hpk, hsk⟩ := hs
  cases h
  case regs frame ok => exact ⟨ok hs, hpk, hsk⟩
  case keys k n by_ ok => exact ⟨hregs, ok⟩
  case pubKey k by_ ok => exact ⟨hregs, ok hs, hsk⟩
  case noPrivKey by_ => exact ⟨hregs, hpk, rfl⟩
  all_goals exact valuesOk_congr (s := s) rfl rfl rfl hs

theorem valuesOk_exec {i : Instr} (hs : ValuesOk s) (h : exec i s = .next t) : ValuesOk t := by
  obtain ⟨u, hu, rfl⟩ | ⟨code, n, -, rfl⟩ := exec_next_cases h
  · exact valuesOk_congr (s := u) rfl rfl rfl (valuesOk_writes hs hu)
  · exact valuesOk_congr (s := s) rfl rfl rfl hs

theorem valuesOk_access (hs : ValuesOk s) (h : AccessMakes s t) : ValuesOk t := by
  cases h
  case status v => rw [writeStatus_eq]; exact valuesOk_congr (s := s) rfl rfl rfl hs
  all_goals exact valuesOk_congr (s := s) rfl rfl rfl hs

theorem reg_reset (i : BReg) : reg State.reset i = .unwritten := by
  simp [reg, State.reset]

theorem valuesOk_reset : ValuesOk State.reset :=
  ⟨fun i => by rw [reg_reset]; trivial, rfl, rfl⟩

end

/-- Settles O57: each kind of write keeps what it writes in range, and everything else leaves registers and keys alone. -/
theorem everyStepKeepsValuesAndKeysConsistent : Obligations.EveryStepKeepsValuesAndKeysConsistent := by
  intro s t hs h
  refine step_keeps (Inv := ValuesOk) ?_ ?_ ?_ ?_ ?_ hs h
  · exact fun u _ _ hu => valuesOk_congr (s := u) rfl rfl rfl hu
  · exact fun i u v _ hu _ hrun => valuesOk_exec hu hrun
  · exact fun u hu => valuesOk_congr (s := u) rfl rfl rfl hu
  · exact fun a u hu => valuesOk_access hu (hostAccess_makes a u)
  · exact fun u _ => valuesOk_congr (s := State.reset) rfl rfl rfl valuesOk_reset

/-! ## STATUS stays consistent (R44, R57, R287, R289) -/

section
variable {s t : State}

theorem statusOk_raise {code : FaultCode} (hcode : code ≠ .none) (s : State) : StatusOk (raise code s) := by
  refine ⟨?_, fun _ => ⟨rfl, rfl⟩, fun _ => rfl⟩
  simpa using hcode

theorem statusOk_exec {i : Instr} {w : Word} (hs : StatusOk s) (hcmd : s.cmd = some w) (h : exec i s = .next t) :
    StatusOk t := by
  obtain ⟨hcode, hfault, -⟩ := hs
  have hno : s.status.fault = false := by
    rw [Bool.eq_false_iff]
    intro hf
    rw [(hfault hf).2] at hcmd
    cases hcmd
  obtain ⟨u, hu, rfl⟩ | ⟨code, n, hne, rfl⟩ := exec_next_cases h
  · obtain ⟨⟨hf, hc, -⟩, -⟩ := writes_frame hu
    refine ⟨?_, fun hft => ?_, fun _ => rfl⟩
    · simp [hf, hc, hcode]
    · simp [hf, hno] at hft
  · exact statusOk_raise hne _

theorem statusOk_access (hs : StatusOk s) (h : AccessMakes s t) : StatusOk t := by
  cases h
  case accept v idle =>
    obtain ⟨hcode, -, -⟩ := hs
    exact ⟨hcode, fun hft => absurd (idle.symm.trans hft) Bool.false_ne_true, nofun⟩
  case status v =>
    rw [writeStatus_eq]
    obtain ⟨hcode, hfault, hdone⟩ := hs
    refine ⟨?_, fun hft => hfault (Bool.and_elim_left hft), hdone⟩
    cases v.getLsbD 2 <;> simp [hcode]
  all_goals exact hs

theorem statusOk_reset : StatusOk State.reset := ⟨⟨fun _ => rfl, fun _ => rfl⟩, nofun, nofun⟩

end

/-- Settles O58: a command completes only while FAULT is 0, a fault writes all of them, and the host clears FAULT with FCODE. -/
theorem everyStepKeepsStatusConsistent : Obligations.EveryStepKeepsStatusConsistent := by
  intro s t hs h
  refine step_keeps (Inv := StatusOk) ?_ ?_ ?_ ?_ ?_ hs h
  · exact fun u _ _ hu => hu
  · exact fun i u v w hu hcmd hrun => statusOk_exec hu hcmd hrun
  · exact fun u _ => statusOk_raise (by decide) u
  · exact fun a u hu => statusOk_access hu (hostAccess_makes a u)
  · exact fun u _ => statusOk_reset

/-! ## Reset (R320, R321) -/

/-- Settles O55. -/
theorem resetMeetsTheInvariants : Obligations.ResetMeetsTheInvariants :=
  ⟨octetsOk_of_reset rfl rfl, valuesOk_reset, statusOk_reset⟩

/-- Settles O20: reset gives each value by definition, and a step with reset asserted is the platform's reset. -/
theorem resetGivesTheResetValues : Obligations.ResetGivesTheResetValues := by
  refine ⟨reg_reset, fun i => by simp [State.reset], fun a => rfl, rfl, rfl, rfl, rfl, rfl, by decide, rfl, rfl, rfl, rfl, ?_⟩
  intro s rest hin
  refine ⟨platformReset { s with inputs := rest }, ?_, rfl, rfl⟩
  simp only [step, inputStep, hin]

end Sys2Proof.Machine
end

section
/-! PROOFS. What the host sees: the octet lengths and the control registers (R46 to R51), when an access waits (R81, R94), and
that no access reaches or depends on hidden state (R32, R40, R58, R93). -/

namespace Sys2Proof.Machine

/-! ## Small numbers in a register word -/

/-- A 13-bit field at the bottom of a word is its value. -/
theorem append_ofNat_thirteen {x : Nat} (h : x ≤ 4096) : 0#19 ++ BitVec.ofNat 13 x = BitVec.ofNat 32 x := by
  refine BitVec.eq_of_toNat_eq ?_
  rw [BitVec.toNat_append, BitVec.toNat_ofNat, BitVec.toNat_ofNat, BitVec.toNat_ofNat, Nat.zero_mod, Nat.zero_shiftLeft,
    Nat.zero_or]
  omega

/-- The offset of an indexed control register is below 2^20 (R83, R84). -/
theorem toNat_ofNat_indexed (base : Nat) (i : Fin 16) (h : base ≤ 0x300) :
    (BitVec.ofNat 20 (base + 4 * i.val)).toNat = base + 4 * i.val := by
  rw [BitVec.toNat_ofNat, Nat.mod_eq_of_lt]
  omega

/-! ## OCTLEN (R49) -/

/-- Settles O15. -/
theorem octLenIsReadAndBounded : Obligations.OctLenIsReadAndBounded := by
  intro s i v
  have hoff := toNat_ofNat_indexed 0x00100 i (by decide)
  refine ⟨fun hlen => ?_, fun hfits => ?_, fun hpast => ?_⟩
  · refine hostAccess_read32_of_some ?_
    rw [hoff]
    simp only [readWord, target_octLen, octLenWord, append_ofNat_thirteen (hlen.trans (octCap_le s i))]
  · refine hostAccess_write32_of_some ?_
    rw [hoff]
    simp only [writeWord, target_octLen, if_pos hfits]
  · refine hostAccess_write32_of_none ?_
    rw [hoff]
    exact writeWord_octLen_above i v hpast

/-! ## CTRL, FAULTCMD, KEYSTAT, REGINFO, OCTCAP (R46 to R51) -/

theorem ctrlWord_eq (s : State) : ctrlWord s = if s.cappol = .truncate then 1 else 0 := by
  unfold ctrlWord
  cases s.cappol <;> rfl

/-- KEYSTAT, bit by bit (R48). -/
theorem keystatWord_getLsbD (s : State) (k : Nat) (hk : k < 32) :
    (keystatWord s).getLsbD k =
      if k = 0 then s.pk.valid
      else if k < 3 then s.sk.kind.code.getLsbD (k - 1)
      else if k = 3 then s.rngs
      else false := by
  -- `getLsbD_append` needs the word's width as the sum of its fields' widths
  show BitVec.getLsbD (w := 28 + 1 + 2 + 1) _ k = _
  simp only [keystatWord, BitVec.getLsbD_append]
  interval_cases k <;> simp

theorem keystatWord_kind (s : State) : (keystatWord s).extractLsb' 1 2 = s.sk.kind.code :=
  extractLsb'_eq_of_getLsbD fun j hj => by
    rw [keystatWord_getLsbD s (1 + j) (by omega)]
    interval_cases j <;> simp

theorem keystatWord_reserved (s : State) : (keystatWord s).extractLsb' 4 28 = 0 :=
  extractLsb'_eq_of_getLsbD fun j hj => by
    rw [keystatWord_getLsbD s (4 + j) (by omega), if_neg (by omega), if_neg (by omega), if_neg (by omega)]
    exact (BitVec.getLsbD_zero).symm

theorem tagCode_eq (w : Width) : tagCode w = w.code := by cases w <;> rfl

/-- REGINFO of a written register, bit by bit (R50). -/
theorem regInfoWord_getLsbD {s : State} {i : BReg} {t : Width} (ht : (reg s i).tag = some t) (k : Nat) (hk : k < 32) :
    (regInfoWord s i).getLsbD k =
      if k = 0 then true
      else if k < 3 then t.code.getLsbD (k - 1)
      else if k = 3 then (reg s i).norm
      else false := by
  show BitVec.getLsbD (w := 28 + 1 + 2 + 1) _ k = _
  simp only [regInfoWord, ht, BitVec.getLsbD_append, tagCode_eq]
  interval_cases k <;> simp

theorem regInfoWord_unwritten {s : State} {i : BReg} (ht : (reg s i).tag = none) : regInfoWord s i = 0 := by
  simp only [regInfoWord, ht]

/-- REGINFO's fields (R50). -/
theorem regInfoWord_fields (s : State) (i : BReg) :
    (regInfoWord s i).getLsbD 0 = (reg s i).tag.isSome ∧
      (∀ w, (reg s i).tag = some w → (regInfoWord s i).extractLsb' 1 2 = w.code) ∧
      (regInfoWord s i).getLsbD 3 = (reg s i).norm ∧ (regInfoWord s i).extractLsb' 4 28 = 0 ∧
      ((reg s i).tag = none → regInfoWord s i = 0) := by
  cases ht : (reg s i).tag with
  | none =>
    have hnorm : (reg s i).norm = false := by rw [(WideReg.tag_eq_none _).mp ht]; rfl
    rw [regInfoWord_unwritten ht, hnorm]
    exact ⟨rfl, nofun, rfl, rfl, fun _ => rfl⟩
  | some t =>
    have hbit := regInfoWord_getLsbD ht
    refine ⟨hbit 0 (by decide), ?_, hbit 3 (by decide), ?_, nofun⟩
    · rintro w ⟨⟩
      refine extractLsb'_eq_of_getLsbD fun j hj => ?_
      rw [hbit (1 + j) (by omega)]
      interval_cases j <;> simp
    · refine extractLsb'_eq_of_getLsbD fun j hj => ?_
      rw [hbit (4 + j) (by omega), if_neg (by omega), if_neg (by omega), if_neg (by omega)]
      exact (BitVec.getLsbD_zero).symm

/-- Settles O16. -/
theorem controlRegistersReadTheirFields : Obligations.ControlRegistersReadTheirFields := by
  intro s i v
  refine ⟨hostAccess_write32_of_some rfl, hostAccess_read32_of_some rfl, ?_, ?_, ?_, ?_⟩
  · rw [← ctrlWord_eq]
    exact hostAccess_read32_of_some rfl
  · exact ⟨keystatWord s, hostAccess_read32_of_some rfl, keystatWord_getLsbD s 0 (by decide), keystatWord_kind s,
      keystatWord_getLsbD s 3 (by decide), keystatWord_reserved s⟩
  · refine ⟨regInfoWord s i, hostAccess_read32_of_some ?_, regInfoWord_fields s i⟩
    rw [toNat_ofNat_indexed _ i (by decide)]
    simp only [readWord, target_regInfo]
  · refine hostAccess_read32_of_some ?_
    rw [toNat_ofNat_indexed _ i (by decide)]
    simp only [readWord, target_octCap, octCapWord, append_ofNat_thirteen (octCap_le s i)]

/-! ## Waiting accesses (R81, R94) -/

/-- Settles O19: an access takes effect where nothing waits before it and the block is idle or it reads STATUS. -/
theorem accessesStallWhileBusy : Obligations.AccessesStallWhileBusy := by
  intro s a rest
  refine ⟨fun hin hport hcmd => ?_, fun hin hport hcmd => ?_, fun hin hne hcmd => ?_, fun later hin hport hcmd => ?_⟩
  · have henabled : accessEnabled { s with inputs := rest } a = true := by simp [accessEnabled, busy, hcmd]
    simp only [step, inputStep, hin, hostIssue, hport, List.isEmpty_nil, Bool.true_and]
    rw [← hport, if_pos henabled]
  · refine ⟨statusWord s, (statusWord_getLsbD s 0 (by decide)).trans hcmd, ?_⟩
    simp only [step, inputStep, hin, hostIssue, hport, List.isEmpty_nil, Bool.true_and]
    rw [← hport, if_pos (by simp [accessEnabled]), hostAccess_read32_of_some rfl]
    rfl
  · have henabled : accessEnabled { s with inputs := rest } a = false := by
      rw [accessEnabled, busy, hcmd, beq_false_of_ne hne]
      rfl
    simp only [step, inputStep, hin, hostIssue, henabled, Bool.and_false, Bool.false_eq_true, if_false]
  · have henabled : accessEnabled s a = true := by simp [accessEnabled, busy, hcmd]
    simp only [step, inputStep, hin, blockStep, hport, henabled, if_true]

/-! ## Hidden state (R32, R40, R58, R93) -/

/-- `s` with other register values, key values, scratch and random source: what no host access shows. -/
def withHidden (regs : Vector WideReg 16) (pk : PubKey) (sk : PrivKey) (scratch : Scratch) (rng : RngPort) (s : State) : State :=
  { s with regs := regs, pk := pk, sk := sk, scratch := scratch, rng := rng }

section
variable {regs : Vector WideReg 16} {pk : PubKey} {sk : PrivKey} {scratch : Scratch} {rng : RngPort} {s : State}

/-- What a 32-bit read returns does not depend on hidden values, given what REGINFO and KEYSTAT show. -/
theorem readWord_withHidden (hregs : ∀ i : BReg, regs[i].tag = (reg s i).tag ∧ regs[i].norm = (reg s i).norm)
    (hpk : pk.valid = s.pk.valid) (hsk : sk.kind = s.sk.kind) (off : Nat) :
    readWord (withHidden regs pk sk scratch rng s) off = readWord s off := by
  unfold readWord
  cases target off
  case keystat =>
    show some (0#28 ++ BitVec.ofBool s.rngs ++ sk.kind.code ++ BitVec.ofBool pk.valid) = some (keystatWord s)
    rw [hpk, hsk]
    rfl
  case regInfo i =>
    obtain ⟨htag, hnorm⟩ := hregs i
    have hreg : reg (withHidden regs pk sk scratch rng s) i = regs[i] := rfl
    simp only [regInfoWord, hreg, htag, hnorm]
  all_goals rfl

theorem readByte_withHidden (off : Nat) : readByte (withHidden regs pk sk scratch rng s) off = readByte s off := by
  unfold readByte
  cases target off <;> rfl

theorem writeByte_withHidden (v : Byte) (off : Nat) :
    writeByte v (withHidden regs pk sk scratch rng s) off =
      (writeByte v s off).map (withHidden regs pk sk scratch rng) := by
  unfold writeByte
  cases target off
  case data =>
    simp only [apply_ite (Option.map (withHidden regs pk sk scratch rng)), Option.map_some, Option.map_none]
    rfl
  all_goals rfl

theorem writeStatus_withHidden (v : Word) :
    writeStatus v (withHidden regs pk sk scratch rng s) = withHidden regs pk sk scratch rng (writeStatus v s) := by
  rw [writeStatus_eq, writeStatus_eq]
  rfl

theorem writeWord_withHidden (v : Word) (off : Nat) :
    writeWord v (withHidden regs pk sk scratch rng s) off =
      (writeWord v s off).map (withHidden regs pk sk scratch rng) := by
  unfold writeWord
  cases target off
  case cmd | octLen | data =>
    simp only [apply_ite (Option.map (withHidden regs pk sk scratch rng)), Option.map_some, Option.map_none]
    rfl
  case status => exact congrArg some (writeStatus_withHidden v)
  all_goals rfl

theorem hostAccess_withHidden (a : HostAccess)
    (hregs : ∀ i : BReg, regs[i].tag = (reg s i).tag ∧ regs[i].norm = (reg s i).norm)
    (hpk : pk.valid = s.pk.valid) (hsk : sk.kind = s.sk.kind) :
    hostAccess a (withHidden regs pk sk scratch rng s) = withHidden regs pk sk scratch rng (hostAccess a s) := by
  cases a with
  | read8 off =>
    simp only [hostAccess, readByte_withHidden]
    cases readByte s off.toNat <;> rfl
  | read32 off =>
    simp only [hostAccess, readWord_withHidden hregs hpk hsk]
    cases readWord s off.toNat <;> rfl
  | write8 off v =>
    simp only [hostAccess, writeByte_withHidden]
    cases writeByte v s off.toNat <;> rfl
  | write32 off v =>
    simp only [hostAccess, writeWord_withHidden]
    cases writeWord v s off.toNat <;> rfl

end

/-- Settles O12: what an access makes of the state names none of the hidden parts, and reads nothing of them but what REGINFO
and KEYSTAT show. -/
theorem hostAccessReachesNoSecretState : Obligations.HostAccessReachesNoSecretState := by
  intro a s
  refine ⟨?_, fun regs pk sk scratch rng hregs hpk hsk => hostAccess_withHidden a hregs hpk hsk⟩
  have h := hostAccess_makes a s
  generalize hostAccess a s = t at h ⊢
  cases h
  case status v =>
    rw [writeStatus_eq]
    exact ⟨rfl, rfl, rfl, rfl, rfl, rfl, rfl, rfl, rfl, rfl, rfl⟩
  all_goals exact ⟨rfl, rfl, rfl, rfl, rfl, rfl, rfl, rfl, rfl, rfl, rfl⟩

end Sys2Proof.Machine
end

section
/-! PROOFS. The octet commands (R140 to R147) and the RNG port (R270 to R272). -/

namespace Sys2Proof.Machine

/-! ## How a body runs -/

section
variable {s : State} {i : Instr} {code : FaultCode}

theorem faultsWith_of_raise (h : exec i s = .next (raise code s)) : FaultsWith i s code := by
  intro cw hcmd
  rw [h, raise_eq_afterFault hcmd]

theorem commit_require_false {b : Bool} {f : Unit → Except FaultCode State} (hb : b = false) :
    commit s (require b code >>= f) = .next (raise code s) := by
  rw [hb, require_false, except_error_bind, commit_error]

theorem commit_require_true {b : Bool} {f : Unit → Except FaultCode State} (hb : b = true) :
    commit s (require b code >>= f) = commit s (f ()) := by
  rw [hb, require_true, except_ok_bind]

theorem commit_check_ok {es : List Operand} {f : Unit → Except FaultCode State} (h : check s es = .ok ()) :
    commit s (check s es >>= f) = commit s (f ()) := by
  rw [h, except_ok_bind]

end

/-! ## Stored strings (R143) -/

theorem storedOctet_putOctet (s : State) (i : OReg) (pos : Nat) (bytes : List Byte) (len : Nat) :
    StoredOctet s i pos bytes len (complete (putOctet s i pos bytes len)) :=
  ⟨rfl, fun k hk => octByte_putOctet_inside s i pos len k bytes hk,
    fun a ha => Memory.read_write_outside s.mem (octAddr i pos) a bytes ha⟩

section
variable {s : State} {i : OReg} {pos : Nat} {bytes : List Byte}

theorem commit_octStore_fits (h : pos + bytes.length ≤ octCap s i) :
    commit s (octStore s i pos bytes) = .next (complete (putOctet s i pos bytes (pos + bytes.length))) := by
  rw [octStore_fits s i pos bytes h, commit_ok]

theorem commit_octStore_faults (h : octCap s i < pos + bytes.length) (hpol : s.cappol = .fault) :
    commit s (octStore s i pos bytes) = .next (raise .octCapacity s) := by
  rw [octStore_faults s i pos bytes h hpol, commit_error]

theorem commit_octStore_truncates (h : octCap s i < pos + bytes.length) (hpol : s.cappol = .truncate) :
    commit s (octStore s i pos bytes) =
      .next (complete (putOctet s i pos (bytes.take (octCap s i - pos)) (octCap s i))) := by
  rw [octStore_truncates s i pos bytes h hpol, commit_ok]

/-- A command that ends in OctStore, where the string fits. -/
theorem stored_of_fits {c : Instr} (hexec : exec c s = commit s (octStore s i pos bytes)) {len : Nat}
    (hlen : pos + bytes.length = len) (hfits : len ≤ octCap s i) :
    ∃ t, exec c s = .next t ∧ StoredOctet s i pos bytes len t := by
  subst hlen
  exact ⟨_, hexec.trans (commit_octStore_fits hfits), storedOctet_putOctet s i pos bytes _⟩

/-- A command that ends in OctStore, past the capacity, by the policy. -/
theorem stored_past_capacity {c : Instr} (hexec : exec c s = commit s (octStore s i pos bytes))
    (hpast : octCap s i < pos + bytes.length) :
    (s.cappol = .fault → FaultsWith c s .octCapacity) ∧
      (s.cappol = .truncate → ∃ t, exec c s = .next t ∧
        StoredOctet s i pos (bytes.take (octCap s i - pos)) (octCap s i) t) :=
  ⟨fun hpol => faultsWith_of_raise (hexec.trans (commit_octStore_faults hpast hpol)),
    fun hpol => ⟨_, hexec.trans (commit_octStore_truncates hpast hpol), storedOctet_putOctet s i pos _ _⟩⟩

end

/-! ## What the storing commands run -/

section
variable {s : State}

theorem exec_octTail {d a : OReg} {len : BitVec 16} (h : len.toNat ≤ s.octLen[a]) :
    exec (.octTail d a len) s = commit s (octStore s d 0 ((octStr s a).drop (s.octLen[a] - len.toNat))) :=
  commit_require_true (decide_eq_true h)

theorem length_octTail {a : OReg} {len : BitVec 16} (h : len.toNat ≤ s.octLen[a]) :
    0 + ((octStr s a).drop (s.octLen[a] - len.toNat)).length = len.toNat := by
  rw [List.length_drop, octStr_length]
  omega

theorem exec_bnStore {d : OReg} {a : BReg} {w : Width} {v : Nat} (h : reg s a = .normal w v) :
    exec (.bnStore d a w) s = commit s (octStore s d 0 (toBigEndian w.bytes v)) := by
  rw [← regNat_normal s a w v h]
  exact commit_check_ok (check_normal_one s a w v h)

theorem bigEndian_of_width {w : Width} {v : Nat} (h : v < 2 ^ w.bits) : bigEndian (toBigEndian w.bytes v) = v := by
  rw [bigEndian_toBigEndian, Width.pow_bytes, Nat.mod_eq_of_lt h]

theorem exec_octPad {d : OReg} {len : BitVec 16} (h1 : s.octLen[d] ≤ len.toNat) (h2 : len.toNat ≤ octCap s d) :
    exec (.octPad d len) s =
      .next (complete (putOctet s d 0 (zeroBytes (len.toNat - s.octLen[d]) ++ octStr s d) len.toNat)) :=
  commit_require_true (Bool.and_eq_true_iff.mpr ⟨decide_eq_true h1, decide_eq_true h2⟩)

end

/-- Settles O21. -/
theorem octZeroAndPadWriteTheirOctet : Obligations.OctZeroAndPadWriteTheirOctet :=
  ⟨fun d s => ⟨_, rfl, storedOctet_putOctet s d 0 (zeroBytes (octCap s d)) 0⟩,
    fun d _ s h1 h2 => ⟨_, exec_octPad h1 h2, storedOctet_putOctet s d 0 _ _⟩⟩

/-- Settles O22: each of the four ends in OctStore of a string that fits. -/
theorem storingCommandsWriteTheString : Obligations.StoringCommandsWriteTheString := by
  refine ⟨fun d a s h => ?_, fun d a s h => ?_, fun d a len s hlen h => ?_, fun d a w v s hreg hv h => ?_⟩
  · exact stored_of_fits rfl (by rw [octStr_length, Nat.zero_add]) h
  · exact stored_of_fits rfl (by rw [octStr_length]) h
  · exact stored_of_fits (exec_octTail hlen) (length_octTail hlen) h
  · obtain ⟨t, ht, hstored⟩ := stored_of_fits (exec_bnStore (d := d) hreg) (by rw [toBigEndian_length, Nat.zero_add]) h
    exact ⟨t, _, ht, hstored, toBigEndian_length _ _, bigEndian_of_width hv⟩

/-- Settles O23: each of the four ends in OctStore of a string that does not fit. -/
theorem storingCommandsPastCapacity : Obligations.StoringCommandsPastCapacity := by
  refine ⟨fun d a s h => ?_, fun d a s h => ?_, fun d a len s hlen h => ?_, fun d a w v s hreg hv h => ?_⟩
  · exact stored_past_capacity (pos := 0) rfl (by rwa [octStr_length, Nat.zero_add])
  · exact stored_past_capacity rfl (by rwa [octStr_length])
  · exact stored_past_capacity (exec_octTail hlen) (by rwa [length_octTail hlen])
  · obtain ⟨hfault, htrunc⟩ :=
      stored_past_capacity (exec_bnStore (d := d) hreg) (by rwa [toBigEndian_length, Nat.zero_add])
    refine ⟨hfault, fun hpol => ?_⟩
    obtain ⟨t, ht, hstored⟩ := htrunc hpol
    exact ⟨t, _, ht, hstored, toBigEndian_length _ _, bigEndian_of_width hv⟩

/-! ## Comparison (R145) -/

/-- The accumulator over two strings of one length is 0 exactly when it starts at 0 and they are equal. -/
theorem xorAccumulate_eq_zero_iff (acc : Byte) (xs ys : List Byte) (h : xs.length = ys.length) :
    xorAccumulate acc xs ys = 0 ↔ acc = 0 ∧ xs = ys := by
  induction xs generalizing acc ys with
  | nil =>
    obtain rfl : ys = [] := List.length_eq_zero_iff.mp h.symm
    simp [xorAccumulate]
  | cons x xs ih =>
    cases ys with
    | nil => cases h
    | cons y ys =>
      have hacc : acc ||| (x ^^^ y) = 0 ↔ acc = 0 ∧ x = y :=
        BitVec.or_eq_zero_iff.trans (and_congr_right' BitVec.xor_eq_zero_iff)
      rw [xorAccumulate, ih _ _ (Nat.succ.inj h), hacc, List.cons.injEq, and_assoc]

theorem constantTimeEqual_eq (xs ys : List Byte) : constantTimeEqual xs ys = decide (xs = ys) := by
  unfold constantTimeEqual
  split_ifs with hlen
  · rw [Bool.eq_iff_iff, beq_iff_eq, decide_eq_true_iff, xorAccumulate_eq_zero_iff 0 xs ys hlen]
    exact and_iff_right rfl
  · exact (decide_eq_false fun h => hlen (congrArg List.length h)).symm

/-- Settles O25: the accumulator decides equality of the strings. -/
theorem octCteqComparesStrings : Obligations.OctCteqComparesStrings := by
  intro a b s
  rw [← constantTimeEqual_eq]
  rfl

/-! ## The octet laws (R147) -/

theorem octStr_eq_nil_iff (s : State) (i : OReg) : octStr s i = [] ↔ s.octLen[i] = 0 := by
  rw [← List.length_eq_zero_iff, octStr_length]

/-- The string of an octet written from position 0, at its length. -/
theorem octStr_complete_putOctet {s : State} {i : OReg} {bytes : List Byte} {len : Nat} (h : bytes.length = len) :
    octStr (complete (putOctet s i 0 bytes len)) i = bytes := by
  subst h
  exact octStr_putOctet s i bytes

/-- Settles O24: the padded string is zeros before the old one, whose last bytes are the old string. -/
theorem octetLaws : Obligations.OctetLaws := by
  constructor
  · intro d len s h1 h2
    have hpad : (zeroBytes (len.toNat - s.octLen[d]) ++ octStr s d).length = len.toNat := by
      rw [List.length_append, zeroBytes_length, octStr_length]
      omega
    set t := complete (putOctet s d 0 (zeroBytes (len.toNat - s.octLen[d]) ++ octStr s d) len.toNat)
    have hstr : octStr t d = zeroBytes (len.toNat - s.octLen[d]) ++ octStr s d := octStr_complete_putOctet hpad
    have hlen : t.octLen[d] = len.toNat := by rw [← octStr_length, hstr, hpad]
    have hold : (BitVec.ofNat 16 s.octLen[d]).toNat = s.octLen[d] := by
      rw [BitVec.toNat_ofNat, Nat.mod_eq_of_lt (h1.trans_lt len.isLt)]
    have htail : (octStr t d).drop (t.octLen[d] - (BitVec.ofNat 16 s.octLen[d]).toNat) = octStr s d := by
      rw [hstr, hlen, hold]
      exact List.drop_left' (zeroBytes_length _)
    have hexec : exec (.octTail d d (BitVec.ofNat 16 s.octLen[d])) t = commit t (octStore t d 0 (octStr s d)) := by
      rw [exec_octTail (by rw [hold, hlen]; exact h1), htail]
    have hfits : 0 + (octStr s d).length ≤ octCap t d := by
      rw [octStr_length, Nat.zero_add]
      exact h1.trans h2
    refine ⟨t, _, exec_octPad h1 h2, ?_, hexec.trans (commit_octStore_fits hfits), ?_⟩
    · rw [hstr, bigEndian_append, bigEndian_zeroBytes, Nat.zero_mul, Nat.zero_add]
    · exact octStr_complete_putOctet (s := t) (Nat.zero_add _).symm
  · intro d x s
    set t := complete (putOctet s d 0 (zeroBytes (octCap s d)) 0)
    have hempty : octStr t d = [] := (octStr_eq_nil_iff t d).mpr (octLen_putOctet_self s d 0 0 (zeroBytes (octCap s d)))
    refine ⟨t, _, rfl, octCteqComparesStrings d x t, ?_⟩
    show decide (octStr t d = octStr t x) = true ↔ _
    rw [decide_eq_true_iff, hempty, eq_comm]
    exact octStr_eq_nil_iff t x

/-! ## Lengths out of range (R144, R146, R179, R270), and the RNG port -/

/-- Settles O26: each command's length test is its first. -/
theorem lengthOutOfRangeFaults : Obligations.LengthOutOfRangeFaults := by
  refine ⟨fun d len s h => ?_, fun d a len s h => ?_, fun d a w s h => ?_, fun a s h => ?_⟩
  · refine faultsWith_of_raise (commit_require_false ?_)
    rw [Bool.and_eq_false_iff, decide_eq_false_iff_not, decide_eq_false_iff_not]
    omega
  · exact faultsWith_of_raise (commit_require_false (decide_eq_false (Nat.not_le.mpr h)))
  · exact faultsWith_of_raise (commit_require_false (decide_eq_false (Nat.not_le.mpr h)))
  · exact faultsWith_of_raise (commit_require_false (by rw [h]; rfl))

/-- Settles O54. -/
theorem seedAndKillDriveTheRngPort : Obligations.SeedAndKillDriveTheRngPort :=
  ⟨fun _ _ h => commit_require_true (bne_iff_ne.mpr h), fun _ => rfl⟩

end Sys2Proof.Machine
end

section
/-! PROOFS. The field commands (R162 to R183): what each runs to on operands that are there, and its faults. -/

set_option exponentiation.threshold 8200

namespace Sys2Proof.Machine

@[simp] theorem reg_complete (s : State) (i : BReg) : reg (complete s) i = reg s i := rfl

/-! ## What the field commands run to -/

section
variable {s : State} {d a b c : BReg} {w : Width} {va vb vc : Nat}

theorem exec_bnCopy (ha : (reg s a).tag = some w) : exec (.bnCopy d a w) s = .next (complete (setReg s d (reg s a))) :=
  commit_check_ok (check_any_one s a w ha)

theorem exec_bnAdd (ha : reg s a = .normal w va) (hb : reg s b = .normal w vb) :
    exec (.bnAdd d a b w) s = .next (complete (setReg s d (.denormal w ((va : Int) + vb)))) := by
  rw [← regVal_normal s a w va ha, ← regVal_normal s b w vb hb]
  exact commit_check_ok (check_normal_two s a b w w va vb ha hb)

theorem exec_bnSub (ha : reg s a = .normal w va) (hb : reg s b = .normal w vb) :
    exec (.bnSub d a b w) s = .next (complete (setReg s d (.denormal w ((va : Int) - vb)))) := by
  rw [← regVal_normal s a w va ha, ← regVal_normal s b w vb hb]
  exact commit_check_ok (check_normal_two s a b w w va vb ha hb)

theorem exec_bnNorm (ha : (reg s a).tag = some w) :
    exec (.bnNorm d a w) s = .next (complete (setReg s d (.normal w (regVal s a % (2 ^ w.bits : Nat)).toNat))) :=
  commit_check_ok (check_any_one s a w ha)

theorem exec_bnCmp (ha : reg s a = .normal w va) (hb : reg s b = .normal w vb) :
    exec (.bnCmp a b w) s = .next (complete (setCmp s (compareNat va vb))) := by
  rw [← regNat_normal s a w va ha, ← regNat_normal s b w vb hb]
  exact commit_check_ok (check_normal_two s a b w w va vb ha hb)

theorem exec_bnShlw (ha : reg s a = .normal w va) :
    exec (.bnShlw d a w) s =
      .next (complete (setReg s d (.normal w (va * 2 ^ s.params.bniWordBits.val % 2 ^ w.bits)))) := by
  rw [← regNat_normal s a w va ha]
  exact commit_check_ok (check_normal_one s a w va ha)

theorem exec_bnShrw (ha : reg s a = .normal w va) :
    exec (.bnShrw d a w) s = .next (complete (setReg s d (.normal w (va / 2 ^ s.params.bniWordBits.val)))) := by
  rw [← regNat_normal s a w va ha]
  exact commit_check_ok (check_normal_one s a w va ha)

theorem exec_bnMul (hw : w ≠ .w8192) (ha : reg s a = .normal w va) (hb : reg s b = .normal w vb) :
    exec (.bnMul d a b w) s = .next (complete (setReg s d (.normal (doubleWidth w) (va * vb)))) := by
  rw [← regNat_normal s a w va ha, ← regNat_normal s b w vb hb]
  exact (commit_require_true (bne_iff_ne.mpr hw)).trans (commit_check_ok (check_normal_two s a b w w va vb ha hb))

theorem exec_bnSqr (hw : w ≠ .w8192) (ha : reg s a = .normal w va) :
    exec (.bnSqr d a w) s = .next (complete (setReg s d (.normal (doubleWidth w) (va * va)))) := by
  rw [← regNat_normal s a w va ha]
  exact (commit_require_true (bne_iff_ne.mpr hw)).trans (commit_check_ok (check_normal_one s a w va ha))

/-- BN.MOD past its width and its operand check: the test of the modulus is left. -/
theorem exec_bnMod_checked (hw : w ≠ .w8192) (ha : reg s a = .normal (doubleWidth w) va) (hb : reg s b = .normal w vb) :
    exec (.bnMod d a b w) s = commit s (do
      require (vb != 0) .divZero
      pure (setReg s d (.normal w (va % vb)))) := by
  rw [← regNat_normal s a _ va ha, ← regNat_normal s b w vb hb]
  exact (commit_require_true (bne_iff_ne.mpr hw)).trans
    (commit_check_ok (check_normal_two s a b (doubleWidth w) w va vb ha hb))

theorem exec_bnPow_checked (ha : reg s a = .normal w va) (hb : reg s b = .normal w vb) (hc : reg s c = .normal w vc) :
    exec (.bnPow d a b c w) s = commit s (do
      require (vc != 0) .divZero
      require (vc % 2 != 0) .evenModulus
      pure (setReg s d (.normal w (powMod va vb vc)))) := by
  rw [← regNat_normal s a w va ha, ← regNat_normal s b w vb hb, ← regNat_normal s c w vc hc]
  exact commit_check_ok (check_normal_three s a b c w va vb vc ha hb hc)

theorem exec_bnInv_checked (ha : reg s a = .normal w va) (hb : reg s b = .normal w vb) :
    exec (.bnInv d a b w) s = commit s (do
      require (vb != 0) .divZero
      require (Nat.gcd va vb == 1) .noInverse
      pure (setReg s d (.normal w (modInv va vb)))) := by
  rw [← regNat_normal s a w va ha, ← regNat_normal s b w vb hb]
  exact commit_check_ok (check_normal_two s a b w w va vb ha hb)

theorem exec_bnInv (ha : reg s a = .normal w va) (hb : reg s b = .normal w vb) (hne : vb ≠ 0) (hg : Nat.gcd va vb = 1) :
    exec (.bnInv d a b w) s = .next (complete (setReg s d (.normal w (modInv va vb)))) :=
  (exec_bnInv_checked ha hb).trans
    ((commit_require_true (bne_iff_ne.mpr hne)).trans (commit_require_true (beq_iff_eq.mpr hg)))

theorem exec_bnInv2m_checked (ha : reg s a = .normal w va) :
    exec (.bnInv2m d a w) s = commit s (do
      require (va % 2 != 0) .noInverse
      pure (setReg s d (.normal w (modInv va (2 ^ w.bits))))) := by
  rw [← regNat_normal s a w va ha]
  exact commit_check_ok (check_normal_one s a w va ha)

theorem exec_bnLoad {o : OReg} (h : s.octLen[o] ≤ w.bytes) :
    exec (.bnLoad d o w) s = .next (complete (setReg s d (.normal w (bigEndian (octStr s o))))) :=
  commit_require_true (decide_eq_true h)

end

/-! ## Constants, sums, comparison, shifts (R162 to R170) -/

/-- Settles O27. -/
theorem bnConstantsAndCopy : Obligations.BnConstantsAndCopy :=
  ⟨fun _ _ _ => ⟨rfl, rfl⟩, fun _ _ _ _ h => exec_bnCopy h⟩

theorem cast_two_pow (k : Nat) : ((2 ^ k : Nat) : Int) = 2 ^ k := by push_cast; rfl

/-- The residue BN.NORM writes, as an integer. -/
theorem natCast_toNat_emod (v : Int) (k : Nat) : ((v % (2 ^ k : Nat)).toNat : Int) = v % 2 ^ k := by
  have hpos : (0 : Int) < (2 ^ k : Nat) := by exact_mod_cast Nat.pow_pos (by decide)
  rw [Int.toNat_of_nonneg (Int.emod_nonneg v hpos.ne'), cast_two_pow]

/-- Settles O28. -/
theorem bnAddSubAndNorm : Obligations.BnAddSubAndNorm := by
  refine ⟨fun d a b w va vb s ha hb => ⟨exec_bnAdd ha hb, exec_bnSub ha hb⟩, fun d a w s => ⟨fun v ha => ?_, fun v ha => ?_⟩⟩
  · have htag : (reg s a).tag = some w := by rw [ha]; rfl
    refine ⟨(v % (2 ^ w.bits : Nat)).toNat, natCast_toNat_emod v w.bits, ?_⟩
    rw [exec_bnNorm htag, regVal_denormal s a w v ha]
    rfl
  · have htag : (reg s a).tag = some w := by rw [ha]; rfl
    rw [exec_bnNorm htag, regVal_normal s a w v ha, ← Int.natCast_emod, Int.toNat_natCast]
    rfl

/-- Settles O29. -/
theorem bnCmpWritesTheOrder : Obligations.BnCmpWritesTheOrder := by
  intro a b w va vb s ha hb
  refine ⟨compareNat va vb, exec_bnCmp ha hb, ?_⟩
  unfold compareNat
  split_ifs <;> simp <;> omega

/-- Settles O30. -/
theorem bnWordShifts : Obligations.BnWordShifts := fun _ _ _ _ _ ha => ⟨exec_bnShlw ha, exec_bnShrw ha⟩

/-! ## Products and residues (R171 to R173) -/

/-- Only the two narrower widths have a double (R171). -/
theorem doubleWidth_of_bits {w w2 : Width} (h : w2.bits = 2 * w.bits) : w ≠ .w8192 ∧ w2 = doubleWidth w := by
  revert h
  cases w <;> cases w2 <;> decide

/-- Settles O31. -/
theorem bnMulSqrAndModUseTheDoubleWidth : Obligations.BnMulSqrAndModUseTheDoubleWidth := by
  refine ⟨fun d a b s => ?_, fun d a b w w2 va vb s hbits hb => ?_⟩
  · exact ⟨faultsWith_of_raise rfl, faultsWith_of_raise rfl, faultsWith_of_raise rfl⟩
  · obtain ⟨hw, rfl⟩ := doubleWidth_of_bits hbits
    refine ⟨fun ha => ⟨exec_bnMul hw ha hb, exec_bnSqr hw ha⟩, fun ha hpos => ?_, fun ha hzero => ?_⟩
    · exact (exec_bnMod_checked hw ha hb).trans (commit_require_true (bne_iff_ne.mpr hpos.ne'))
    · exact faultsWith_of_raise ((exec_bnMod_checked hw ha hb).trans (commit_require_false (by rw [hzero]; rfl)))

/-! ## Powers and inverses (R174 to R176) -/

/-- Settles O32. -/
theorem bnPowIsModularExponentiation : Obligations.BnPowIsModularExponentiation := by
  intro d a b c w va vb vc s ha hb hc
  have hexec := exec_bnPow_checked (d := d) ha hb hc
  refine ⟨fun hodd => ?_, fun hzero => ?_, fun hne heven => ?_⟩
  · rw [hexec, ← powMod_eq]
    exact (commit_require_true (bne_iff_ne.mpr (by omega))).trans (commit_require_true (by rw [hodd]; rfl))
  · exact faultsWith_of_raise (hexec.trans (commit_require_false (by rw [hzero]; rfl)))
  · exact faultsWith_of_raise (hexec.trans
      ((commit_require_true (bne_iff_ne.mpr hne)).trans (commit_require_false (by rw [heven]; rfl))))

/-- Settles O33. -/
theorem bnInvAndInv2mLeaveTheInverse : Obligations.BnInvAndInv2mLeaveTheInverse := by
  refine ⟨fun d a b w va vb s ha hb => ?_, fun d a w va s ha => ?_⟩
  · have hexec := exec_bnInv_checked (d := d) ha hb
    refine ⟨fun hne hg => ?_, fun hzero => ?_, fun hne hg => ?_⟩
    · obtain ⟨hlt, hinv⟩ := modInv_spec va vb (Nat.pos_of_ne_zero hne) hg
      exact ⟨_, hlt, hinv, exec_bnInv ha hb hne hg⟩
    · exact faultsWith_of_raise (hexec.trans (commit_require_false (by rw [hzero]; rfl)))
    · exact faultsWith_of_raise (hexec.trans
        ((commit_require_true (bne_iff_ne.mpr hne)).trans (commit_require_false (beq_false_of_ne hg))))
  · have hexec := exec_bnInv2m_checked (d := d) ha
    refine ⟨fun hodd => ?_, fun heven => ?_⟩
    · obtain ⟨hlt, hinv⟩ := modInv_spec va (2 ^ w.bits) (Width.pow_bits_pos w) (gcd_two_pow hodd)
      refine ⟨_, hlt, hinv.trans (Nat.mod_eq_of_lt (Width.one_lt_pow_bits w)), ?_⟩
      exact hexec.trans (commit_require_true (by rw [hodd]; rfl))
    · exact faultsWith_of_raise (hexec.trans (commit_require_false (by rw [heven]; rfl)))

/-! ## Draws (R177, R178) -/

/-- A source whose draw 0 reports no failure, with the given answers to draw 1. -/
def answeringSource (rand : List (Nat × Nat)) (prime : List ((Nat × Width × Nat) × Bool)) : RngPort where
  failAnswers := [(0, false)]
  randAnswers := rand
  primeAnswers := prime
  drawn := 0
  calls := []

section
variable {s : State} {d a : BReg} {w : Width} {va : Nat} {code : FaultCode}

theorem bnRandChecks_eq (ha : reg s a = .normal w va) :
    bnRandChecks s a w = require s.rngs .rngUnseeded >>= fun _ => require (va != 0) .boundZero := by
  rw [← regNat_normal s a w va ha, bnRandChecks, check_normal_one s a w va ha, except_ok_bind]

theorem bnPrimeChecks_eq (ha : reg s a = .normal w va) : bnPrimeChecks s a w = require s.rngs .rngUnseeded := by
  rw [bnPrimeChecks, check_normal_one s a w va ha, except_ok_bind]

theorem exec_bnRand_unchecked (h : bnRandChecks s a w = .error code) : exec (.bnRand d a w) s = .next (raise code s) := by
  unfold bnRandChecks at h
  simp only [exec, execBnRand, h, commitDrawn_error]

/-- BN.RAND past its checks: the draws are left. -/
theorem exec_bnRand_checked (h : bnRandChecks s a w = .ok ()) (ha : reg s a = .normal w va) :
    exec (.bnRand d a w) s = commitDrawn s (
      if s.rng.failAt s.rng.drawn then (.error .rngFail, s.rng.afterDraws 1)
      else (.ok (setReg s d (.normal w (s.rng.randAt (s.rng.drawn + 1) w va))), s.rng.afterDraws 2)) := by
  unfold bnRandChecks at h
  simp only [exec, execBnRand, h]
  rw [regNat_normal s a w va ha]
  rfl

theorem exec_bnPrime_unchecked (h : bnPrimeChecks s a w = .error code) : exec (.bnPrime a w) s = .next (raise code s) := by
  unfold bnPrimeChecks at h
  simp only [exec, execBnPrime, h, commitDrawn_error]

theorem exec_bnPrime_checked (h : bnPrimeChecks s a w = .ok ()) (ha : reg s a = .normal w va) :
    exec (.bnPrime a w) s = commitDrawn s (
      if s.rng.failAt s.rng.drawn then (.error .rngFail, s.rng.afterDraws 1)
      else (.ok (setPrime s (s.rng.primeAt (s.rng.drawn + 1) w va)), s.rng.afterDraws 2)) := by
  unfold bnPrimeChecks at h
  simp only [exec, execBnPrime, h]
  rw [regNat_normal s a w va ha]
  rfl

theorem faultsAfterDraws_of_raise {i : Instr} {n : Nat} (h : exec i s = .next (raise code { s with rng := s.rng.afterDraws n })) :
    FaultsAfterDraws i s n code := by
  intro cw hcmd
  rw [h, raise_eq_afterFault (s := { s with rng := s.rng.afterDraws n }) hcmd]

/-- BN.RAND's part of R177 and R273. -/
theorem bnRand_followsOracle (ha : reg s a = .normal w va) :
    (s.rngs = true → va ≠ 0 → s.rng.failAt s.rng.drawn = false → exec (.bnRand d a w) s = .next (complete { s with
        regs := s.regs.set d (.normal w (s.rng.randAt (s.rng.drawn + 1) w va)), rng := s.rng.afterDraws 2 })) ∧
      (s.rngs = false → FaultsWith (.bnRand d a w) s .rngUnseeded) ∧
      (s.rngs = true → va = 0 → FaultsWith (.bnRand d a w) s .boundZero) ∧
      (s.rngs = true → va ≠ 0 → s.rng.failAt s.rng.drawn = true → FaultsAfterDraws (.bnRand d a w) s 1 .rngFail) := by
  have hchecks := bnRandChecks_eq ha
  have hpass : s.rngs = true → va ≠ 0 → bnRandChecks s a w = .ok () := fun hr hne => by
    rw [hchecks, hr, bne_iff_ne.mpr hne]
    rfl
  refine ⟨fun hr hne hf => ?_, fun hr => ?_, fun hr hzero => ?_, fun hr hne hf => ?_⟩
  · rw [exec_bnRand_checked (hpass hr hne) ha, hf]
    rfl
  · exact faultsWith_of_raise (exec_bnRand_unchecked (by rw [hchecks, hr]; rfl))
  · exact faultsWith_of_raise (exec_bnRand_unchecked (by rw [hchecks, hr, hzero]; rfl))
  · refine faultsAfterDraws_of_raise ?_
    rw [exec_bnRand_checked (hpass hr hne) ha, hf]
    rfl

/-- BN.PRIME's part of R178 and R273. -/
theorem bnPrime_followsOracle (ha : reg s a = .normal w va) :
    (s.rngs = true → s.rng.failAt s.rng.drawn = false → exec (.bnPrime a w) s = .next (complete { s with
        status := { s.status with prime := s.rng.primeAt (s.rng.drawn + 1) w va }, rng := s.rng.afterDraws 2 })) ∧
      (s.rngs = false → FaultsWith (.bnPrime a w) s .rngUnseeded) ∧
      (s.rngs = true → s.rng.failAt s.rng.drawn = true → FaultsAfterDraws (.bnPrime a w) s 1 .rngFail) := by
  have hchecks := bnPrimeChecks_eq ha
  have hpass : s.rngs = true → bnPrimeChecks s a w = .ok () := fun hr => by
    rw [hchecks, hr]
    rfl
  refine ⟨fun hr hf => ?_, fun hr => ?_, fun hr hf => ?_⟩
  · rw [exec_bnPrime_checked (hpass hr) ha, hf]
    rfl
  · exact faultsWith_of_raise (exec_bnPrime_unchecked (by rw [hchecks, hr]; rfl))
  · refine faultsAfterDraws_of_raise ?_
    rw [exec_bnPrime_checked (hpass hr) ha, hf]
    rfl

end

/-- Settles O34. -/
theorem bnRandAndPrimeFollowTheOracle : Obligations.BnRandAndPrimeFollowTheOracle := by
  refine ⟨fun d a w va s ha => ?_, fun a w va s ha => ?_⟩
  · obtain ⟨hdraw, hrest⟩ := bnRand_followsOracle (d := d) ha
    exact ⟨fun hr hne hf => ⟨randAt_lt _ _ _ _ (Nat.pos_of_ne_zero hne), hdraw hr hne hf⟩,
      fun y hy => ⟨answeringSource [(1, y)] [], rfl, Nat.mod_eq_of_lt hy⟩, hrest⟩
  · obtain ⟨hdraw, hrest⟩ := bnPrime_followsOracle ha
    exact ⟨hdraw, fun verdict => ⟨answeringSource [] [((1, w, va), verdict)], rfl, by
      simp [answeringSource, RngPort.primeAt]⟩, hrest⟩

/-! ## Loads (R179, R89) -/

/-- The value of a string, byte by byte (R22). -/
theorem bigEndian_map_range (f : Nat → Byte) (n : Nat) :
    bigEndian ((List.range n).map f) = ∑ k ∈ Finset.range n, (f k).toNat * 256 ^ (n - 1 - k) := by
  induction n with
  | zero => rfl
  | succ n ih =>
    have hlast : bigEndian [f n] = (f n).toNat := by rw [bigEndian_cons, bigEndian_nil, List.length_nil]; ring
    rw [List.range_succ, List.map_append, List.map_singleton, bigEndian_append, ih, hlast, Finset.sum_range_succ,
      Finset.sum_mul]
    congr 1
    · refine Finset.sum_congr rfl fun k hk => ?_
      have hkn := Finset.mem_range.mp hk
      rw [mul_assoc, List.length_singleton, ← pow_add, show n - 1 - k + 1 = n + 1 - 1 - k by omega]
    · simp

/-- Settles O35. -/
theorem bnLoadReadsBigEndian : Obligations.BnLoadReadsBigEndian := by
  intro d a w s h
  rw [exec_bnLoad h, octStr, bigEndian_map_range]
  rfl

/-! ## The field laws (R183) -/

/-- STORE then LOAD: a completed store has written the whole string, which reads back. -/
theorem store_then_load {d a : BReg} {o : OReg} {w : Width} {v : Nat} {s t : State} (ha : reg s a = .normal w v)
    (hv : v < 2 ^ w.bits) (hfits : s.cappol = .fault ∨ w.bytes ≤ octCap s o) (ht : exec (.bnStore o a w) s = .next t)
    (hdone : t.status.done = true) : ∃ u, exec (.bnLoad d o w) t = .next u ∧ reg u d = .normal w v := by
  rw [exec_bnStore ha] at ht
  by_cases hcap : w.bytes ≤ octCap s o
  · rw [commit_octStore_fits (by rwa [toBigEndian_length, Nat.zero_add])] at ht
    obtain rfl : complete (putOctet s o 0 (toBigEndian w.bytes v) (0 + (toBigEndian w.bytes v).length)) = t := by
      cases ht
      rfl
    set t := complete (putOctet s o 0 (toBigEndian w.bytes v) (0 + (toBigEndian w.bytes v).length))
    have hstr : octStr t o = toBigEndian w.bytes v := octStr_complete_putOctet (Nat.zero_add _).symm
    have hlen : t.octLen[o] ≤ w.bytes := by rw [← octStr_length, hstr, toBigEndian_length]
    refine ⟨_, exec_bnLoad hlen, ?_⟩
    rw [hstr, bigEndian_of_width hv]
    exact reg_setReg_self t d _
  · rw [commit_octStore_faults (by rw [toBigEndian_length]; omega) (hfits.resolve_right hcap)] at ht
    cases ht
    cases hdone

/-- SHLW then SHRW drops the top word (R183). -/
theorem shift_up_down (v k n : Nat) (h : k ≤ n) : v * 2 ^ k % 2 ^ n / 2 ^ k = v % 2 ^ (n - k) := by
  have hpow : (2 : Nat) ^ n = 2 ^ (n - k) * 2 ^ k := by rw [← pow_add, Nat.sub_add_cancel h]
  rw [hpow, Nat.mul_mod_mul_right, Nat.mul_div_cancel _ (Nat.pow_pos (by decide))]

theorem bniWordBits_le (s : State) (w : Width) : s.params.bniWordBits.val ≤ w.bits :=
  (Nat.le_of_dvd (by decide) s.params.bniWordBits.property.2).trans (by cases w <;> decide)

/-- Settles O36: each law runs its two commands by the equations above. -/
theorem fieldCommandLaws : Obligations.FieldCommandLaws := by
  refine ⟨fun d a o w v s ha hv hfits t ht hdone => store_then_load ha hv hfits ht hdone,
    fun d e a b w va vb s ha hb => ?_, fun d e a b m w w2 va vb vm s hbits ha hb hm hne hmd => ?_,
    fun d a b w va vb s ha hb h2 hg => ?_, fun d e a w va s ha => ?_⟩
  · set t := complete (setReg s d (.denormal w ((va : Int) + vb)))
    set t' := complete (setReg s d (.denormal w ((va : Int) - vb)))
    have hd : reg t d = .denormal w ((va : Int) + vb) := reg_setReg_self s d _
    have hd' : reg t' d = .denormal w ((va : Int) - vb) := reg_setReg_self s d _
    refine ⟨t, _, t', _, _, _, exec_bnAdd ha hb, exec_bnNorm (by rw [hd]; rfl), reg_setReg_self t e _, ?_,
      exec_bnSub ha hb, exec_bnNorm (by rw [hd']; rfl), reg_setReg_self t' e _, ?_⟩
    · rw [regVal_denormal t d w _ hd, ← Nat.cast_add, ← Int.natCast_emod, Int.toNat_natCast]
    · rw [regVal_denormal t' d w _ hd', natCast_toNat_emod]
  · obtain ⟨hw, rfl⟩ := doubleWidth_of_bits hbits
    set t := complete (setReg s d (.normal (doubleWidth w) (va * vb)))
    have hd : reg t d = .normal (doubleWidth w) (va * vb) := reg_setReg_self s d _
    have hm' : reg t m = .normal w vm := (reg_setReg_ne s d m _ hmd.symm).trans hm
    refine ⟨t, _, exec_bnMul hw ha hb, (exec_bnMod_checked hw hd hm').trans
      (commit_require_true (bne_iff_ne.mpr hne)), reg_setReg_self t e _⟩
  · obtain ⟨-, hinv⟩ := modInv_spec va vb (by omega) hg
    exact ⟨_, _, exec_bnInv ha hb (by omega) hg, reg_setReg_self s d _, hinv.trans (Nat.mod_eq_of_lt h2)⟩
  · set t := complete (setReg s d (.normal w (va * 2 ^ s.params.bniWordBits.val % 2 ^ w.bits)))
    have hd : reg t d = .normal w (va * 2 ^ s.params.bniWordBits.val % 2 ^ w.bits) := reg_setReg_self s d _
    refine ⟨t, _, exec_bnShlw ha, exec_bnShrw hd, ?_⟩
    rw [← shift_up_down va _ _ (bniWordBits_le s w)]
    exact reg_setReg_self t e _

end Sys2Proof.Machine
end

section
/-! PROOFS. The marshaler (R210 to R215), the divider (R220 to R222), and the keys (R230 to R241). -/

set_option exponentiation.threshold 8200

namespace Sys2Proof.Machine

/-! ## The marshaler's own check (R210, R212) -/

section
variable {s : State} {d a : BReg} {w t : Width} {v : Nat} {direction : Width → Bool}

theorem checkMarshal_unwritten (h : reg s a = .unwritten) : checkMarshal s a direction = .error .regUnwritten := by
  simp only [checkMarshal, h, WideReg.tag]

theorem checkMarshal_direction (ht : (reg s a).tag = some t) (hd : direction t = false) :
    checkMarshal s a direction = .error .widthMismatch := by
  simp only [checkMarshal, ht, hd, Bool.false_eq_true, if_false]

theorem checkMarshal_denorm (ht : (reg s a).tag = some t) (hd : direction t = true) (hn : (reg s a).norm = false) :
    checkMarshal s a direction = .error .denorm := by
  simp only [checkMarshal, ht, hd, hn, Bool.false_eq_true, if_true, if_false]

theorem checkMarshal_normal (h : reg s a = .normal t v) (hd : direction t = true) : checkMarshal s a direction = .ok t := by
  simp only [checkMarshal, h, WideReg.tag, WideReg.norm, hd, if_true]

theorem exec_wpPromote_checked (hw : w ≠ .w2048) :
    exec (.wpPromote d a w) s = commit s (do
      let w1 ← checkMarshal s a (fun t => t.bits < w.bits)
      pure (setReg s d (.normal w (promote (regNat s a) w1 w)))) :=
  commit_require_true (bne_iff_ne.mpr hw)

theorem exec_wpTrunc_checked (hw : w ≠ .w8192) :
    exec (.wpTrunc d a w) s = commit s (do
      let w2 ← checkMarshal s a (fun t => w.bits < t.bits)
      pure (setReg s d (.normal w (trunc (regNat s a) w2 w)))) :=
  commit_require_true (bne_iff_ne.mpr hw)

theorem faultsWith_wpPromote {code : FaultCode} (hw : w ≠ .w2048)
    (h : checkMarshal s a (fun t => t.bits < w.bits) = .error code) : FaultsWith (.wpPromote d a w) s code :=
  faultsWith_of_raise (by rw [exec_wpPromote_checked hw, h, except_error_bind, commit_error])

theorem faultsWith_wpTrunc {code : FaultCode} (hw : w ≠ .w8192)
    (h : checkMarshal s a (fun t => w.bits < t.bits) = .error code) : FaultsWith (.wpTrunc d a w) s code :=
  faultsWith_of_raise (by rw [exec_wpTrunc_checked hw, h, except_error_bind, commit_error])

theorem exec_wpPromote (h : reg s a = .normal t v) (hlt : t.bits < w.bits) (hv : v < 2 ^ t.bits) :
    exec (.wpPromote d a w) s = .next (complete (setReg s d (.normal w v))) := by
  have hw : w ≠ .w2048 := by
    rintro rfl
    revert hlt
    cases t <;> decide
  rw [exec_wpPromote_checked hw, checkMarshal_normal h (decide_eq_true hlt), except_ok_bind, regNat_normal s a t v h,
    promote_eq v t w hv]
  rfl

theorem exec_wpTrunc (h : reg s a = .normal t v) (hlt : w.bits < t.bits) :
    exec (.wpTrunc d a w) s = .next (complete (setReg s d (.normal w (v % 2 ^ w.bits)))) := by
  have hw : w ≠ .w8192 := by
    rintro rfl
    revert hlt
    cases t <;> decide
  have hbytes : w.bytes ≤ t.bytes := by
    rw [Width.bits_eq, Width.bits_eq] at hlt
    omega
  rw [exec_wpTrunc_checked hw, checkMarshal_normal h (decide_eq_true hlt), except_ok_bind, regNat_normal s a t v h,
    trunc_eq v t w hbytes]
  rfl

end

/-- Settles O37. -/
theorem promoteKeepsAndTruncReducesTheValue : Obligations.PromoteKeepsAndTruncReducesTheValue :=
  fun _ _ _ _ _ _ hlt => ⟨fun ha hv => exec_wpPromote ha hlt hv, fun ha _ => exec_wpTrunc ha hlt⟩

/-- Settles O38: the truncated register holds the original record, so its store writes the same string. -/
theorem promoteThenTruncIsIdentity : Obligations.PromoteThenTruncIsIdentity := by
  intro d e a o w1 w2 v s ha hv hlt hcap
  set t := complete (setReg s d (.normal w2 v))
  have htrunc : exec (.wpTrunc e d w1) t = .next (complete (setReg t e (.normal w1 (v % 2 ^ w1.bits)))) :=
    exec_wpTrunc (reg_setReg_self s d _) hlt
  rw [Nat.mod_eq_of_lt hv] at htrunc
  set u := complete (setReg t e (.normal w1 v))
  have hu : reg u e = .normal w1 v := reg_setReg_self t e _
  have hstore : ∀ {r : State} {c : BReg}, reg r c = .normal w1 v → w1.bytes ≤ octCap r o →
      ∃ x, exec (.bnStore o c w1) r = .next x ∧ octStr x o = toBigEndian w1.bytes v := fun hr hc =>
    ⟨_, (exec_bnStore hr).trans (commit_octStore_fits (by rwa [toBigEndian_length, Nat.zero_add])),
      octStr_complete_putOctet (Nat.zero_add _).symm⟩
  obtain ⟨x, hx, hxo⟩ := hstore ha hcap
  obtain ⟨y, hy, hyo⟩ := hstore hu hcap
  exact ⟨t, u, x, y, exec_wpPromote ha hlt hv, htrunc, hu, hx, hy, hyo.trans hxo.symm⟩

/-- Settles O39. -/
theorem marshalerChecksItsSource : Obligations.MarshalerChecksItsSource := by
  refine ⟨fun d a s => ⟨faultsWith_of_raise rfl, faultsWith_of_raise rfl⟩, fun d a w s => ⟨fun hw => ?_, fun hw => ?_⟩⟩
  · exact ⟨fun h => faultsWith_wpPromote hw (checkMarshal_unwritten h),
      fun t ht hle => faultsWith_wpPromote hw (checkMarshal_direction ht (decide_eq_false (Nat.not_lt.mpr hle))),
      fun t ht hlt hn => faultsWith_wpPromote hw (checkMarshal_denorm ht (decide_eq_true hlt) hn)⟩
  · exact ⟨fun h => faultsWith_wpTrunc hw (checkMarshal_unwritten h),
      fun t ht hle => faultsWith_wpTrunc hw (checkMarshal_direction ht (decide_eq_false (Nat.not_lt.mpr hle))),
      fun t ht hlt hn => faultsWith_wpTrunc hw (checkMarshal_denorm ht (decide_eq_true hlt) hn)⟩

/-! ## The divider (R220, R222) -/

/-- LD.DIV's writes: the quotient to d and, where asked, the remainder (R220). -/
def ldDivWrites (s : State) (d : BReg) (rem : Option BReg) (w : Width) (qr : Nat × Nat) : State :=
  match rem with
  | none => setReg s d (.normal w qr.1)
  | some c => setReg (setReg s d (.normal w qr.1)) c (.normal w qr.2)

/-- LD.DIV past its conflict test and its operand check: the test of the divisor is left. -/
theorem exec_ldDiv_checked {s : State} {d a b : BReg} {rem : Option BReg} {w : Width} {va vb : Nat} (hrem : rem ≠ some d)
    (ha : reg s a = .normal w va) (hb : reg s b = .normal w vb) :
    exec (.ldDiv d a b rem w) s = commit s (do
      require (vb != 0) .divZero
      pure (ldDivWrites s d rem w (divCore va vb))) := by
  rw [← regNat_normal s a w va ha, ← regNat_normal s b w vb hb]
  refine (commit_require_true (bne_iff_ne.mpr hrem)).trans
    ((commit_check_ok (check_normal_two s a b w w va vb ha hb)).trans ?_)
  cases rem <;> rfl

/-- Settles O40: the shift-and-subtract core answers the floor quotient and the remainder. -/
theorem ldDivLeavesQuotientAndRemainder : Obligations.LdDivLeavesQuotientAndRemainder := by
  refine ⟨fun d a b w s => faultsWith_of_raise (commit_require_false (bne_self_eq_false (some d))),
    fun d a b w va vb s ha hb => ⟨fun hne => ?_, fun hzero rem hrem => ?_⟩⟩
  · have hexec : ∀ rem, rem ≠ some d →
        exec (.ldDiv d a b rem w) s = .next (complete (ldDivWrites s d rem w (va / vb, va % vb))) := fun rem hrem => by
      rw [exec_ldDiv_checked hrem ha hb, divCore_eq va vb (Nat.pos_of_ne_zero hne)]
      exact commit_require_true (bne_iff_ne.mpr hne)
    exact ⟨hexec none nofun, fun c hc => hexec (some c) fun h => hc (Option.some.inj h)⟩
  · exact faultsWith_of_raise ((exec_ldDiv_checked hrem ha hb).trans (commit_require_false (by rw [hzero]; rfl)))

/-! ## Keys of two primes (R230 to R234) -/

section
variable {p q : Nat} {scheme : Scheme}

/-- What is missing for keys of a scheme: an inverse (R230). -/
theorem keysFromPrimes_error
    (h : Nat.gcd ((p - 1) * (q - 1)) (p * q) ≠ 1 ∨ (scheme = .crt ∧ Nat.gcd p q ≠ 1)) :
    keysFromPrimes scheme p q = .error .keyInvalid := by
  by_cases hg : Nat.gcd ((p - 1) * (q - 1)) (p * q) = 1
  · obtain ⟨rfl, hpq⟩ := h.resolve_left fun h => h hg
    simp only [keysFromPrimes, beq_iff_eq.mpr hg, beq_false_of_ne hpq, require_true, require_false, except_ok_bind,
      except_error_bind]
  · simp only [keysFromPrimes, beq_false_of_ne hg, require_false, except_error_bind]

/-- The SK of a scheme's keys. -/
def skOf (scheme : Scheme) (p q : Nat) : PrivKey :=
  match scheme with
  | .plain => plainSk (p * q) ((p - 1) * (q - 1)) (modInv ((p - 1) * (q - 1)) (p * q))
  | .crt => crtSk p q

theorem keysFromPrimes_eq_ok (hg : Nat.gcd ((p - 1) * (q - 1)) (p * q) = 1) (hpq : scheme = .crt → Nat.gcd p q = 1) :
    keysFromPrimes scheme p q = .ok (plainPk (p * q), skOf scheme p q) := by
  cases scheme with
  | plain => simp only [keysFromPrimes, beq_iff_eq.mpr hg, require_true, except_ok_bind, except_pure, skOf]
  | crt =>
    simp only [keysFromPrimes, beq_iff_eq.mpr hg, beq_iff_eq.mpr (hpq rfl), require_true, except_ok_bind, except_pure, skOf]

theorem skOf_crt_for (hp : PrimeSized p) (hq : PrimeSized q) (hpq : Nat.gcd p q = 1) : CrtKeyFor p q (skOf .crt p q) :=
  crtSk_for p q hp.one_lt hq.one_lt hp.2.2 hq.2.2 hpq

theorem skOf_plain_eq (hp : PrimeSized p) (hq : PrimeSized q) (hg : Nat.gcd ((p - 1) * (q - 1)) (p * q) = 1) :
    ∃ mu, mu < p * q ∧ (p - 1) * (q - 1) * mu % (p * q) = 1 ∧
      skOf .plain p q = PlainKey (p * q) ((p - 1) * (q - 1)) mu := by
  obtain ⟨hlt, hinv⟩ := mu_spec (one_lt_mul_of_primeSized hp hq) hg
  exact ⟨_, hlt, hinv, rfl⟩

/-- The state PL.KEYGEN makes of its primes. -/
theorem keygenFrom_eq_ok (s : State) (hg : Nat.gcd ((p - 1) * (q - 1)) (p * q) = 1)
    (hpq : scheme = .crt → Nat.gcd p q = 1) :
    keygenFrom scheme p q s = .ok (setKeys s (plainPk (p * q), skOf scheme p q)) := by
  rw [keygenFrom, keysFromPrimes_eq_ok hg hpq, except_ok_bind]
  rfl

/-- All that the end of key generation can make of the state. -/
theorem keygenFrom_ok {s u : State} (h : keygenFrom scheme p q s = .ok u) :
    ∃ keys, keysFromPrimes scheme p q = .ok keys ∧ u = setKeys s keys := by
  obtain ⟨keys, hk, hset⟩ := (except_bind_eq_ok _ _ _).mp h
  cases hset
  exact ⟨keys, hk, rfl⟩

theorem keygenFrom_error (s : State)
    (h : Nat.gcd ((p - 1) * (q - 1)) (p * q) ≠ 1 ∨ (scheme = .crt ∧ Nat.gcd p q ≠ 1)) :
    keygenFrom scheme p q s = .error .keyInvalid := by
  rw [keygenFrom, keysFromPrimes_error h, except_error_bind]

theorem require_bind_require (b c : Bool) (code : FaultCode) :
    (require b code >>= fun _ => require c code) = require (b && c) code := by
  cases b <;> rfl

/-- SuppliedCheck is one test, of R232's conditions. -/
theorem suppliedCheck_eq (p q : Nat) :
    ∃ b : Bool, suppliedCheck p q = require b .keyInvalid ∧ (b = true ↔ PrimeSized p ∧ PrimeSized q ∧ p ≠ q) := by
  refine ⟨_, (congrArg (require _ _ >>= ·) (funext fun _ => require_bind_require _ _ _)).trans
    (require_bind_require _ _ _), ?_⟩
  simp only [Bool.and_eq_true, beq_iff_eq, bne_iff_ne, Nat.mod_two_ne_zero, primeSized_iff]
  tauto

theorem suppliedCheck_eq_ok (h : PrimeSized p ∧ PrimeSized q ∧ p ≠ q) : suppliedCheck p q = .ok () := by
  obtain ⟨b, hb, hiff⟩ := suppliedCheck_eq p q
  rw [hb, hiff.mpr h, require_true]

theorem suppliedCheck_error (h : ¬ (PrimeSized p ∧ PrimeSized q ∧ p ≠ q)) : suppliedCheck p q = .error .keyInvalid := by
  obtain ⟨b, hb, hiff⟩ := suppliedCheck_eq p q
  rw [hb, Bool.eq_false_iff.mpr (mt hiff.mp h), require_false]

end

/-! ## PL.KEYGEN with supplied primes (R230, R232) -/

theorem exec_plKeygen_supplied {a b : BReg} {p q : Nat} {s : State} (scheme : Scheme) (ha : reg s a = .normal .w2048 p)
    (hb : reg s b = .normal .w2048 q) :
    exec (.plKeygen scheme (some (a, b))) s = commit s (do
      suppliedCheck p q
      keygenFrom scheme p q s) := by
  rw [← regNat_normal s a _ p ha, ← regNat_normal s b _ q hb]
  exact commit_check_ok (check_normal_two s a b _ _ p q ha hb)

/-- Settles O41. -/
theorem keygenFromSuppliedPrimes : Obligations.KeygenFromSuppliedPrimes := by
  intro a b p q s ha hb
  constructor
  · intro hp hq hne hg
    have hexec : ∀ scheme, (scheme = .crt → Nat.gcd p q = 1) → exec (.plKeygen scheme (some (a, b))) s =
        .next (complete (setKeys s (plainPk (p * q), skOf scheme p q))) := fun scheme hpq => by
      rw [exec_plKeygen_supplied scheme ha hb, suppliedCheck_eq_ok ⟨hp, hq, hne⟩, except_ok_bind,
        keygenFrom_eq_ok s hg hpq, commit_ok]
    constructor
    · obtain ⟨mu, hlt, hinv, hsk⟩ := skOf_plain_eq hp hq hg
      exact ⟨mu, hlt, hinv, hsk ▸ hexec .plain nofun⟩
    · intro hpq
      exact ⟨_, skOf_crt_for hp hq hpq, hexec .crt fun _ => hpq⟩
  · intro scheme hbad
    refine faultsWith_of_raise ?_
    rw [exec_plKeygen_supplied scheme ha hb]
    by_cases hsupplied : PrimeSized p ∧ PrimeSized q ∧ p ≠ q
    · have hinv : Nat.gcd ((p - 1) * (q - 1)) (p * q) ≠ 1 ∨ (scheme = .crt ∧ Nat.gcd p q ≠ 1) := by tauto
      rw [suppliedCheck_eq_ok hsupplied, except_ok_bind, keygenFrom_error s hinv, commit_error]
    · rw [suppliedCheck_error hsupplied, except_error_bind, commit_error]

/-! ## PL.KEYGEN with drawn primes (R230, R231) -/

section
variable {s : State} {scheme : Scheme} {limit p q n m : Nat} {r : RngPort} {code : FaultCode}

theorem exec_plKeygen_unseeded (hr : s.rngs = false) :
    exec (.plKeygen scheme none) s = .next (raise .rngUnseeded s) := by
  simp only [exec, execPlKeygen, hr, Bool.false_eq_true, if_false]
  rfl

theorem exec_plKeygen_drawn {x : Except FaultCode (Nat × Nat)} {r : RngPort} (hr : s.rngs = true)
    (h : drawPrimes s.params.primeSearchMax s.rng = (x, r)) :
    exec (.plKeygen scheme none) s = commitDrawn s (x >>= fun pq => keygenFrom scheme pq.1 pq.2 s, r) := by
  simp only [exec, execPlKeygen, hr, if_true, h]
  cases x <;> rfl

theorem drawPrimes_first_error (h : SearchEnds limit r (.error code) n) :
    drawPrimes limit r = (.error code, r.afterDraws n) := by
  simp only [drawPrimes, primeSearch_of_searchEnds h]

theorem drawPrimes_second_error (hp : SearchEnds limit r (.ok p) n) (hq : SearchEnds limit (r.afterDraws n) (.error code) m) :
    drawPrimes limit r = (.error code, r.afterDraws (n + m)) := by
  simp only [drawPrimes, primeSearch_of_searchEnds hp, primeSearch_of_searchEnds hq, afterDraws_afterDraws]

theorem drawPrimes_both (hp : SearchEnds limit r (.ok p) n) (hq : SearchEnds limit (r.afterDraws n) (.ok q) m) :
    drawPrimes limit r = (if p = q then .error .keyInvalid else .ok (p, q), r.afterDraws (n + m)) := by
  simp only [drawPrimes, primeSearch_of_searchEnds hp, primeSearch_of_searchEnds hq, afterDraws_afterDraws]
  split <;> rfl

/-- A key generation whose draws, or whose keys, answer a fault code. -/
theorem keygen_faultsAfterDraws {x : Except FaultCode (Nat × Nat)} (hr : s.rngs = true)
    (h : drawPrimes s.params.primeSearchMax s.rng = (x, s.rng.afterDraws n))
    (hx : (x >>= fun pq => keygenFrom scheme pq.1 pq.2 s) = .error code) :
    FaultsAfterDraws (.plKeygen scheme none) s n code :=
  faultsAfterDraws_of_raise (by rw [exec_plKeygen_drawn hr h, hx, commitDrawn_error])

end

/-- Settles O42: the ends of the two searches give every outcome of the draws, and R230 the keys. -/
theorem keygenFromDrawnPrimes : Obligations.KeygenFromDrawnPrimes := by
  intro scheme s
  refine ⟨fun hr => faultsWith_of_raise (exec_plKeygen_unseeded hr), fun hr => ⟨fun code n h => ?_, fun p n hp =>
    ⟨fun code m hq => ?_, fun q m hq => ⟨fun hbad => ?_, fun hne hg hpq => ?_⟩⟩⟩⟩
  · exact keygen_faultsAfterDraws hr (drawPrimes_first_error h) rfl
  · exact keygen_faultsAfterDraws hr (drawPrimes_second_error hp hq) rfl
  · refine keygen_faultsAfterDraws hr (drawPrimes_both hp hq) ?_
    split_ifs with heq
    · rfl
    · exact keygenFrom_error s (hbad.resolve_left heq)
  · have hpsize := (primeSized_of_primeSearch_ok (primeSearch_of_searchEnds hp)).1
    have hqsize := (primeSized_of_primeSearch_ok (primeSearch_of_searchEnds hq)).1
    refine ⟨skOf scheme p q, ?_, ?_, ?_⟩
    · rintro rfl
      exact skOf_crt_for hpsize hqsize (hpq rfl)
    · rintro rfl
      exact skOf_plain_eq hpsize hqsize hg
    · rw [exec_plKeygen_drawn hr (drawPrimes_both hp hq), if_neg hne, except_ok_bind, keygenFrom_eq_ok s hg hpq,
        commitDrawn_ok]
      rfl

/-! ## What a completed PL.KEYGEN leaves (R236) -/

section
variable {scheme : Scheme} {s t : State}

/-- A completed PL.KEYGEN has keys of two primes in range, supplied or accepted by the oracle. -/
theorem keygen_completed {primes : Option (BReg × BReg)} (h : exec (.plKeygen scheme primes) s = .next t)
    (hdone : t.status.done = true) :
    ∃ p q keys, keysFromPrimes scheme p q = .ok keys ∧ t.pk = keys.1 ∧ t.sk = keys.2 ∧
      PrimeSized p ∧ PrimeSized q ∧ p ≠ q ∧
      (∀ a b, primes = some (a, b) → reg s a = .normal .w2048 p ∧ reg s b = .normal .w2048 q) ∧
      (primes = none → (∃ n, s.rng.primeAt n .w2048 p = true) ∧ ∃ n, s.rng.primeAt n .w2048 q = true) := by
  cases primes with
  | some ab =>
    obtain ⟨u, hu, rfl⟩ | ⟨code, -, rfl⟩ := commit_cases s t _ h
    · obtain ⟨_, hcheck, hu⟩ := (except_bind_eq_ok _ _ _).mp hu
      obtain ⟨_, hsupplied, hu⟩ := (except_bind_eq_ok _ _ _).mp hu
      obtain ⟨hp, hq, hne⟩ := (answers_suppliedCheck _ _).of_ok hsupplied
      obtain ⟨keys, hk, rfl⟩ := keygenFrom_ok hu
      refine ⟨_, _, keys, hk, rfl, rfl, hp, hq, hne, ?_, nofun⟩
      rintro a b ⟨⟩
      exact ⟨reg_of_check hcheck (by simp), reg_of_check hcheck (by simp)⟩
    · cases hdone
  | none =>
    cases hr : s.rngs with
    | false =>
      rw [exec_plKeygen_unseeded hr] at h
      cases h
      cases hdone
    | true =>
      obtain ⟨x, r, hdraw⟩ : ∃ x r, drawPrimes s.params.primeSearchMax s.rng = (x, r) := ⟨_, _, rfl⟩
      rw [exec_plKeygen_drawn hr hdraw] at h
      obtain ⟨u, hu, rfl⟩ | ⟨code, -, rfl⟩ := commitDrawn_cases s t _ h
      · obtain ⟨pq, rfl, hkeys⟩ := (except_bind_eq_ok _ _ _).mp hu
        obtain ⟨keys, hk, rfl⟩ := keygenFrom_ok hkeys
        obtain ⟨⟨hp1, hp2, hp4⟩, ⟨hq1, hq2, hq4⟩, hne, hpo, hqo⟩ := drawPrimes_ok _ _ _ _ hdraw
        exact ⟨pq.1, pq.2, keys, hk, rfl, rfl, ⟨hp1, hp2, by omega⟩, ⟨hq1, hq2, by omega⟩, hne, nofun,
          fun _ => ⟨hpo, hqo⟩⟩
      · cases hdone

end

/-- Settles O44: the keys R230 writes satisfy R236's equations. -/
theorem generatedKeysAreConsistent : Obligations.GeneratedKeysAreConsistent := by
  intro scheme primes s t h hdone
  obtain ⟨p, q, keys, hkeys, hpk, hsk, hp, hq, hne, hsupplied, hdrawn⟩ := keygen_completed h hdone
  refine ⟨p, q, hp, hq, hne, hsupplied, hdrawn, ?_⟩
  obtain ⟨hg, ⟨rfl, rfl⟩ | ⟨rfl, hpq, rfl⟩⟩ := keysFromPrimes_ok scheme p q keys hkeys
  · rw [hpk, hsk]
    obtain ⟨-, hinv⟩ := mu_spec (one_lt_mul_of_primeSized hp hq) hg
    exact ⟨rfl, rfl, rfl, (pow_two (p * q)).symm, fun _ => ⟨rfl, rfl, hinv, rfl⟩, nofun⟩
  · rw [hpk, hsk]
    obtain ⟨-, -, -, -, -, -, -, -, -, -, -, -, ⟨-, hmp⟩, ⟨-, hmq⟩, ⟨-, hinvp⟩, ⟨-, hinvq⟩, ⟨-, hinvpq⟩⟩ :=
      skOf_crt_for hp hq hpq
    exact ⟨rfl, rfl, rfl, (pow_two (p * q)).symm, nofun,
      fun _ => ⟨rfl, rfl, rfl, rfl, hmp, hmq, hinvp, hinvq, hinvpq⟩⟩

/-! ## Key management (R238, R239, R241) -/

theorem exec_plPkload_checked {s : State} {a : BReg} {n : Nat} (ha : reg s a = .normal .w2048 n) :
    exec (.plPkload a) s = commit s (do
      require (3 ≤ n && n % 2 != 0) .keyInvalid
      pure { s with pk := plainPk n }) := by
  rw [← regNat_normal s a _ n ha]
  exact commit_check_ok (check_normal_one s a _ n ha)

/-- Settles O45. -/
theorem keyManagementCommands : Obligations.KeyManagementCommands := by
  refine ⟨fun a n s ha => ⟨fun h3 hodd => ?_, fun hbad => faultsWith_of_raise ?_⟩,
    fun d s => ⟨fun hv => ?_, fun hv field => ?_⟩, fun s => rfl⟩
  · rw [exec_plPkload_checked ha]
    exact commit_require_true (by simp [h3, hodd])
  · rw [exec_plPkload_checked ha]
    refine commit_require_false ?_
    rw [Bool.and_eq_false_iff, decide_eq_false_iff_not, bne_eq_false_iff_eq]
    omega
  · exact ⟨commit_require_true hv, commit_require_true hv, commit_require_true hv⟩
  · exact faultsWith_of_raise (commit_require_false hv)

end Sys2Proof.Machine
end

section
/-! PROOFS. Encryption, decryption and the ciphertext commands (R242 to R249): what they run to, and their faults in order. -/

set_option exponentiation.threshold 8200

namespace Sys2Proof.Machine

/-! ## Encryption (R242) -/

/-- The ciphertext, in R242's formula. -/
theorem encryptValue_eq (n n2 m r : Nat) : encryptValue n n2 m r = (1 + m * n) * r ^ n % n2 := by
  rw [encryptValue, powMod_eq]
  have hm : (1 + m * n % n2) % n2 ≡ 1 + m * n [MOD n2] := (Nat.mod_modEq _ _).trans ((Nat.mod_modEq _ _).add_left 1)
  exact hm.mul (Nat.mod_modEq _ _)

section
variable {s : State} {d a b : BReg} {r emit : Option BReg} {m v : Nat} {code : FaultCode}

theorem check_encOperands (ha : reg s a = .normal .w2048 m) (hr : ∀ b, r = some b → ∃ v, reg s b = .normal .w2048 v) :
    check s (encOperands a r) = .ok () := by
  cases r with
  | none => exact check_normal_one s a _ m ha
  | some b =>
    obtain ⟨v, hb⟩ := hr b rfl
    exact check_normal_two s a b _ _ m v ha hb

theorem plEncChecks_eq (he : emit ≠ some d) (ha : reg s a = .normal .w2048 m)
    (hr : ∀ b, r = some b → ∃ v, reg s b = .normal .w2048 v) :
    plEncChecks s d a r emit = (do
      require s.pk.valid .noPubkey
      require (r.isSome || s.rngs) .rngUnseeded
      require (m < s.pk.n) .ptRange) := by
  rw [← regNat_normal s a _ m ha, plEncChecks, bne_iff_ne.mpr he, require_true, except_ok_bind,
    check_encOperands ha hr, except_ok_bind]

theorem exec_plEnc_unchecked (h : plEncChecks s d a r emit = .error code) :
    exec (.plEnc d a r emit) s = .next (raise code s) := by
  unfold plEncChecks at h
  simp only [exec, execPlEnc, h, commitDrawn_error]

theorem exec_plEnc_supplied (h : plEncChecks s d a (some b) emit = .ok ()) (ha : reg s a = .normal .w2048 m)
    (hb : reg s b = .normal .w2048 v) :
    exec (.plEnc d a (some b) emit) s =
      if v < s.pk.n then .next (complete (encWrites s d emit ((1 + m * s.pk.n) * v ^ s.pk.n % s.pk.n2) v))
      else .next (raise .rRange s) := by
  unfold plEncChecks at h
  simp only [exec, execPlEnc, h]
  rw [regNat_normal s a _ m ha, regNat_normal s b _ v hb, encryptValue_eq, apply_ite (commitDrawn s)]
  cases emit <;> rfl

theorem exec_plEnc_drawn (h : plEncChecks s d a none emit = .ok ()) (ha : reg s a = .normal .w2048 m) :
    exec (.plEnc d a none emit) s = commitDrawn s (
      if s.rng.failAt s.rng.drawn then (.error .rngFail, s.rng.afterDraws 1)
      else (.ok (encWrites s d emit ((1 + m * s.pk.n) * s.rng.randAt (s.rng.drawn + 1) .w2048 s.pk.n ^ s.pk.n % s.pk.n2)
        (s.rng.randAt (s.rng.drawn + 1) .w2048 s.pk.n)), s.rng.afterDraws 2)) := by
  unfold plEncChecks at h
  simp only [exec, execPlEnc, h]
  rw [regNat_normal s a _ m ha, encryptValue_eq]
  rfl

end

/-- Settles O46. -/
theorem encryptionIsThePaillierFormula : Obligations.EncryptionIsThePaillierFormula := by
  intro d a emit m s he ha hv hm
  refine ⟨fun b r hb hr => ?_, fun hseed hf => ?_⟩
  · have hpass : plEncChecks s d a (some b) emit = .ok () := by
      rw [plEncChecks_eq he ha (by rintro _ ⟨⟩; exact ⟨r, hb⟩), hv, decide_eq_true hm]
      rfl
    rw [exec_plEnc_supplied hpass ha hb, if_pos hr]
    cases emit <;> rfl
  · have hpass : plEncChecks s d a none emit = .ok () := by
      rw [plEncChecks_eq (r := none) he ha nofun, hv, hseed, decide_eq_true hm]
      rfl
    refine ⟨_, rfl, randAt_lt _ _ _ _ (Nat.zero_lt_of_lt hm), ?_⟩
    rw [exec_plEnc_drawn hpass ha, hf]
    cases emit <;> rfl

/-- Settles O47: each fault is the first test that fails. -/
theorem encryptionFaultsInOrder : Obligations.EncryptionFaultsInOrder := by
  refine ⟨fun d a r s => faultsWith_of_raise (exec_plEnc_unchecked ?_), fun d a r emit m s he ha hr => ?_⟩
  · rw [plEncChecks, bne_self_eq_false (some d), require_false, except_error_bind]
  have hchecks := plEncChecks_eq he ha hr
  refine ⟨fun hv => ?_, fun hv hnone hseed => ?_, fun hv hsome hm => ?_, fun hv hm => ⟨fun b v hb hreg hrange => ?_,
    fun hnone hseed hf => ?_⟩⟩
  · refine faultsWith_of_raise (exec_plEnc_unchecked ?_)
    rw [hchecks, hv, require_false, except_error_bind]
  · refine faultsWith_of_raise (exec_plEnc_unchecked ?_)
    rw [hchecks, hv, hnone, hseed]
    rfl
  · have hrandom : (r.isSome || s.rngs) = true := by
      rw [Bool.or_eq_true, Option.isSome_iff_ne_none]
      exact hsome
    refine faultsWith_of_raise (exec_plEnc_unchecked ?_)
    rw [hchecks, hv, hrandom, decide_eq_false (Nat.not_lt.mpr hm)]
    rfl
  · subst hb
    have hpass : plEncChecks s d a (some b) emit = .ok () := by
      rw [hchecks, hv, decide_eq_true hm]
      rfl
    refine faultsWith_of_raise ?_
    rw [exec_plEnc_supplied hpass ha hreg, if_neg (Nat.not_lt.mpr hrange)]
  · subst hnone
    have hpass : plEncChecks s d a none emit = .ok () := by
      rw [hchecks, hv, hseed, decide_eq_true hm]
      rfl
    refine faultsAfterDraws_of_raise ?_
    rw [exec_plEnc_drawn hpass ha, hf]
    rfl

/-! ## Decryption (R244 to R246) -/

section
variable {s : State} {d a : BReg} {c m : Nat} {code : FaultCode}

/-- PL.DEC past its checks: the variant's decryption is left. -/
theorem exec_plDec_checked (ha : reg s a = .normal .w4096 c) (hk : s.sk.kind ≠ .none) (hc : c < skModulusSquared s.sk) :
    exec (.plDec d a) s = commit s (do
      let m ← decryptValue s.sk c
      pure (setReg s d (.normal .w2048 (trunc m .w4096 .w2048)))) := by
  rw [← regNat_normal s a _ c ha] at hc ⊢
  exact (commit_check_ok (check_normal_one s a _ c ha)).trans
    ((commit_require_true (bne_iff_ne.mpr hk)).trans (commit_require_true (decide_eq_true hc)))

/-- A message below 2^2048 is left as it is (R213). -/
theorem exec_plDec_ok (ha : reg s a = .normal .w4096 c) (hk : s.sk.kind ≠ .none) (hc : c < skModulusSquared s.sk)
    (hm : decryptValue s.sk c = .ok m) (hlt : m < 2 ^ 2048) :
    exec (.plDec d a) s = .next (complete (setReg s d (.normal .w2048 m))) := by
  rw [exec_plDec_checked ha hk hc, hm, except_ok_bind, trunc_eq m .w4096 .w2048 (by decide),
    Nat.mod_eq_of_lt (show m < 2 ^ Width.w2048.bits from hlt)]
  rfl

theorem faultsWith_plDec (ha : reg s a = .normal .w4096 c) (hk : s.sk.kind ≠ .none) (hc : c < skModulusSquared s.sk)
    (hm : decryptValue s.sk c = .error code) : FaultsWith (.plDec d a) s code :=
  faultsWith_of_raise (by rw [exec_plDec_checked ha hk hc, hm, except_error_bind, commit_error])

theorem ne_none_of_plain {k : PrivKey} (h : k.kind = .plain) : k.kind ≠ .none := by rw [h]; decide

theorem ne_none_of_crt {k : PrivKey} (h : k.kind = .crt) : k.kind ≠ .none := by rw [h]; decide

theorem skModulusSquared_plain {k : PrivKey} (h : k.kind = .plain) : skModulusSquared k = k.n2 := by
  simp only [skModulusSquared, h]

theorem skModulusSquared_crt {k : PrivKey} (h : k.kind = .crt) : skModulusSquared k = k.p2 * k.q2 := by
  simp only [skModulusSquared, h]

/-- DecPlain in R245's formula. -/
theorem decryptValue_plain {k : PrivKey} (h : k.kind = .plain) (hn : 0 < k.n) (c : Nat) :
    decryptValue k c =
      if c ^ k.l % k.n2 = 0 then .error .ctInvalid else .ok ((c ^ k.l % k.n2 - 1) / k.n * k.m % k.n) := by
  simp only [decryptValue, h, decPlain, powMod_eq, divCore_eq _ _ hn]

/-- DecCrt's halves in R246's formula. -/
theorem decHalf_eq (p p2 lp invp mup c : Nat) :
    decHalf p p2 lp invp mup c =
      if (c % p2) ^ lp % p2 = 0 then .error .ctInvalid
      else .ok (((c % p2) ^ lp % p2 - 1) * invp % 2 ^ 2048 * mup % p) := by
  simp only [decHalf, powMod_eq, trunc_eq _ .w4096 .w2048 (by decide)]
  rfl

theorem decryptValue_crt {k : PrivKey} (h : k.kind = .crt) (c : Nat) : decryptValue k c = decCrt k c := by
  simp only [decryptValue, h]

/-- The Garner combination lies in [0, p·q). -/
theorem add_mul_lt_mul {p q x h : Nat} (hx : x < p) (hh : h < q) : x + p * h < p * q := by
  calc x + p * h < p + p * h := Nat.add_lt_add_right hx _
    _ = p * (h + 1) := by ring
    _ ≤ p * q := Nat.mul_le_mul_left p hh

theorem garner_eq {p q invpq x y h : Nat} (hh : (h : Int) = ((y : Int) - x) * invpq % q) :
    garner p q invpq x y = x + p * h := by
  rw [garner, ← hh, Int.toNat_natCast]

end

/-- Settles O48. -/
theorem plainDecryptionFormula : Obligations.PlainDecryptionFormula := by
  intro d a c s ha hk hc hn hle
  have hc' : c < skModulusSquared s.sk := by rwa [skModulusSquared_plain hk]
  have hdec := decryptValue_plain hk hn c
  constructor
  · intro hx
    rw [if_neg hx] at hdec
    exact exec_plDec_ok ha (ne_none_of_plain hk) hc' hdec ((Nat.mod_lt _ hn).trans_le hle)
  · intro hx
    rw [if_pos hx] at hdec
    exact faultsWith_plDec ha (ne_none_of_plain hk) hc' hdec

/-- Settles O49. -/
theorem crtDecryptionFormula : Obligations.CrtDecryptionFormula := by
  intro d a c xp xq mp mq h s ha hk hc hp hq hle hxp hxq hmp hmq hh
  have hc' : c < skModulusSquared s.sk := by rwa [skModulusSquared_crt hk]
  have hdec : decryptValue s.sk c = (do
      let mp ← decHalf s.sk.p s.sk.p2 s.sk.lp s.sk.invp s.sk.mp c
      let mq ← decHalf s.sk.q s.sk.q2 s.sk.lq s.sk.invq s.sk.mq c
      pure (garner s.sk.p s.sk.q s.sk.invpq mp mq)) := decryptValue_crt hk c
  rw [decHalf_eq, decHalf_eq, ← hxp, ← hxq, ← hmp, ← hmq] at hdec
  have hmlt : mp < s.sk.p := by rw [hmp]; exact Nat.mod_lt _ hp
  have hhlt : h < s.sk.q := by
    have hpos : (0 : Int) < s.sk.q := by exact_mod_cast hq
    have := Int.emod_lt_of_pos (((mq : Int) - mp) * s.sk.invpq) hpos
    omega
  have hlt := add_mul_lt_mul hmlt hhlt
  constructor
  · intro hnp hnq
    rw [if_neg hnp, if_neg hnq, except_ok_bind, except_ok_bind, garner_eq hh] at hdec
    exact ⟨exec_plDec_ok ha (ne_none_of_crt hk) hc' hdec (hlt.trans_le hle), hlt⟩
  · intro hzero
    refine faultsWith_plDec ha (ne_none_of_crt hk) hc' ?_
    rw [hdec]
    by_cases hp0 : xp = 0
    · rw [if_pos hp0, except_error_bind]
    · rw [if_neg hp0, if_pos (hzero.resolve_left hp0), except_ok_bind, except_error_bind]

/-! ## Homomorphic commands, and the range faults (R244, R248, R249) -/

section
variable {s : State} {d a b : BReg} {x y k c : Nat}

theorem exec_plAdd_checked (ha : reg s a = .normal .w4096 x) (hb : reg s b = .normal .w4096 y) :
    exec (.plAdd d a b) s = commit s (do
      require s.pk.valid .noPubkey
      require (x < s.pk.n2 && y < s.pk.n2) .ctRange
      pure (setReg s d (.normal .w4096 (x * y % s.pk.n2)))) := by
  rw [← regNat_normal s a _ x ha, ← regNat_normal s b _ y hb]
  exact commit_check_ok (check_normal_two s a b _ _ x y ha hb)

theorem exec_plMul_checked (ha : reg s a = .normal .w4096 x) (hb : reg s b = .normal .w2048 k) (hk : k < 2 ^ 2048) :
    exec (.plMul d a b) s = commit s (do
      require s.pk.valid .noPubkey
      require (x < s.pk.n2) .ctRange
      require (k < s.pk.n) .ptRange
      pure (setReg s d (.normal .w4096 (x ^ k % s.pk.n2)))) := by
  refine (commit_check_ok (check_normal_two s a b _ _ x k ha hb)).trans ?_
  simp only [regNat_normal s a _ x ha, regNat_normal s b _ k hb, promote_eq k .w2048 .w4096 hk, powMod_eq]

theorem exec_plAdd (ha : reg s a = .normal .w4096 x) (hb : reg s b = .normal .w4096 y) (hv : s.pk.valid = true)
    (hx : x < s.pk.n2) (hy : y < s.pk.n2) :
    exec (.plAdd d a b) s = .next (complete (setReg s d (.normal .w4096 (x * y % s.pk.n2)))) := by
  rw [exec_plAdd_checked ha hb, commit_require_true hv, commit_require_true (by simp [hx, hy])]
  rfl

theorem exec_plMul (ha : reg s a = .normal .w4096 x) (hb : reg s b = .normal .w2048 k) (hk : k < 2 ^ 2048)
    (hv : s.pk.valid = true) (hx : x < s.pk.n2) (hkn : k < s.pk.n) :
    exec (.plMul d a b) s = .next (complete (setReg s d (.normal .w4096 (x ^ k % s.pk.n2)))) := by
  rw [exec_plMul_checked ha hb hk, commit_require_true hv, commit_require_true (decide_eq_true hx),
    commit_require_true (decide_eq_true hkn)]
  rfl

/-- PL.DEC past its operand check: the tests of the key and of the range come first (R244). -/
theorem faultsWith_plDec_ctRange (ha : reg s a = .normal .w4096 c) (hk : s.sk.kind ≠ .none) (hc : skModulusSquared s.sk ≤ c) :
    FaultsWith (.plDec d a) s .ctRange := by
  rw [← regNat_normal s a _ c ha] at hc
  exact faultsWith_of_raise ((commit_check_ok (check_normal_one s a _ c ha)).trans
    ((commit_require_true (bne_iff_ne.mpr hk)).trans (commit_require_false (decide_eq_false (Nat.not_lt.mpr hc)))))

theorem faultsWith_plDec_noPrivkey (ha : reg s a = .normal .w4096 c) (hk : s.sk.kind = .none) :
    FaultsWith (.plDec d a) s .noPrivkey :=
  faultsWith_of_raise ((commit_check_ok (check_normal_one s a _ c ha)).trans (commit_require_false (by rw [hk]; rfl)))

end

/-- Settles O50. -/
theorem ciphertextCommandsComputeOrFault : Obligations.CiphertextCommandsComputeOrFault := by
  refine ⟨fun d a b x y s ha hb => ?_, fun d a b x k s ha hb hk => ?_, fun d a c s ha => ⟨fun hnone => ?_,
    fun hplain hc => ?_, fun hcrt hc => ?_⟩⟩
  · have hexec := exec_plAdd_checked (d := d) ha hb
    refine ⟨fun hv hx hy => exec_plAdd ha hb hv hx hy, fun hv => faultsWith_of_raise ?_,
      fun hv hrange => faultsWith_of_raise ?_⟩
    · rw [hexec, commit_require_false hv]
    · rw [hexec, commit_require_true hv, commit_require_false]
      rw [Bool.and_eq_false_iff, decide_eq_false_iff_not, decide_eq_false_iff_not, Nat.not_lt, Nat.not_lt]
      exact hrange
  · have hexec := exec_plMul_checked (d := d) ha hb hk
    refine ⟨fun hv hx hkn => exec_plMul ha hb hk hv hx hkn, fun hv => faultsWith_of_raise ?_,
      fun hv hx => faultsWith_of_raise ?_, fun hv hx hkn => faultsWith_of_raise ?_⟩
    · rw [hexec, commit_require_false hv]
    · rw [hexec, commit_require_true hv, commit_require_false (decide_eq_false (Nat.not_lt.mpr hx))]
    · rw [hexec, commit_require_true hv, commit_require_true (decide_eq_true hx),
        commit_require_false (decide_eq_false (Nat.not_lt.mpr hkn))]
  · exact faultsWith_plDec_noPrivkey ha hnone
  · exact faultsWith_plDec_ctRange ha (ne_none_of_plain hplain) (by rwa [skModulusSquared_plain hplain])
  · exact faultsWith_plDec_ctRange ha (ne_none_of_crt hcrt) (by rwa [skModulusSquared_crt hcrt])

end Sys2Proof.Machine
end

section
/-! PROOFS. The Paillier laws (R243, R247, R250). A decryption under either scheme and an encryption are tied to one relation,
`HalfMessage`: what a ciphertext says of its message modulo one prime. It determines the message modulo that prime. -/

set_option exponentiation.threshold 8200

namespace Sys2Proof.Machine

/-! ## Powers modulo a square -/

/-- The binomial expansion stops at its linear term where the square of the summand vanishes. -/
theorem one_add_pow_modEq {y M : Nat} (h : M ∣ y * y) (k : Nat) : (1 + y) ^ k ≡ 1 + k * y [MOD M] := by
  induction k with
  | zero => simp [Nat.ModEq.refl]
  | succ k ih =>
    have hsq : k * (y * y) ≡ 0 [MOD M] := (Nat.modEq_zero_iff_dvd.mpr h).mul_left k
    calc (1 + y) ^ (k + 1) = (1 + y) ^ k * (1 + y) := pow_succ _ _
      _ ≡ (1 + k * y) * (1 + y) [MOD M] := ih.mul_right _
      _ = 1 + (k + 1) * y + k * (y * y) := by ring
      _ ≡ 1 + (k + 1) * y + 0 [MOD M] := hsq.add_left _

/-- A number that is 1 modulo p has a p-th power that is 1 modulo p². -/
theorem pow_self_modEq_one {y p : Nat} (hy : 0 < y) (h : y ≡ 1 [MOD p]) : y ^ p ≡ 1 [MOD p * p] := by
  obtain ⟨t, ht⟩ := (Nat.modEq_iff_dvd' hy).mp h.symm
  have hyt : y = 1 + p * t := by omega
  have hsq : p * p ∣ p * t * (p * t) := ⟨t * t, by ring⟩
  rw [hyt]
  refine (one_add_pow_modEq hsq p).trans ?_
  have hz : p * (p * t) ≡ 0 [MOD p * p] := Nat.modEq_zero_iff_dvd.mpr ⟨t, by ring⟩
  exact hz.add_left 1

section
variable {p q : Nat}

/-- Fermat. -/
theorem pow_pred_modEq_one {c : Nat} (hp : Nat.Prime p) (hc : Nat.Coprime c p) : c ^ (p - 1) ≡ 1 [MOD p] := by
  have h := Nat.ModEq.pow_totient hc
  rwa [Nat.totient_prime hp] at h

/-- A number that is 1 modulo n is, modulo n², 1 plus a multiple of n below n². -/
theorem exists_eq_one_add_mul {x n : Nat} (hn : 1 < n) (h : x ≡ 1 [MOD n]) : ∃ a < n, x % (n * n) = 1 + a * n := by
  have h1 : x % (n * n) % n = 1 := by
    rw [Nat.mod_mul_left_mod, h, Nat.mod_eq_of_lt hn]
  have hlt : x % (n * n) < n * n := Nat.mod_lt _ (Nat.mul_pos (by omega) (by omega))
  refine ⟨x % (n * n) / n, Nat.div_lt_of_lt_mul hlt, ?_⟩
  have hdiv := Nat.mod_add_div (x % (n * n)) n
  rw [h1] at hdiv
  rw [Nat.mul_comm (_ / n), hdiv]

/-! ## What a ciphertext says of its message modulo one prime -/

/-- `v` is, modulo p, the message of ciphertext `c` under the modulus p·q: the exponent `a` of `c^(p-1)` to the base 1 + p,
modulo p², is -q·v. -/
def HalfMessage (p q c v : Nat) : Prop := ∃ a, c ^ (p - 1) ≡ 1 + a * p [MOD p * p] ∧ p ∣ q * v + a

/-- The message is determined modulo p. -/
theorem HalfMessage.unique {c v w : Nat} (hp : 0 < p) (hpq : Nat.Coprime p q) (hv : HalfMessage p q c v)
    (hw : HalfMessage p q c w) : v ≡ w [MOD p] := by
  obtain ⟨a, ha, hva⟩ := hv
  obtain ⟨b, hb, hwb⟩ := hw
  have hab : a ≡ b [MOD p] := by
    have h : a * p ≡ b * p [MOD p * p] := Nat.ModEq.add_left_cancel' 1 (ha.symm.trans hb)
    exact Nat.ModEq.mul_right_cancel' hp.ne' h
  have hsum : q * v + a ≡ q * w + b [MOD p] :=
    (Nat.modEq_zero_iff_dvd.mpr hva).trans (Nat.modEq_zero_iff_dvd.mpr hwb).symm
  exact Nat.ModEq.cancel_left_of_coprime hpq (hab.add_right_cancel hsum)

theorem HalfMessage.congr {c v w : Nat} (h : HalfMessage p q c v) (hvw : v ≡ w [MOD p]) : HalfMessage p q c w := by
  obtain ⟨a, ha, hdvd⟩ := h
  refine ⟨a, ha, ?_⟩
  have hsum : q * v + a ≡ q * w + a [MOD p] := (hvw.mul_left q).add_right a
  exact Nat.modEq_zero_iff_dvd.mp (hsum.symm.trans (Nat.modEq_zero_iff_dvd.mpr hdvd))

/-- An encryption of m has the message m modulo p (R242). -/
theorem halfMessage_of_encrypts {c m r : Nat} (hp : Nat.Prime p) (hr : Nat.Coprime r p) (hr0 : 0 < r)
    (hc : c ≡ (1 + m * (p * q)) * r ^ (p * q) [MOD p * q * (p * q)]) : HalfMessage p q c m := by
  have hdvd : p * p ∣ p * q * (p * q) := ⟨q * q, by ring⟩
  have hmask : (r ^ (p * q)) ^ (p - 1) ≡ 1 [MOD p * p] := by
    have h := (pow_self_modEq_one (Nat.pow_pos hr0) (pow_pred_modEq_one hp hr)).pow q
    rwa [one_pow, ← pow_mul, ← pow_mul, Nat.mul_comm (p - 1), pow_mul] at h
  have hmsg : (1 + m * (p * q)) ^ (p - 1) ≡ 1 + (p - 1) * (m * (p * q)) [MOD p * p] :=
    one_add_pow_modEq ⟨m * q * (m * q), by ring⟩ (p - 1)
  refine ⟨(p - 1) * (m * q), ?_, ?_⟩
  · calc c ^ (p - 1) ≡ ((1 + m * (p * q)) * r ^ (p * q)) ^ (p - 1) [MOD p * p] := (hc.of_dvd hdvd).pow _
      _ = (1 + m * (p * q)) ^ (p - 1) * (r ^ (p * q)) ^ (p - 1) := mul_pow _ _ _
      _ ≡ (1 + (p - 1) * (m * (p * q))) * 1 [MOD p * p] := hmsg.mul hmask
      _ = 1 + (p - 1) * (m * q) * p := by ring
  · obtain ⟨k, rfl⟩ := Nat.exists_eq_succ_of_ne_zero hp.ne_zero
    exact ⟨m * q, by simp only [Nat.succ_eq_add_one, Nat.add_sub_cancel]; ring⟩

end

/-! ## Decryption under a plain key (R245) -/

section
variable {p q mu c : Nat}

/-- λ has its inverse μ modulo each prime. -/
theorem lambda_mu_modEq_one (hinv : (p - 1) * (q - 1) * mu % (p * q) = 1) :
    (p - 1) * (q - 1) * mu ≡ 1 [MOD p] := by
  rw [Nat.ModEq, ← Nat.mod_mul_right_mod _ p q, hinv]

theorem coprime_pred_of_mu (hinv : (p - 1) * (q - 1) * mu % (p * q) = 1) : Nat.Coprime (q - 1) p := by
  have hmu := lambda_mu_modEq_one hinv
  have hprod : Nat.Coprime ((p - 1) * (q - 1) * mu) p := by
    rw [Nat.Coprime, hmu.gcd_eq, Nat.gcd_one_left]
  exact hprod.coprime_mul_right.coprime_mul_left

/-- R245's value, before the reduction modulo n, is the message modulo p: raised to q - 1, the power of `HalfMessage` is the
power of R245. -/
theorem halfMessage_plain {k : Nat} (hp : Nat.Prime p) (hinv : (p - 1) * (q - 1) * mu % (p * q) = 1) (hc : Nat.Coprime c p)
    (hk : c ^ ((p - 1) * (q - 1)) ≡ 1 + k * (p * q) [MOD p * q * (p * q)]) : HalfMessage p q c (k * mu) := by
  obtain ⟨a, -, ha⟩ := exists_eq_one_add_mul hp.one_lt (pow_pred_modEq_one hp hc)
  have hpow : c ^ (p - 1) ≡ 1 + a * p [MOD p * p] := by
    rw [← ha]
    exact (Nat.mod_modEq _ _).symm
  have hexp : (q - 1) * a ≡ k * q [MOD p] := by
    refine Nat.ModEq.mul_right_cancel' hp.ne_zero (Nat.ModEq.add_left_cancel' 1 ?_)
    calc 1 + (q - 1) * a * p = 1 + (q - 1) * (a * p) := by ring
      _ ≡ (1 + a * p) ^ (q - 1) [MOD p * p] := (one_add_pow_modEq ⟨a * a, by ring⟩ _).symm
      _ ≡ (c ^ (p - 1)) ^ (q - 1) [MOD p * p] := (hpow.pow _).symm
      _ = c ^ ((p - 1) * (q - 1)) := (pow_mul _ _ _).symm
      _ ≡ 1 + k * (p * q) [MOD p * p] := hk.of_dvd ⟨q * q, by ring⟩
      _ = 1 + k * q * p := by ring
  have hneg : (q - 1) * mu + 1 ≡ 0 [MOD p] := by
    calc (q - 1) * mu + 1 ≡ (q - 1) * mu + (p - 1) * (q - 1) * mu [MOD p] := (lambda_mu_modEq_one hinv).symm.add_left _
      _ = (p - 1 + 1) * ((q - 1) * mu) := by ring
      _ = p * ((q - 1) * mu) := by rw [Nat.sub_add_cancel hp.one_le]
      _ ≡ 0 [MOD p] := Nat.modEq_zero_iff_dvd.mpr ⟨_, rfl⟩
  refine ⟨a, hpow, (coprime_pred_of_mu hinv).symm.dvd_of_dvd_mul_left (Nat.modEq_zero_iff_dvd.mp ?_)⟩
  calc (q - 1) * (q * (k * mu) + a) = k * q * ((q - 1) * mu) + (q - 1) * a := by ring
    _ ≡ k * q * ((q - 1) * mu) + k * q [MOD p] := hexp.add_left _
    _ = k * q * ((q - 1) * mu + 1) := by ring
    _ ≡ k * q * 0 [MOD p] := hneg.mul_left _

/-- Modulo each prime the power c^λ is 1. -/
theorem pow_lambda_modEq_one (hp : Nat.Prime p) (hc : Nat.Coprime c p) (e : Nat) : c ^ ((p - 1) * e) ≡ 1 [MOD p] := by
  have h := (pow_pred_modEq_one hp hc).pow e
  rwa [← pow_mul, one_pow] at h

theorem decryptValue_plainKey {n l : Nat} (hn : 0 < n) :
    decryptValue (PlainKey n l mu) c =
      if c ^ l % (n * n) = 0 then .error .ctInvalid else .ok ((c ^ l % (n * n) - 1) / n * mu % n) :=
  decryptValue_plain rfl hn c

theorem decryptValue_plain_of_coprime (hp : Nat.Prime p) (hq : Nat.Prime q) (hne : p ≠ q)
    (hinv : (p - 1) * (q - 1) * mu % (p * q) = 1) (hcp : Nat.Coprime c p) (hcq : Nat.Coprime c q) :
    ∃ v < p * q, decryptValue (PlainKey (p * q) ((p - 1) * (q - 1)) mu) c = .ok v ∧ HalfMessage p q c v ∧
      HalfMessage q p c v := by
  have hn : 1 < p * q := one_lt_mul'' hp.one_lt hq.one_lt
  have hone : c ^ ((p - 1) * (q - 1)) ≡ 1 [MOD p * q] := by
    refine (Nat.modEq_and_modEq_iff_modEq_mul ((Nat.coprime_primes hp hq).mpr hne)).mp ⟨pow_lambda_modEq_one hp hcp _, ?_⟩
    rw [Nat.mul_comm]
    exact pow_lambda_modEq_one hq hcq _
  obtain ⟨k, -, hk⟩ := exists_eq_one_add_mul hn hone
  have hpow : c ^ ((p - 1) * (q - 1)) ≡ 1 + k * (p * q) [MOD p * q * (p * q)] := by
    rw [← hk]
    exact (Nat.mod_modEq _ _).symm
  have hred : k * mu ≡ k * mu % (p * q) [MOD p * q] := (Nat.mod_modEq _ _).symm
  refine ⟨k * mu % (p * q), Nat.mod_lt _ (by omega), ?_, ?_, ?_⟩
  · rw [decryptValue_plainKey (Nat.zero_lt_of_lt hn), hk, if_neg (by omega), Nat.add_sub_cancel_left,
      Nat.mul_div_cancel _ (Nat.zero_lt_of_lt hn)]
  · exact (halfMessage_plain hp hinv hcp hpow).congr (hred.of_dvd ⟨q, rfl⟩)
  · rw [Nat.mul_comm (p - 1), Nat.mul_comm p] at hinv hpow
    exact (halfMessage_plain hq hinv hcq hpow).congr (hred.of_dvd ⟨p, Nat.mul_comm _ _⟩)

end

/-! ## Decryption under a CRT key (R246) -/

section
variable {p q c invp mup : Nat}

/-- Each half is the message modulo its prime. -/
theorem decHalf_of_coprime (hp : Nat.Prime p) (hlt : p < 2 ^ 2048) (hc : Nat.Coprime c p)
    (hmu : q * mup % p = p - 1) (hinv : p * invp % 2 ^ 2048 = 1) :
    ∃ v < p, decHalf p (p * p) (p - 1) invp mup c = .ok v ∧ HalfMessage p q c v := by
  obtain ⟨a, halt, ha⟩ := exists_eq_one_add_mul hp.one_lt (pow_pred_modEq_one hp hc)
  have hquot : a * p * invp % 2 ^ 2048 = a := by
    rw [mul_assoc, Nat.mul_mod, hinv, Nat.mul_one, Nat.mod_mod, Nat.mod_eq_of_lt (halt.trans hlt)]
  refine ⟨a * mup % p, Nat.mod_lt _ hp.pos, ?_, a, ?_, ?_⟩
  · rw [decHalf_eq, ← Nat.pow_mod, ha, if_neg (by omega), Nat.add_sub_cancel_left, hquot]
  · rw [← ha]
    exact (Nat.mod_modEq _ _).symm
  · have hmu' : q * mup ≡ p - 1 [MOD p] := by
      rw [Nat.ModEq, hmu, Nat.mod_eq_of_lt (Nat.sub_lt hp.pos one_pos)]
    refine Nat.modEq_zero_iff_dvd.mp ?_
    calc q * (a * mup % p) + a ≡ q * (a * mup) + a [MOD p] := ((Nat.mod_modEq _ _).mul_left q).add_right a
      _ = a * (q * mup) + a := by ring
      _ ≡ a * (p - 1) + a [MOD p] := (hmu'.mul_left a).add_right a
      _ = a * (p - 1 + 1) := by ring
      _ = a * p := by rw [Nat.sub_add_cancel hp.one_le]
      _ ≡ 0 [MOD p] := Nat.modEq_zero_iff_dvd.mpr ⟨a, Nat.mul_comm _ _⟩

/-- The Garner combination has both residues and lies below p·q (R246). -/
theorem garner_spec {invpq x y : Nat} (hq : 0 < q) (hx : x < p) (hinv : p * invpq ≡ 1 [MOD q]) :
    garner p q invpq x y < p * q ∧ garner p q invpq x y ≡ x [MOD p] ∧ garner p q invpq x y ≡ y [MOD q] := by
  have hq' : (0 : Int) < q := by exact_mod_cast hq
  obtain ⟨h, hh⟩ := Int.eq_ofNat_of_zero_le (Int.emod_nonneg (((y : Int) - x) * invpq) hq'.ne')
  have hlt : h < q := by
    have := Int.emod_lt_of_pos (((y : Int) - x) * invpq) hq'
    omega
  rw [garner_eq hh.symm]
  refine ⟨add_mul_lt_mul hx hlt, ?_, ?_⟩
  · exact (Nat.modEq_zero_iff_dvd.mpr ⟨h, rfl⟩ : p * h ≡ 0 [MOD p]).add_left x
  · rw [← Int.natCast_modEq_iff] at hinv ⊢
    push_cast at hinv ⊢
    have hmod : (h : Int) ≡ ((y : Int) - x) * invpq [ZMOD q] := by
      rw [← hh]
      exact Int.mod_modEq _ _
    calc (x : Int) + p * h ≡ x + p * (((y : Int) - x) * invpq) [ZMOD q] := (hmod.mul_left _).add_left _
      _ = x + ((y : Int) - x) * (p * invpq) := by ring
      _ ≡ x + ((y : Int) - x) * 1 [ZMOD q] := (hinv.mul_left _).add_left _
      _ = y := by ring

theorem decryptValue_crt_of_coprime {k : PrivKey} (hp : Nat.Prime p) (hq : Nat.Prime q) (hlt : p * q < 2 ^ 2048)
    (hk : CrtKeyFor p q k) (hcp : Nat.Coprime c p) (hcq : Nat.Coprime c q) :
    ∃ v < p * q, decryptValue k c = .ok v ∧ HalfMessage p q c v ∧ HalfMessage q p c v := by
  obtain ⟨hkind, -, -, -, -, -, hkp, hkq, hlp, hlq, hp2, hq2, ⟨-, hmp⟩, ⟨-, hmq⟩, ⟨-, hip⟩, ⟨-, hiq⟩, -, hipq⟩ := hk
  have hple : p < 2 ^ 2048 := (Nat.le_mul_of_pos_right p hq.pos).trans_lt hlt
  have hqle : q < 2 ^ 2048 := (Nat.le_mul_of_pos_left q hp.pos).trans_lt hlt
  obtain ⟨x, hx, hxdec, hxm⟩ := decHalf_of_coprime hp hple hcp hmp hip
  obtain ⟨y, -, hydec, hym⟩ := decHalf_of_coprime hq hqle hcq hmq hiq
  have hinv : p * k.invpq ≡ 1 [MOD q] := by rw [Nat.ModEq, hipq, Nat.mod_eq_of_lt hq.one_lt]
  obtain ⟨hvlt, hvp, hvq⟩ := garner_spec (y := y) hq.pos hx hinv
  refine ⟨_, hvlt, ?_, hxm.congr hvp.symm, hym.congr hvq.symm⟩
  rw [decryptValue_crt hkind, decCrt, hkp, hkq, hlp, hlq, hp2, hq2, hxdec, hydec]
  rfl

end

end Sys2Proof.Machine
end

section
/-! PROOFS. The Paillier laws, settled: decryption inverts encryption (R243), how the two schemes differ (R247), and the
homomorphic sum and product (R250). -/

set_option exponentiation.threshold 8200

namespace Sys2Proof.Machine

/-! ## A key of either scheme decrypts an encryption to its message -/

/-- SK made of the primes p and q, under either scheme (R233, R234). -/
def KeyOf (p q : Nat) (k : PrivKey) : Prop :=
  (∃ mu, mu < p * q ∧ (p - 1) * (q - 1) * mu % (p * q) = 1 ∧ k = PlainKey (p * q) ((p - 1) * (q - 1)) mu) ∨ CrtKeyFor p q k

section
variable {p q c v w : Nat} {k : PrivKey}

theorem KeyOf.kind_ne_none (h : KeyOf p q k) : k.kind ≠ .none := by
  obtain ⟨mu, -, -, rfl⟩ | ⟨hkind, -⟩ := h
  · exact ne_none_of_plain rfl
  · exact ne_none_of_crt hkind

theorem KeyOf.modulusSquared (h : KeyOf p q k) : skModulusSquared k = p * q * (p * q) := by
  obtain ⟨mu, -, -, rfl⟩ | ⟨hkind, -, -, -, -, -, -, -, -, -, hp2, hq2, -⟩ := h
  · rfl
  · rw [skModulusSquared_crt hkind, hp2, hq2, mul_mul_mul_comm]

theorem decryptValue_of_coprime (hp : Nat.Prime p) (hq : Nat.Prime q) (hne : p ≠ q) (hlt : p * q < 2 ^ 2048)
    (hk : KeyOf p q k) (hc : Nat.Coprime c (p * q)) :
    ∃ v < p * q, decryptValue k c = .ok v ∧ HalfMessage p q c v ∧ HalfMessage q p c v := by
  have hcp := hc.coprime_mul_right_right
  have hcq := hc.coprime_mul_left_right
  obtain ⟨mu, -, hinv, rfl⟩ | hcrt := hk
  · exact decryptValue_plain_of_coprime hp hq hne hinv hcp hcq
  · exact decryptValue_crt_of_coprime hp hq hlt hcrt hcp hcq

/-- Both halves determine the message modulo p·q. -/
theorem modEq_of_halfMessages (hp : Nat.Prime p) (hq : Nat.Prime q) (hne : p ≠ q)
    (hvp : HalfMessage p q c v) (hvq : HalfMessage q p c v) (hwp : HalfMessage p q c w) (hwq : HalfMessage q p c w) :
    v ≡ w [MOD p * q] := by
  have hpq := (Nat.coprime_primes hp hq).mpr hne
  exact (Nat.modEq_and_modEq_iff_modEq_mul hpq).mp ⟨hvp.unique hp.pos hpq hwp, hvq.unique hq.pos hpq.symm hwq⟩

/-- `c` encrypts `m` under the modulus n with the mask `r` (R242). -/
def Encrypts (n m r c : Nat) : Prop := c ≡ (1 + m * n) * r ^ n [MOD n * n]

theorem encrypts_formula (n m r : Nat) : Encrypts n m r ((1 + m * n) * r ^ n % (n * n)) := Nat.mod_modEq _ _

theorem Encrypts.coprime {n m r : Nat} (h : Encrypts n m r c) (hr : Nat.Coprime r n) : Nat.Coprime c n := by
  have hmod : c ≡ (1 + m * n) * r ^ n [MOD n] := h.of_dvd ⟨n, rfl⟩
  rw [Nat.Coprime, hmod.gcd_eq]
  exact Nat.Coprime.mul_left (by simp) (hr.pow_left n)

/-- Decryption inverts encryption, under either scheme (R243). -/
theorem decryptValue_of_encrypts {m r : Nat} (hp : Nat.Prime p) (hq : Nat.Prime q) (hne : p ≠ q) (hlt : p * q < 2 ^ 2048)
    (hk : KeyOf p q k) (hr : Nat.Coprime r (p * q)) (hc : Encrypts (p * q) m r c) :
    decryptValue k c = .ok (m % (p * q)) := by
  have hr0 : 0 < r := by
    refine Nat.pos_of_ne_zero fun hzero => ?_
    rw [hzero, Nat.coprime_zero_left] at hr
    exact (one_lt_mul'' hp.one_lt hq.one_lt).ne' hr
  obtain ⟨v, hvlt, hdec, hvp, hvq⟩ := decryptValue_of_coprime hp hq hne hlt hk (hc.coprime hr)
  have hmp : HalfMessage p q c m := halfMessage_of_encrypts hp hr.coprime_mul_right_right hr0 hc
  have hmq : HalfMessage q p c m := by
    unfold Encrypts at hc
    rw [Nat.mul_comm p q] at hc
    exact halfMessage_of_encrypts hq hr.coprime_mul_left_right hr0 hc
  have hvm : v % (p * q) = m % (p * q) := modEq_of_halfMessages hp hq hne hvp hvq hmp hmq
  rw [hdec, ← hvm, Nat.mod_eq_of_lt hvlt]

theorem exec_plDec_of_encrypts {m r : Nat} {d a : BReg} {s : State} (hp : Nat.Prime p) (hq : Nat.Prime q) (hne : p ≠ q)
    (hlt : p * q < 2 ^ 2048) (hk : KeyOf p q s.sk) (ha : reg s a = .normal .w4096 c) (hc : c < p * q * (p * q))
    (hr : Nat.Coprime r (p * q)) (henc : Encrypts (p * q) m r c) :
    exec (.plDec d a) s = .next (complete (setReg s d (.normal .w2048 (m % (p * q))))) :=
  exec_plDec_ok ha hk.kind_ne_none (by rwa [hk.modulusSquared]) (decryptValue_of_encrypts hp hq hne hlt hk hr henc)
    ((Nat.mod_lt _ (Nat.mul_pos hp.pos hq.pos)).trans hlt)

end

/-- Settles O51: `decryptValue_of_encrypts` at the ciphertext PL.ENC leaves. -/
theorem decryptionInvertsEncryption : Obligations.DecryptionInvertsEncryption := by
  intro p q m r d e a b s hp hq hne hlt hpk hk ha hb hm hr hgcd
  have hpos : 0 < p * q := Nat.mul_pos hp.pos hq.pos
  have henc := encrypts_formula (p * q) m r
  have hclt : (1 + m * (p * q)) * r ^ (p * q) % (p * q * (p * q)) < p * q * (p * q) := Nat.mod_lt _ (Nat.mul_pos hpos hpos)
  have hcop := henc.coprime hgcd
  have hpass : plEncChecks s d a (some b) none = .ok () := by
    rw [plEncChecks_eq (emit := none) (r := some b) nofun ha (by rintro _ ⟨⟩; exact ⟨r, hb⟩), hpk, decide_eq_true hm]
    rfl
  have hexec := exec_plEnc_supplied hpass ha hb
  rw [hpk, if_pos hr] at hexec
  refine ⟨_, _, _, hexec, reg_setReg_self s d _, ?_, hclt, hcop,
    exec_plDec_of_encrypts hp hq hne hlt (show KeyOf p q s.sk from hk) (reg_setReg_self s d _) hclt hgcd henc, ?_⟩
  · refine Nat.pos_of_ne_zero fun hzero => ?_
    rw [hzero, Nat.coprime_zero_left] at hcop
    exact (one_lt_mul'' hp.one_lt hq.one_lt).ne' hcop
  · rw [reg_complete, reg_setReg_self, Nat.mod_eq_of_lt hm]

/-! ## Ciphertexts that share a factor with the modulus (R247) -/

section
variable {p q c mu : Nat}

theorem two_le_pred_of_odd {p : Nat} (hp : Nat.Prime p) (hodd : p % 2 = 1) : 2 ≤ p - 1 := by
  have := hp.two_le
  omega

/-- A multiple of n raised to at least the second power is a multiple of n². -/
theorem pow_mod_square_eq_zero {n e : Nat} (h : n ∣ c) (he : 2 ≤ e) : c ^ e % (n * n) = 0 := by
  refine Nat.mod_eq_zero_of_dvd ?_
  rw [← sq]
  exact (pow_dvd_pow_of_dvd h 2).trans (pow_dvd_pow c he)

/-- A multiple of p has a zero half, whatever the other half is. -/
theorem decryptValue_crt_of_dvd {k : PrivKey} (hk : CrtKeyFor p q k) (hp2 : 2 ≤ p - 1) (hq2 : 2 ≤ q - 1)
    (h : p ∣ c ∨ q ∣ c) : decryptValue k c = .error .ctInvalid := by
  obtain ⟨hkind, -, -, -, -, -, hkp, hkq, hklp, hklq, hkp2, hkq2, -⟩ := hk
  rw [decryptValue_crt hkind, decCrt, hkp, hkq, hklp, hklq, hkp2, hkq2, decHalf_eq, decHalf_eq, ← Nat.pow_mod, ← Nat.pow_mod]
  by_cases hpz : c ^ (p - 1) % (p * p) = 0
  · rw [if_pos hpz, except_error_bind]
  · have hdvd : q ∣ c := h.resolve_left fun hpc => hpz (pow_mod_square_eq_zero hpc hp2)
    rw [if_neg hpz, if_pos (pow_mod_square_eq_zero hdvd hq2), except_ok_bind, except_error_bind]

theorem decryptValue_plain_of_dvd (hpos : 0 < p * q) (he : 2 ≤ (p - 1) * (q - 1)) (h : p * q ∣ c) :
    decryptValue (PlainKey (p * q) ((p - 1) * (q - 1)) mu) c = .error .ctInvalid := by
  rw [decryptValue_plainKey hpos, if_pos (pow_mod_square_eq_zero h he)]

/-- A ciphertext that lacks one of the primes has a non-zero power, so plain decryption answers. -/
theorem decryptValue_plain_of_not_dvd (hp : Nat.Prime p) (hq : Nat.Prime q) (hne : p ≠ q) (h : ¬ p * q ∣ c) :
    ∃ v < p * q, decryptValue (PlainKey (p * q) ((p - 1) * (q - 1)) mu) c = .ok v := by
  have hpos : 0 < p * q := Nat.mul_pos hp.pos hq.pos
  have hpow : ¬ c ^ ((p - 1) * (q - 1)) % (p * q * (p * q)) = 0 := by
    intro hzero
    have hdvd : p * q ∣ c ^ ((p - 1) * (q - 1)) := (Dvd.intro _ rfl).trans (Nat.dvd_of_mod_eq_zero hzero)
    have hpc : p ∣ c := hp.dvd_of_dvd_pow ((Dvd.intro _ rfl).trans hdvd)
    have hqc : q ∣ c := hq.dvd_of_dvd_pow ((Dvd.intro_left _ rfl).trans hdvd)
    exact h (((Nat.coprime_primes hp hq).mpr hne).mul_dvd_of_dvd_of_dvd hpc hqc)
  have hdec := decryptValue_plainKey (mu := mu) (l := (p - 1) * (q - 1)) (c := c) hpos
  rw [if_neg hpow] at hdec
  exact ⟨_, Nat.mod_lt _ hpos, hdec⟩

end

/-- Settles O52. -/
theorem plainAndCrtDecryptionLaws : Obligations.PlainAndCrtDecryptionLaws := by
  intro p q c mu d a k s hp hq hne hlt hpodd hqodd hinv hmu hcrt ha hc
  have hpos : 0 < p * q := Nat.mul_pos hp.pos hq.pos
  have hp2 := two_le_pred_of_odd hp hpodd
  have hq2 := two_le_pred_of_odd hq hqodd
  have hplainKey : KeyOf p q (PlainKey (p * q) ((p - 1) * (q - 1)) mu) := .inl ⟨mu, hmu, hinv, rfl⟩
  have hrun : ∀ sk v, KeyOf p q sk → v < p * q → decryptValue sk c = .ok v → exec (.plDec d a) { s with sk := sk } =
      .next (afterCompletion { s with sk := sk, regs := s.regs.set d (.normal .w2048 v) }) := fun sk v hkey hv hdec =>
    exec_plDec_ok (s := { s with sk := sk }) ha hkey.kind_ne_none (by rwa [hkey.modulusSquared]) hdec (hv.trans hlt)
  have hfault : ∀ sk code, KeyOf p q sk → decryptValue sk c = .error code →
      FaultsWith (.plDec d a) { s with sk := sk } code := fun sk code hkey hdec =>
    faultsWith_plDec (s := { s with sk := sk }) ha hkey.kind_ne_none (by rwa [hkey.modulusSquared]) hdec
  refine ⟨fun hone => ?_, fun hboth => ⟨?_, ?_⟩, fun hshared => ⟨?_, ?_⟩⟩
  · obtain ⟨v, hv, hvdec, hvp, hvq⟩ := decryptValue_of_coprime hp hq hne hlt hplainKey hone
    obtain ⟨w, hw, hwdec, hwp, hwq⟩ := decryptValue_of_coprime hp hq hne hlt (.inr hcrt) hone
    have hvw : v = w := (modEq_of_halfMessages hp hq hne hvp hvq hwp hwq).eq_of_lt_of_lt hv hw
    exact ⟨v, hv, hrun _ v hplainKey hv hvdec, hrun k v (.inr hcrt) hv (hvw ▸ hwdec)⟩
  · have hdvd : p * q ∣ c := hboth ▸ Nat.gcd_dvd_left c (p * q)
    exact hfault _ _ hplainKey (decryptValue_plain_of_dvd hpos (hp2.trans (Nat.le_mul_of_pos_right _ (by omega))) hdvd)
  · have hdvd : p ∣ c := (Dvd.intro _ rfl).trans (hboth ▸ Nat.gcd_dvd_left c (p * q))
    exact hfault _ _ (.inr hcrt) (decryptValue_crt_of_dvd hcrt hp2 hq2 (.inl hdvd))
  · have hdvd : p ∣ c ∨ q ∣ c := by
      have hgcd := Nat.gcd_dvd_left c (p * q)
      exact hshared.imp (fun h => h.symm.dvd.trans hgcd) (fun h => h.symm.dvd.trans hgcd)
    exact hfault _ _ (.inr hcrt) (decryptValue_crt_of_dvd hcrt hp2 hq2 hdvd)
  · have hndvd : ¬ p * q ∣ c := by
      intro hdvd
      rw [Nat.gcd_eq_right hdvd] at hshared
      obtain hpp | hqq := hshared
      · exact hq.ne_one ((Nat.mul_eq_left hp.ne_zero).mp hpp)
      · exact hp.ne_one ((Nat.mul_eq_right hq.ne_zero).mp hqq)
    obtain ⟨v, hv, hdec⟩ := decryptValue_plain_of_not_dvd hp hq hne hndvd
    exact ⟨v, hv, hrun _ v hplainKey hv hdec⟩

/-! ## The homomorphic laws (R250) -/

section
variable {n x y m m' r r' : Nat}

/-- The product of two encryptions encrypts the sum. -/
theorem Encrypts.mul (hx : Encrypts n m r x) (hy : Encrypts n m' r' y) :
    Encrypts n (m + m') (r * r') (x * y % (n * n)) := by
  have hsq : m * m' * (n * n) ≡ 0 [MOD n * n] := Nat.modEq_zero_iff_dvd.mpr ⟨m * m', Nat.mul_comm _ _⟩
  have hsum : (1 + m * n) * (1 + m' * n) ≡ 1 + (m + m') * n [MOD n * n] := by
    calc (1 + m * n) * (1 + m' * n) = 1 + (m + m') * n + m * m' * (n * n) := by ring
      _ ≡ 1 + (m + m') * n [MOD n * n] := hsq.add_left _
  calc x * y % (n * n) ≡ x * y [MOD n * n] := Nat.mod_modEq _ _
    _ ≡ (1 + m * n) * r ^ n * ((1 + m' * n) * r' ^ n) [MOD n * n] := Nat.ModEq.mul hx hy
    _ = (1 + m * n) * (1 + m' * n) * (r * r') ^ n := by ring
    _ ≡ (1 + (m + m') * n) * (r * r') ^ n [MOD n * n] := hsum.mul_right _

/-- A power of an encryption encrypts the product. -/
theorem Encrypts.pow (hx : Encrypts n m r x) (k : Nat) : Encrypts n (m * k) (r ^ k) (x ^ k % (n * n)) := by
  have hprod : (1 + m * n) ^ k ≡ 1 + m * k * n [MOD n * n] := by
    refine (one_add_pow_modEq ⟨m * m, by ring⟩ k).trans ?_
    rw [show k * (m * n) = m * k * n by ring]
  calc x ^ k % (n * n) ≡ x ^ k [MOD n * n] := Nat.mod_modEq _ _
    _ ≡ ((1 + m * n) * r ^ n) ^ k [MOD n * n] := Nat.ModEq.pow k hx
    _ = (1 + m * n) ^ k * (r ^ k) ^ n := by rw [mul_pow, pow_right_comm]
    _ ≡ (1 + m * k * n) * (r ^ k) ^ n [MOD n * n] := hprod.mul_right _

end

/-- Settles O53: the sum and the product, as encryptions, decrypted. -/
theorem homomorphicSumAndProductDecrypt : Obligations.HomomorphicSumAndProductDecrypt := by
  intro p q m1 m2 r1 r2 k d e a b c s hp hq hne hlt hpk hk _ _ hkn hgcd ha hb hc
  have hpos : 0 < p * q := Nat.mul_pos hp.pos hq.pos
  have hmod : ∀ x, x % (p * q * (p * q)) < p * q * (p * q) := fun x => Nat.mod_lt _ (Nat.mul_pos hpos hpos)
  have hdec : ∀ {t : State} {y m r : Nat}, t.sk = s.sk → reg t d = .normal .w4096 (y % (p * q * (p * q))) →
      Nat.Coprime r (p * q) → Encrypts (p * q) m r (y % (p * q * (p * q))) →
      exec (.plDec e d) t = .next (complete (setReg t e (.normal .w2048 (m % (p * q))))) := fun hsk hreg hr henc =>
    exec_plDec_of_encrypts hp hq hne hlt (hsk ▸ hk) hreg (hmod _) hr henc
  have hx := encrypts_formula (p * q) m1 r1
  have hy := encrypts_formula (p * q) m2 r2
  have hv : s.pk.valid = true := by rw [hpk]
  have hsum := exec_plAdd (d := d) ha hb hv (by rw [hpk]; exact hmod _) (by rw [hpk]; exact hmod _)
  have hprod := exec_plMul (d := d) ha hc (hkn.trans hlt) hv (by rw [hpk]; exact hmod _) (by rw [hpk]; exact hkn)
  rw [hpk] at hsum hprod
  exact ⟨⟨_, _, hsum, hdec rfl (reg_setReg_self s d _) hgcd (hx.mul hy), reg_setReg_self _ e _⟩,
    _, _, hprod, hdec rfl (reg_setReg_self s d _) ((Nat.Coprime.coprime_mul_right hgcd).pow_left k) (hx.pow k),
    reg_setReg_self _ e _⟩

end Sys2Proof.Machine
end
